-- ==== Sys2Proof/Word.lean ====
section
/-! DEFINITION. The word types of the block (00_scope.md R10): bytes on the wire and in every store, 16-bit AR and
checksum, 32-bit checksum accumulator. All are unsigned (R13, R133). -/

namespace Sys2Proof

/-- A byte: one serial frame's data, one cell of FLASH, FTB or PB, an opcode, a reply (R10). -/
abbrev Byte := BitVec 8

/-- AddressRegister, the received checksum, one word of the checksum's buffer, one fill word (R10, R61). -/
abbrev Half := BitVec 16

/-- The checksum's working accumulator ACC (R10, R126). -/
abbrev Acc := BitVec 32

end Sys2Proof
end

