-- ==== Sys2Proof/Config.lean ====
section
/-! DEFINITION. The configuration record Cfg of 00_scope.md R8, its validity (R9), the spec's example configuration CFG8,
and the free values: opaque constants of which nothing can be proved. -/

namespace Sys2Proof

/-- The implementation parameters of R8 and of the open-parameter table of 92_eei_decisions.md. BAUD and TIMER_RATE are
informative only (R8) and have no field (log 22). -/
structure Cfg where
  /-- PAGE_SIZE: bytes in a flash page, length of PB and FTB, payload length of WritePage. -/
  pageSize : Nat
  /-- SIGNATURE[0]. -/
  sig0 : Byte
  /-- SIGNATURE[1]. -/
  sig1 : Byte
  /-- SIGNATURE[2]. -/
  sig2 : Byte
  /-- BIT_TICKS: the bit period in ticks. -/
  bitTicks : Nat
  /-- HALF_BIT_TICKS: half a bit period (D5: the floor of half of BIT_TICKS unless overridden; log 19). -/
  halfBitTicks : Nat
  /-- TIMER_WIDTH: width of TCNT. -/
  timerWidth : Nat
  /-- SLACK_MAX: bound on the software overhead of one timed wait (R103). -/
  slackMax : Nat
  /-- WDT_SHORT, in the watchdog's own unit. -/
  wdtShort : Nat
  /-- WDT_MEDIUM, in the watchdog's own unit. -/
  wdtMedium : Nat
  /-- WDT_TICK_RATIO: ticks of the bit timer in one unit of the watchdog (R17, D23). DESIGN CHOICE (log 30): a whole number
  of ticks; the table of 92_eei_decisions.md gives this parameter no constraint. -/
  wdtTickRatio : Nat
  /-- APP_ENTRY: the address control passes to in JumpToApp (R179). -/
  appEntry : Nat
  /-- APP_LIMIT: first byte address WritePage may not target (R52, D11). -/
  appLimit : Nat
  /-- ERASED_BYTE (D13). -/
  erasedByte : Byte
  /-- START_LEVEL (D2). -/
  startLevel : Bool
  /-- STOP_LEVEL (D2). -/
  stopLevel : Bool
  deriving DecidableEq, Repr

/-- The constraints of R8 and of the open-parameter table of 92_eei_decisions.md, and one of the model's own: that table
gives WDT_TICK_RATIO the constraint `none`, and `0 < wdtTickRatio` is a DESIGN CHOICE (log 30), without which a timeout
would last no tick. A Cfg that breaks one is not a configuration of this hardware (R9): the step refuses it. -/
def Cfg.valid (c : Cfg) : Bool :=
  decide (2 ≤ c.pageSize) && (decide (c.pageSize ≤ 65536) && (decide (c.pageSize % 2 = 0) && (
  decide (0 < c.appLimit) && (decide (c.appLimit ≤ 65536) && (decide (c.appLimit % c.pageSize = 0) && (
  decide (0 < c.timerWidth) && (decide (2 ≤ c.bitTicks) && (decide (c.bitTicks ≤ 2 ^ c.timerWidth - 1) && (
  decide (1 ≤ c.halfBitTicks) && (decide (c.halfBitTicks < c.bitTicks) && (decide (0 < c.wdtShort) && (
  decide (c.wdtShort < c.wdtMedium) && (decide (0 < c.wdtTickRatio) && (decide (c.appEntry < 65536) && (decide (c.startLevel ≠ c.stopLevel))))))))))))))))

/-- SIGNATURE[k], k = 0, 1, 2. -/
def Cfg.sigByte (c : Cfg) : Fin 3 → Byte
  | 0 => c.sig0
  | 1 => c.sig1
  | 2 => c.sig2

/-- CFG8, the spec's own example configuration (95_test_vectors.md). TIMER_WIDTH, the watchdog's values and APP_ENTRY,
which CFG8 does not give, are DESIGN CHOICES (log 2); no statement rests on them. -/
def Cfg.cfg8 : Cfg where
  pageSize := 8
  sig0 := 0xA1
  sig1 := 0xB2
  sig2 := 0xC3
  bitTicks := 16
  halfBitTicks := 8
  timerWidth := 8
  slackMax := 0
  wdtShort := 1000
  wdtMedium := 100000
  wdtTickRatio := 1
  appEntry := 0
  appLimit := 0x0100
  erasedByte := 0xFF
  startLevel := false
  stopLevel := true

/-! Free values. Each is a function without a body: a claim about one holds whatever it is (93_implementation_defined.md,
treatment `any value`). The first argument is State's counter `draws`, so every draw is fresh; the second is the place
within the draw. -/

/-- A byte the spec leaves unspecified (log 4, 12). -/
opaque Config.freeByte : Nat → Nat → Byte

/-- What a flash read returns while reads are disabled or the engine is busy, by the counter and the address (42 R152,
log 26): a constant of its own, related to no other free value. -/
opaque Config.unreadableByte : Nat → Nat → Byte

/-- A bit the spec leaves unspecified (log 4). -/
opaque Config.freeBit : Nat → Nat → Bool

/-- A 16-bit value the spec leaves unspecified (log 4). -/
opaque Config.freeHalf : Nat → Nat → Half

/-- A 32-bit value the spec leaves unspecified (log 4). -/
opaque Config.freeAcc : Nat → Nat → Acc

/-- A count the spec leaves unspecified (log 4). -/
opaque Config.freeCount : Nat → Nat → Nat

/-- The latency of a flash operation whose latency the environment's list does not give (R142, log 9). -/
opaque Config.flashLatency : Nat → Nat

/-- The slack of a timed wait whose slack the environment's list does not give, before it is bounded by SLACK_MAX
(R103, log 9). -/
opaque Config.slackDraw : Nat → Nat

/-- What a flash byte that nothing has written since the device was made holds (10_state.md R44: unspecified at the first
power-on; log 5). -/
opaque Config.powerOnByte : Nat → Byte

end Sys2Proof
end

