-- ==== Sys2Proof/Syntax.lean ====
section
/-! DEFINITION. The command set as syntax: one constructor per row of spec/opcode_table.json (30_encoding.md R82). An
instruction is an opcode; its body bytes are operands that the running command reads from the line (44_command_dispatcher.md
R191, R195 to R201; log 7), and Decode.lean gives the whole command's encoding. -/

namespace Sys2Proof

/-- The five commands of R82. -/
inductive Instr where
  /-- IDENTIFY, opcode 'I' (R195). -/
  | identify
  /-- LOADADDR, opcode 'A' (R197). -/
  | loadAddr
  /-- WRITEPAGE, opcode 'W' (R199). -/
  | writePage
  /-- RESET, opcode 'R' (R207). -/
  | reset
  /-- UNKNOWN: every other opcode byte, which it carries (R209). -/
  | unknown (opcode : Byte)
  deriving DecidableEq, Repr

end Sys2Proof
end

