-- ==== Sys2Proof/WellFormed.lean ====
section
/-! DEFINITION. Well-formed instructions and commands. -/

namespace Sys2Proof

/-- The four opcodes of R82 that have a row of priority 1, as ASCII codes (R81; log 13). -/
def definedOpcodes : List Byte := [0x49, 0x41, 0x57, 0x52]

/-- UNKNOWN stands for the other 252 opcode bytes only (R82). -/
def Instr.wf : Instr → Bool
  | .unknown opcode => !definedOpcodes.contains opcode
  | _ => true

/-- Number of body bytes a command consumes: a function of the opcode alone (R79, R80). -/
def Instr.bodyLength (c : Cfg) : Instr → Nat
  | .identify => 3
  | .loadAddr => 2
  | .writePage => 2 + c.pageSize
  | .reset => 0
  | .unknown _ => 0

/-- A whole command, opcode and body, is well formed when its instruction is and its body has the length of R79. -/
def commandWf (c : Cfg) (i : Instr) (body : List Byte) : Bool :=
  i.wf && decide (body.length = i.bodyLength c)

end Sys2Proof
end

