-- ==== Sys2Proof/Decode.lean ====
section
/-! DEFINITION. Decoding, total on any bytes and rejecting by name, then the encoder, the script notation of R89 and the
opcode table of R90. -/

namespace Sys2Proof

/-- Why a byte sequence is not a command. Safe: nothing is decoded. -/
inductive Reject where
  /-- There is no opcode byte. -/
  | noOpcode
  /-- The opcode's body is not complete (R80: the length follows from the first byte). -/
  | bodyTooShort (needed got : Nat)
  deriving DecidableEq, Repr

/-- The opcode map: exact match of all eight bits (30_encoding.md R82). -/
def decodeOpcode (b : Byte) : Instr :=
  if b = 0x49 then .identify
  else if b = 0x41 then .loadAddr
  else if b = 0x57 then .writePage
  else if b = 0x52 then .reset
  else .unknown b

/-- Decoding an instruction: its opcode byte, and the bytes after it (R80: no prefixes, no mode). -/
def decode : List Byte → Except Reject (Instr × List Byte)
  | [] => .error .noOpcode
  | b :: rest => .ok (decodeOpcode b, rest)

/-- Decoding a whole command: the instruction, its body, and the bytes after it (R79, R80). -/
def decodeCommand (c : Cfg) (bytes : List Byte) : Except Reject (Instr × List Byte × List Byte) :=
  match decode bytes with
  | .error r => .error r
  | .ok (i, rest) =>
    if rest.length < i.bodyLength c then .error (.bodyTooShort (i.bodyLength c) rest.length)
    else .ok (i, rest.take (i.bodyLength c), rest.drop (i.bodyLength c))

/-- The opcode byte of an instruction (R81, R82). -/
def encodeOpcode : Instr → Byte
  | .identify => 0x49
  | .loadAddr => 0x41
  | .writePage => 0x57
  | .reset => 0x52
  | .unknown opcode => opcode

/-- The words of an instruction: one opcode byte (R79). -/
def encode (i : Instr) : List Byte := [encodeOpcode i]

/-- The bytes of a whole command in the order sent (R79). -/
def encodeCommand (i : Instr) (body : List Byte) : List Byte := encode i ++ body

/-- Low byte of a 16-bit value: the first on the wire (R54). -/
def lowByte (w : Half) : Byte := w.extractLsb' 0 8

/-- High byte of a 16-bit value: the second on the wire (R54). -/
def highByte (w : Half) : Byte := w.extractLsb' 8 8

/-- A 16-bit value of two bytes, little-endian: the second byte on top (R54, R83). -/
def le16 (lo hi : Byte) : Half := hi ++ lo

/-- `IDENTIFY s0 s1 s2` of the script notation (R89, format F_I). -/
def scriptIdentify (s0 s1 s2 : Byte) : List Byte := encodeCommand .identify [s0, s1, s2]

/-- `LOADADDR addr16` (R89, format F_A). -/
def scriptLoadAddr (a : Half) : List Byte := encodeCommand .loadAddr [lowByte a, highByte a]

/-- `WRITEPAGE ck16 d0 d1 ...` (R89, format F_W). -/
def scriptWritePage (ck : Half) (d : List Byte) : List Byte :=
  encodeCommand .writePage (lowByte ck :: highByte ck :: d)

/-- `RESET` (R89, format F_R). -/
def scriptReset : List Byte := encodeCommand .reset []

/-- `RAW byte` (R89, format F_X when the byte is Unknown). -/
def scriptRaw (b : Byte) : List Byte := [b]

/-- One row of opcode_table.json, as far as a decoder needs it (R90). -/
structure OpcodeRow where
  mnemonic : String
  mask : Byte
  pattern : Byte
  priority : Nat
  deriving DecidableEq, Repr

/-- The rows of opcode_table.json (R90). -/
def opcodeTable : List OpcodeRow :=
  [⟨"IDENTIFY", 0xFF, 0x49, 1⟩, ⟨"LOADADDR", 0xFF, 0x41, 1⟩, ⟨"WRITEPAGE", 0xFF, 0x57, 1⟩, ⟨"RESET", 0xFF, 0x52, 1⟩,
   ⟨"UNKNOWN", 0x00, 0x00, 0⟩]

/-- A row matches a byte when the byte's masked bits are its pattern. -/
def OpcodeRow.covers (r : OpcodeRow) (b : Byte) : Bool := b &&& r.mask == r.pattern

/-- The matching row of highest priority (R90); the first among equals. -/
def tableLookup (b : Byte) : Option OpcodeRow :=
  (opcodeTable.filter (fun r => r.covers b)).foldl
    (fun best r => match best with
      | none => some r
      | some q => if q.priority < r.priority then some r else some q) none

/-- An instruction's mnemonic as the table has it. -/
def Instr.mnemonic : Instr → String
  | .identify => "IDENTIFY"
  | .loadAddr => "LOADADDR"
  | .writePage => "WRITEPAGE"
  | .reset => "RESET"
  | .unknown _ => "UNKNOWN"

/-- Byte `k` of a number whose bit 0 is the least significant bit of the first byte. -/
def byteOf (w k : Nat) : Byte := BitVec.ofNat 8 (w / 256 ^ k)

/-- The bytes of a table word: `nbits / 8` bytes of `w` (at least the opcode's), the first at the lowest position. -/
def wordBytes (nbits w : Nat) : List Byte := (List.range (max 1 (nbits / 8))).map (byteOf w)

/-- The instruction the decoder reads from a word numbered as opcode_table.json numbers it. An opcode is one byte, so the
bytes after it (zeros above `nbits`) are the command's body, which decoding an instruction does not look at (R80). -/
def decodeTableWord (nbits w : Nat) : Option Instr :=
  match decode (wordBytes nbits w) with
  | .ok (i, _) => some i
  | .error _ => none

end Sys2Proof
end

