-- ==== Sys2Proof/Machine/State.lean ====
section
/-! DEFINITION. The state of the block (10_state.md R20, with the locals of the operations in progress, the environment's
choices and the histories of R39), the reasons a step can stop, and the state after reset. -/

namespace Sys2Proof.Machine

/-- The blocking point inside S_W_PROG (10_state.md R24: "waiting, filling, committing, waiting, re-enabling"). -/
inductive ProgPhase where
  /-- The first FlashBusyWait of ProgramPage: the erase of step 1 (42 R153). -/
  | waitErase
  /-- The second FlashBusyWait: the commit (42 R153). -/
  | waitCommit
  deriving DecidableEq, Repr

/-- The position `seq` of the single control flow (10_state.md R24). -/
inductive Seq where
  /-- S_GUARD: ResetGuard is running. -/
  | guard
  /-- S_APP: control has been transferred to the application. -/
  | app
  /-- S_IDLE: blocked in RecvByte for an opcode. -/
  | idle
  /-- S_IDENT(k): blocked for signature byte `k`. -/
  | ident (k : Fin 3)
  /-- S_ADDR(k): blocked for address byte `k`. -/
  | addr (k : Fin 2)
  /-- S_W_CK(k): blocked for checksum byte `k`. -/
  | wCk (k : Fin 2)
  /-- S_W_DATA(i): blocked for payload byte `i`. -/
  | wData (i : Nat)
  /-- S_W_PROG: the checksum matched. -/
  | wProg (p : ProgPhase)
  /-- S_ACK: sending the acknowledgment byte. -/
  | ack
  /-- S_SPIN: the Reset command's busy loop. -/
  | spin
  deriving DecidableEq, Repr

/-- Where RecvByte stands (40 R107): local to RecvByte (10_state.md R27). -/
inductive RxPhase where
  /-- The outer wait: until the line shows START_LEVEL. -/
  | hunt
  /-- The outer wait's poll that sees the level, up to SLACK_MAX after the line first shows it (R103). -/
  | poll
  /-- Delay(H) before sample 0, the start re-check. -/
  | start
  /-- Delay(B) before data sample `i`. -/
  | data (i : Fin 8)
  /-- Delay(B) before sample 9, the stop bit. -/
  | stop
  deriving DecidableEq, Repr

/-- The flash programming engine FE (10_state.md R30, 42 R140). -/
inductive FlashEngine where
  /-- FE_IDLE. -/
  | idle
  /-- FE_ERASING(p). -/
  | erasing (page : Nat)
  /-- FE_WRITING(p) carrying the snapshot of FTB (42 R147), and whether page `p` was entirely ERASED_BYTE when the commit
  was issued (42 R148, R149). -/
  | writing (page : Nat) (snapshot : List Byte) (clean : Bool)
  deriving DecidableEq, Repr

/-- The transmit line as driven by the block: {0, 1, Z} (R17, R26). -/
inductive TxLevel where
  /-- Z: not driven. -/
  | z
  /-- Driven at a logic level. -/
  | drive (level : Bool)
  deriving DecidableEq, Repr

/-- The two legal watchdog timeouts (10_state.md R35). -/
inductive WdtPeriod where
  | short
  | medium
  deriving DecidableEq, Repr

/-- The four reset-cause flags RC (10_state.md R33); also a set of causes of one reset event. -/
structure ResetFlags where
  ext : Bool
  wdt : Bool
  por : Bool
  bor : Bool
  deriving DecidableEq, Repr

/-- The watchdog: WD_EN, WD_PERIOD, WD_CNT (10_state.md R35). `cnt` counts ticks (log 10). -/
structure Watchdog where
  en : Bool
  period : WdtPeriod
  cnt : Nat
  deriving DecidableEq, Repr

/-- A cause of reset that the environment brings about (60 R220). -/
inductive EnvCause where
  | ext
  | por
  | bor
  deriving DecidableEq, Repr

/-- One reset event of the environment: its instant, a cause, and the causes that occur together with it (60 R229). -/
structure EnvReset where
  time : Nat
  cause : EnvCause
  others : List EnvCause
  deriving DecidableEq, Repr

/-- Variables the spec calls local to an operation in progress (R26, R27, R195, R197) and the instant at which the Delay in
progress ends (R102, R103). -/
structure Locals where
  /-- Identify's `match` (R195, D35). -/
  idMatch : Bool
  /-- LoadAddress's `a_lo` (R197). -/
  aLo : Byte
  /-- RecvByte's position (R107). -/
  rx : RxPhase
  /-- SendByte's argument (R104). -/
  txByte : Byte
  /-- SendByte's bit period in progress, 0 to 9 (R76, R104). -/
  txBit : Nat
  /-- The tick at which the Delay in progress returns. -/
  due : Nat
  deriving DecidableEq, Repr

/-- The environment's choices that are still to come (10_state.md R38): parameters of the step relation, held as data. R17 and
R38 bound neither the edges of RXD nor the resets; that there are finitely many, after which the line is constant and no
reset comes from outside, is a DESIGN CHOICE (log 34). -/
structure Inputs where
  /-- The waveform on RXD: level changes in order of time; before the first the line idles at STOP_LEVEL. -/
  rxd : List (Nat × Bool)
  /-- Resets caused from outside, in the order in which they happen. -/
  resets : List EnvReset
  /-- Latencies of the next flash operations (R142). -/
  latencies : List Nat
  /-- Slacks of the next timed waits, each bounded by SLACK_MAX when used (R103). -/
  slacks : List Nat
  deriving DecidableEq, Repr

/-- Labels of the error taxonomy, for the model's trace only (R15, 60 R215). -/
inductive Label where
  | protocolError
  | signatureMismatch
  | checksumMismatch
  | transportGlitch
  | frameError
  deriving DecidableEq, Repr

/-- Histories since the last reset, which are not hardware state (10_state.md R39, R15). -/
structure History where
  /-- The bytes RecvByte has returned, in order. -/
  got : List Byte
  /-- OUT: the bytes SendByte has transmitted, in order. -/
  out : List Byte
  /-- The error labels raised or discarded, in order. -/
  trace : List Label
  deriving DecidableEq, Repr

/-- The complete state of the block. -/
structure State where
  /-- The configuration: no step writes it (R38; log 1). -/
  cfg : Cfg
  /-- AddressRegister (R21); meaningless while `arWritten` is false. -/
  ar : Half
  /-- Whether AR has been written since the last reset (R44, R197). -/
  arWritten : Bool
  /-- PageBuffer, PAGE_SIZE bytes (R22). -/
  pb : List Byte
  /-- CK_RX, the checksum the host sent (R23). -/
  ckRx : Half
  /-- ACC, the checksum accumulator (R23). -/
  acc : Acc
  /-- The opcode of the command in hand (R25). -/
  op : Byte
  /-- The command's result boolean (R25). -/
  ok : Bool
  /-- The position of the control flow (R24). -/
  seq : Seq
  /-- The receive shift register (R27). -/
  rxsr : Byte
  /-- The transmit line (R26). -/
  txd : TxLevel
  /-- The bit timer's counter (R28). -/
  tcnt : Nat
  /-- Flash memory: the bytes written since the device was made, addresses rising (R29; log 5). -/
  flash : List Host.Cell
  /-- The flash temporary buffer, PAGE_SIZE bytes (R31). -/
  ftb : List Byte
  /-- The flash engine (R30). -/
  fe : FlashEngine
  /-- The instant at which the flash operation in flight completes (R142). -/
  feDue : Nat
  /-- READ_EN (R32). -/
  readEn : Bool
  /-- The reset-cause flags (R33). -/
  rc : ResetFlags
  /-- The watchdog (R35). -/
  wd : Watchdog
  /-- Locals of the operations in progress. -/
  loc : Locals
  /-- The current tick (R17). -/
  now : Nat
  /-- The environment's choices to come. -/
  inp : Inputs
  /-- The model's own counter of free values drawn (log 4). -/
  draws : Nat
  /-- Histories since the last reset. -/
  hist : History
  deriving DecidableEq, Repr

/-- Why the machine stops with a fault: the one fault of 92_eei_decisions.md (60 R219). A block in which no agent has an event
to come is no fault; its step changes nothing (log 35). -/
inductive Fault where
  /-- FlashErase, FlashFill, FlashCommit or FlashReenableReads issued while FE is not FE_IDLE (42 R144, D14); raised by
  WRITEPAGE. Safe: the hardware does something the source does not give. -/
  | flashIssueWhileBusy
  deriving DecidableEq, Repr

/-- Why the model gives a situation no meaning. -/
inductive Refusal where
  /-- An instruction of the table without a meaning yet; raised by exec's arm. Safe. -/
  | notModelled (mnemonic : String)
  /-- The configuration breaks a constraint of R8 (R9); raised by the step and by the steps without a clock. Safe. -/
  | invalidConfiguration
  /-- WRITEPAGE with AR unwritten (20 R53, D8). Safe. -/
  | addressUnwritten
  /-- WRITEPAGE with AR not a multiple of PAGE_SIZE (20 R53, D10). Safe. -/
  | addressMisaligned
  /-- WRITEPAGE with AR + PAGE_SIZE above APP_LIMIT (20 R53, D11). Safe. -/
  | addressOutsideRegion
  /-- Checksum of an odd-length buffer (41 R134, D31); not reached with a valid Cfg. Safe. -/
  | checksumOddLength
  /-- Checksum of more than 131072 bytes (41 R130, D30); not reached with a valid Cfg. Safe. -/
  | checksumTooLong
  /-- FlashFill at an odd offset or outside the page (42 R146); not reached with a valid Cfg. Safe. -/
  | fillOffset
  /-- exec asked for an action of a command at a position that is not that command's (log 23); the step never asks it. Safe. -/
  | notThisCommandsPosition
  deriving DecidableEq, Repr

/-- What a meaning, an operation that can stop, or a step answers. -/
abbrev Result := Host.Outcome State Fault Refusal

/-- The state after a power-on reset of a new device, before ResetGuard's first step (10_state.md R44, first column). The
configuration is the spec's CFG8 (log 2); what R44 leaves unspecified has the values of log 3. The environment's
choices to come, which R38 leaves open, are empty lists here, a DESIGN CHOICE (log 36): a line that stays silent and no reset
from outside. -/
def State.reset : State where
  cfg := Cfg.cfg8
  ar := 0
  arWritten := false
  pb := List.replicate 8 0
  ckRx := 0
  acc := 0
  op := 0
  ok := false
  seq := .guard
  rxsr := 0
  txd := .z
  tcnt := 0
  flash := []
  ftb := List.replicate 8 0
  fe := .idle
  feDue := 0
  readEn := true
  rc := { ext := false, wdt := false, por := true, bor := false }
  wd := { en := false, period := .short, cnt := 0 }
  loc := { idMatch := false, aLo := 0, rx := .hunt, txByte := 0, txBit := 0, due := 0 }
  now := 0
  inp := { rxd := [], resets := [], latencies := [], slacks := [] }
  draws := 0
  hist := { got := [], out := [], trace := [] }

end Sys2Proof.Machine
end

