-- ==== Sys2Proof/Machine/Operands.lean ====
section
/-! DEFINITION. Operand forms and bit orders: words of a buffer, the bits of a frame, the receive shift, the lines as
functions of time, page arithmetic. -/

namespace Sys2Proof.Machine

/-- The little-endian 16-bit words of a buffer, in ascending order: word `j` is `{B[2j+1], B[2j]}` (20_memory.md R55). A last
byte without a partner makes no word (the operations that need an even length refuse an odd one). -/
def wordsOf : List Byte → List Half
  | lo :: hi :: rest => le16 lo hi :: wordsOf rest
  | _ => []

/-- The receive shift `{RXD, RXSR[7:1]}`: one place right, the new bit on top (40 R108). -/
def shiftIn (bit : Bool) (r : Byte) : Byte := BitVec.cons bit (r.extractLsb' 1 7)

/-- The level of bit period `k` of a frame for byte `b`: start bit, data bits least significant first, stop bit
(30_encoding.md R76). -/
def frameLevel (c : Cfg) (b : Byte) (k : Nat) : Bool :=
  if k = 0 then c.startLevel else if k ≤ 8 then b.getLsbD (k - 1) else c.stopLevel

/-- The level changes of a frame for byte `b` whose start bit begins at tick `ts`, with bit period `p` (30_encoding.md R76). -/
def frameEdges (c : Cfg) (ts p : Nat) (b : Byte) : List (Nat × Bool) :=
  (List.range 10).map (fun k => (ts + k * p, frameLevel c b k))

/-- Frames sent back to back from tick `ts` with the block's own bit period (30_encoding.md R77). -/
def framesFrom (c : Cfg) (ts : Nat) : List Byte → List (Nat × Bool)
  | [] => []
  | b :: rest => frameEdges c ts c.bitTicks b ++ framesFrom c (ts + 10 * c.bitTicks) rest

/-- The level of a line at tick `t`: that of the last change at or before `t`, `cur` before the first (00_scope.md R17). -/
def levelAt (cur : Bool) : List (Nat × Bool) → Nat → Bool
  | [], _ => cur
  | (u, l) :: rest, t => if u ≤ t then levelAt l rest t else cur

/-- The first tick from `t` on at which a line shows the level `want`, if there is one. -/
def firstAt (want cur : Bool) : List (Nat × Bool) → Nat → Option Nat
  | [], t => if cur = want then some t else none
  | (u, l) :: rest, t =>
    if u ≤ t then firstAt want l rest t
    else if cur = want then some t else firstAt want l rest u

/-- RXD(t): the receive line, idle at STOP_LEVEL where the environment drives nothing (30_encoding.md R77; log 14). -/
def State.rxdAt (s : State) (t : Nat) : Bool := levelAt s.cfg.stopLevel s.inp.rxd t

/-- The page an address lies in, `a div PAGE_SIZE` (42 R141). -/
def State.pageOf (s : State) (a : Half) : Nat := a.toNat / s.cfg.pageSize

/-- The first byte address of a page (10_state.md R29). -/
def State.pageBase (s : State) (page : Nat) : Nat := page * s.cfg.pageSize

/-- The duration of a watchdog timeout in ticks (00_scope.md R17, R8; log 10). -/
def wdtTicks (c : Cfg) : WdtPeriod → Nat
  | .short => c.wdtShort * c.wdtTickRatio
  | .medium => c.wdtMedium * c.wdtTickRatio

/-- The flag set of one cause of the environment (60 R221(a)). -/
def EnvCause.flags : EnvCause → ResetFlags
  | .ext => { ext := true, wdt := false, por := false, bor := false }
  | .por => { ext := false, wdt := false, por := true, bor := false }
  | .bor => { ext := false, wdt := false, por := false, bor := true }

/-- Both sets of flags together. -/
def ResetFlags.union (a b : ResetFlags) : ResetFlags :=
  { ext := a.ext || b.ext, wdt := a.wdt || b.wdt, por := a.por || b.por, bor := a.bor || b.bor }

/-- No flag. -/
def ResetFlags.none : ResetFlags := { ext := false, wdt := false, por := false, bor := false }

/-- The watchdog's cause alone (43 R170). -/
def ResetFlags.watchdog : ResetFlags := { ext := false, wdt := true, por := false, bor := false }

/-- All causes of one reset event of the environment (60 R229). -/
def EnvReset.flags (e : EnvReset) : ResetFlags :=
  e.others.foldl (fun acc c => acc.union c.flags) e.cause.flags

end Sys2Proof.Machine
end

