-- ==== Sys2Proof/Machine/Flags.lean ====
section
/-! DEFINITION. The one-bit conditions of 10_state.md R36 and what computes them. The block has no arithmetic condition
codes; the stored flags (`rc`, `ok`, `readEn`, `wd.en`) are fields of State. -/

namespace Sys2Proof.Machine

/-- Flash busy: `FE != FE_IDLE` (R30). -/
def FlashEngine.busy : FlashEngine → Bool
  | .idle => false
  | .erasing _ => true
  | .writing _ _ _ => true

/-- ResetReason: RC.EXT as ResetGuard reads it (10_state.md R34, 43 R174). -/
def State.resetReason (s : State) : Bool := s.rc.ext

/-- Sample 0 shows a glitch: the start level is no longer there (40 R107, R109). -/
def State.glitchNow (s : State) : Bool := s.rxdAt s.now != s.cfg.startLevel

/-- Sample 9 shows a frame error: the stop level is not there (40 R107, R109). -/
def State.frameErrorNow (s : State) : Bool := s.rxdAt s.now != s.cfg.stopLevel

/-- Checksum match: exact equality of the 16 result bits with CK_RX (41 R135). -/
def State.checksumMatches (s : State) (folded : Acc) : Bool := folded.extractLsb' 0 16 == s.ckRx

/-- The sequencer is inside RecvByte: in S_IDLE or between the body bytes of a command (70 R265). -/
def Seq.listening : Seq → Bool
  | .idle => true
  | .ident _ => true
  | .addr _ => true
  | .wCk _ => true
  | .wData _ => true
  | _ => false

/-- The acknowledgment byte: 'Y' for success, 'N' for failure (30_encoding.md R85, R81). -/
def ackByte (ok : Bool) : Byte := if ok then 0x59 else 0x4E

/-- Why WRITEPAGE is refused at admission, if it is (20_memory.md R53): AR unwritten, misaligned, or outside the region. -/
def State.admission (s : State) : Option Refusal :=
  if s.arWritten = false then some .addressUnwritten
  else if s.ar.toNat % s.cfg.pageSize ≠ 0 then some .addressMisaligned
  else if s.cfg.appLimit < s.ar.toNat + s.cfg.pageSize then some .addressOutsideRegion
  else none

end Sys2Proof.Machine
end

