-- ==== Sys2Proof/Machine/Ops.lean ====
section
/-! DEFINITION. The named operations over memory, registers and time, and the hardware reset: the one event that takes
control away from the sequencer (60_exceptions.md R221). -/

namespace Sys2Proof.Machine

/-! Flash memory: a list of written bytes, addresses rising. An unlisted address has no value (log 5). -/

/-- The byte of flash at an address, if anything has written it. -/
def flashGet : List Host.Cell → Nat → Option Byte
  | [], _ => none
  | (k, b) :: rest, a => if k = a then some b else flashGet rest a

/-- Flash with one byte replaced. -/
def flashSet : List Host.Cell → Nat → Byte → List Host.Cell
  | [], a, v => [(a, v)]
  | (k, b) :: rest, a, v =>
    if k < a then (k, b) :: flashSet rest a v
    else if k = a then (a, v) :: rest
    else (a, v) :: (k, b) :: rest

/-- Flash with the bytes from an address on replaced, ascending. -/
def flashWrite : List Host.Cell → Nat → List Byte → List Host.Cell
  | m, _, [] => m
  | m, a, v :: rest => flashWrite (flashSet m a v) (a + 1) rest

/-- The canonical form: addresses strictly rising. No entry can equal what an unlisted address reads as, since that is no
value. -/
abbrev Memory.wf (m : List Host.Cell) : Prop := m.Pairwise (fun x y => x.1 < y.1)

/-- `n` free bytes of one draw. -/
def freeBytes (draw n : Nat) : List Byte := (List.range n).map (Config.freeByte draw)

/-- Whether page `page` is entirely ERASED_BYTE (42 R148). -/
def State.pageErased (s : State) (page : Nat) : Bool :=
  (List.range s.cfg.pageSize).all (fun i => flashGet s.flash (s.pageBase page + i) == some s.cfg.erasedByte)

/-- One byte of a flash read: the stored byte while READ_EN and FE_IDLE, a free value otherwise, and a free value where
nothing has been written (42 R152, D17; log 5, 26). A read draws nothing: while reads are disabled, reads of one address
agree as long as the counter stands still, a DESIGN CHOICE (log 26). -/
def State.flashLoad (s : State) (a : Nat) : Byte :=
  if s.readEn && !s.fe.busy then (flashGet s.flash a).getD (Config.powerOnByte a) else Config.unreadableByte s.draws a

/-- `MemRead(addr, n)`: the n-byte little-endian value of FLASH[addr ..] (00_scope.md R14). No operation of the bootloader
performs it (R6). -/
def State.memRead (s : State) (a : Nat) : Nat → Nat
  | 0 => 0
  | n + 1 => (s.flashLoad a).toNat + 256 * s.memRead (a + 1) n

/-! Time. -/

/-- Time passes up to tick `t`: the bit timer counts and wraps (10_state.md R28), the watchdog's count grows while it is
armed (43 R169). -/
def advanceTo (t : Nat) (s : State) : State :=
  { s with
    now := t
    tcnt := (s.tcnt + (t - s.now)) % 2 ^ s.cfg.timerWidth
    wd := { s.wd with cnt := if s.wd.en then s.wd.cnt + (t - s.now) else s.wd.cnt } }

/-- The slack of the next timed wait, at most SLACK_MAX: the environment's, or a free value (40 R103; log 9). -/
def State.nextSlack (s : State) : Nat :=
  if s.cfg.slackMax = 0 then 0
  else match s.inp.slacks with
    | d :: _ => min d s.cfg.slackMax
    | [] => Config.slackDraw s.draws % (s.cfg.slackMax + 1)

/-- That slack is used up. -/
def dropSlack (s : State) : State :=
  { s with inp := { s.inp with slacks := s.inp.slacks.drop 1 }, draws := s.draws + 1 }

/-- `Delay(n)` begins: TCNT is reset and polled to the threshold, so the wait lasts `n` ticks and a slack (40 R102, R103). -/
def delay (n : Nat) (s : State) : State :=
  dropSlack { s with tcnt := 0, loc := { s.loc with due := s.now + n + s.nextSlack } }

/-- The latency of the next flash operation: the environment's, or a free value (42 R142; log 9). -/
def State.nextLatency (s : State) : Nat :=
  match s.inp.latencies with
  | l :: _ => l
  | [] => Config.flashLatency s.draws

/-- That latency is used up. -/
def dropLatency (s : State) : State :=
  { s with inp := { s.inp with latencies := s.inp.latencies.drop 1 }, draws := s.draws + 1 }

/-- An operation after another, if the first answers a state. -/
def andThen (r : Result) (f : State → Result) : Result :=
  match r with
  | .next s => f s
  | .fault e => .fault e
  | .refused e => .refused e

/-- An error label goes into the model's trace (00_scope.md R15). -/
def note (l : Label) (s : State) : State := { s with hist := { s.hist with trace := s.hist.trace ++ [l] } }

/-! The hardware reset. -/

/-- The flags after a reset with the given causes: a power-on reset clears the others first, then every cause present sets
its flag (60 R221(a), R229). -/
def ResetFlags.latch (rc causes : ResetFlags) : ResetFlags :=
  (if causes.por then ResetFlags.none else rc).union causes

/-- Flash after a reset: the page of an operation in flight is unspecified, every other byte is kept (42 R151). -/
def State.flashAfterReset (s : State) : List Host.Cell :=
  match s.fe with
  | .idle => s.flash
  | .erasing p => flashWrite s.flash (s.pageBase p) (freeBytes s.draws s.cfg.pageSize)
  | .writing p _ _ => flashWrite s.flash (s.pageBase p) (freeBytes s.draws s.cfg.pageSize)

/-- `HardwareReset(causes)` (60 R221, R229; 10_state.md R44): one atomic event, in any state. What R44 leaves unspecified is
a free value; FLASH and RC are all that crosses it (R45). The current tick and the environment's choices to come are not
the block's. -/
def hardwareReset (causes : ResetFlags) (s : State) : State where
  cfg := s.cfg
  ar := Config.freeHalf s.draws 0
  arWritten := false
  pb := freeBytes (s.draws + 1) s.cfg.pageSize
  ckRx := Config.freeHalf s.draws 1
  acc := Config.freeAcc s.draws 0
  op := Config.freeByte (s.draws + 3) 0
  ok := Config.freeBit s.draws 0
  seq := .guard
  rxsr := Config.freeByte (s.draws + 3) 1
  txd := .z
  tcnt := Config.freeCount s.draws 0 % 2 ^ s.cfg.timerWidth
  flash := s.flashAfterReset
  ftb := freeBytes (s.draws + 2) s.cfg.pageSize
  fe := .idle
  feDue := s.now
  readEn := true
  rc := s.rc.latch causes
  wd := { en := Config.freeBit s.draws 1, period := if Config.freeBit s.draws 2 then .short else .medium, cnt := 0 }
  loc := { idMatch := Config.freeBit s.draws 3, aLo := Config.freeByte (s.draws + 3) 2, rx := .hunt,
           txByte := Config.freeByte (s.draws + 3) 3, txBit := 0, due := s.now }
  now := s.now
  inp := s.inp
  draws := s.draws + 4
  hist := { got := [], out := [], trace := [] }

end Sys2Proof.Machine
end

