-- ==== Sys2Proof/Machine/Transceiver.lean ====
section
/-! DEFINITION. The software bit-bang serial transceiver (40_serial_transceiver.md): TransportInit, SendByte and RecvByte,
the two calls cut at their waits. Delay is in Ops.lean. -/

namespace Sys2Proof.Machine

/-- `TransportInit()`: start driving the transmit line at the idle level (R101). -/
def transportInit (s : State) : State := { s with txd := .drive s.cfg.stopLevel }

/-- `SendByte(b)` begins: the start bit is driven and its bit period runs (R104). -/
def sendByte (b : Byte) (s : State) : State :=
  delay s.cfg.bitTicks
    { s with txd := .drive s.cfg.startLevel, loc := { s.loc with txByte := b, txBit := 0 } }

/-- SendByte goes on to bit period `k` of its frame (R104, R76). -/
def sendPeriod (k : Nat) (s : State) : State :=
  delay s.cfg.bitTicks
    { s with txd := .drive (frameLevel s.cfg s.loc.txByte k), loc := { s.loc with txBit := k } }

/-- SendByte returns: the byte is part of OUT (R117, 10_state.md R39). -/
def sendDone (s : State) : State := { s with hist := { s.hist with out := s.hist.out ++ [s.loc.txByte] } }

/-- RecvByte is entered, or resumes its outer wait (R107, R109). -/
def recvByte (s : State) : State := { s with loc := { s.loc with rx := .hunt } }

/-- The outer wait: the line shows the start level, and the poll sees it up to SLACK_MAX later (R103, R110). -/
def recvSeen (s : State) : State :=
  dropSlack { s with loc := { s.loc with rx := .poll, due := s.now + s.nextSlack } }

/-- The outer wait's poll: at START_LEVEL the half bit period begins, otherwise the wait goes on (R107; log 16). -/
def recvPoll (s : State) : State :=
  if s.rxdAt s.now = s.cfg.startLevel then delay s.cfg.halfBitTicks { s with loc := { s.loc with rx := .start } }
  else recvByte s

/-- Sample 0: a glitch is discarded and the outer wait resumes; otherwise RXSR is cleared and the data bits begin
(R107, R109). -/
def recvStart (s : State) : State :=
  if s.glitchNow then recvByte (note .transportGlitch s)
  else delay s.cfg.bitTicks { s with rxsr := 0, loc := { s.loc with rx := .data 0 } }

/-- Data sample `i`: shift right, new bit on top (R107, R108). -/
def recvData (i : Fin 8) (s : State) : State :=
  delay s.cfg.bitTicks
    { s with rxsr := shiftIn (s.rxdAt s.now) s.rxsr, loc := { s.loc with rx := if h : i.val < 7 then .data ⟨i.val + 1, by omega⟩ else .stop } }

/-- Sample 9 fails: the byte is dropped and the outer wait resumes at once (R109). -/
def recvFrameError (s : State) : State := recvByte (note .frameError s)

/-- Sample 9 succeeds: RecvByte returns RXSR (R107). -/
def recvDone (s : State) : State := { s with hist := { s.hist with got := s.hist.got ++ [s.rxsr] } }

/-- The tick at which RecvByte's next sample or poll falls, if there is one: the outer wait may be for ever (R107, R114). -/
def State.recvDue (s : State) : Option Nat :=
  match s.loc.rx with
  | .hunt => firstAt s.cfg.startLevel s.cfg.stopLevel s.inp.rxd s.now
  | _ => some (max s.loc.due s.now)

end Sys2Proof.Machine
end

