-- ==== Sys2Proof/Machine/Watchdog.lean ====
section
/-! DEFINITION. The watchdog supervisor and the reset-cause operations (43_reset_guard_watchdog.md). -/

namespace Sys2Proof.Machine

/-- `WdtArm(p)`: arming restarts the count (R166). -/
def wdtArm (p : WdtPeriod) (s : State) : State := { s with wd := { en := true, period := p, cnt := 0 } }

/-- `WdtRefresh()` (R167). -/
def wdtRefresh (s : State) : State := { s with wd := { s.wd with cnt := 0 } }

/-- `WdtDisable()` (R168). -/
def wdtDisable (s : State) : State := { s with wd := { s.wd with en := false } }

/-- The tick at which the watchdog expires, if it is armed (R170). No expiry falls between a reset and ResetGuard's WdtArm
or WdtDisable (60 R231, D22; log 10). -/
def State.wdtDue (s : State) : Option Nat :=
  if s.seq = .guard then none
  else if s.wd.en then some (s.now + (wdtTicks s.cfg s.wd.period - s.wd.cnt)) else none

/-- `RcRead()`: the four flags, without a side effect (R175). -/
def rcRead (s : State) : ResetFlags := s.rc

/-- `RcClearExt()`: only RC.EXT (R176). -/
def rcClearExt (s : State) : State := { s with rc := { s.rc with ext := false } }

/-- `RcClearWdt()`: only RC.WDT (R177). -/
def rcClearWdt (s : State) : State := { s with rc := { s.rc with wdt := false } }

end Sys2Proof.Machine
end

