-- ==== Sys2Proof/Machine/Loop.lean ====
section
/-! DEFINITION. The parts of the command loop that the commands share (44_command_dispatcher.md R190 to R193). -/

namespace Sys2Proof.Machine

/-- The sequencer moves to a position where it is blocked in RecvByte. -/
def listenAt (p : Seq) (s : State) : State := recvByte { s with seq := p }

/-- A handler has set `ok`: the acknowledgment byte is sent (R192). -/
def acknowledge (result : Bool) (s : State) : State :=
  sendByte (ackByte result) { s with ok := result, seq := .ack }

/-- After the acknowledgment frame: refresh, then back to S_IDLE (R193). -/
def finishCycle (s : State) : State := listenAt .idle (wdtRefresh s)

/-- `raise E`: the label goes into the trace; `ok` becomes false with the acknowledgment (00_scope.md R15, 60 R217). -/
def failWith (l : Label) (s : State) : State := acknowledge false (note l s)

end Sys2Proof.Machine
end

