-- ==== Sys2Proof/Machine/Identify.lean ====
section
/-! DEFINITION. The command IDENTIFY (44_command_dispatcher.md R195). -/

namespace Sys2Proof.Machine

/-- Signature byte `k` has arrived in RXSR: compare it, and after the third report whether all matched. All three are
consumed whatever they are (R195, D35). -/
def identifyByte (k : Fin 3) (s : State) : State :=
  let matched := s.loc.idMatch && s.rxsr == s.cfg.sigByte k
  if h : k.val < 2 then listenAt (.ident ⟨k.val + 1, by omega⟩) { s with loc := { s.loc with idMatch := matched } }
  else if matched then acknowledge true { s with loc := { s.loc with idMatch := matched } }
  else failWith .signatureMismatch { s with loc := { s.loc with idMatch := matched } }

/-- IDENTIFY: dispatch, three body bytes, acknowledgment. -/
def execIdentify (s : State) : Result :=
  match s.seq with
  | .idle => .next (listenAt (.ident 0) { s with loc := { s.loc with idMatch := true } })
  | .ident k => .next (identifyByte k s)
  | .ack => .next (finishCycle s)
  | _ => .refused .notThisCommandsPosition

end Sys2Proof.Machine
end

