-- ==== Sys2Proof/Machine/LoadAddr.lean ====
section
/-! DEFINITION. The command LOADADDR (44_command_dispatcher.md R197, R198). -/

namespace Sys2Proof.Machine

/-- The second address byte has arrived: AR is written whole, low byte first on the wire, and success is reported
(R197, R198). -/
def loadAddrDone (s : State) : State :=
  acknowledge true { s with ar := le16 s.loc.aLo s.rxsr, arWritten := true }

/-- LOADADDR: dispatch, two body bytes, acknowledgment. Any 16-bit value is accepted (20_memory.md R59(d)). -/
def execLoadAddr (s : State) : Result :=
  match s.seq with
  | .idle => .next (listenAt (.addr 0) s)
  | .addr 0 => .next (listenAt (.addr 1) { s with loc := { s.loc with aLo := s.rxsr } })
  | .addr 1 => .next (loadAddrDone s)
  | .ack => .next (finishCycle s)
  | _ => .refused .notThisCommandsPosition

end Sys2Proof.Machine
end

