-- ==== Sys2Proof/Machine/ResetCommand.lean ====
section
/-! DEFINITION. The command RESET (44_command_dispatcher.md R207). -/

namespace Sys2Proof.Machine

/-- RESET: arm the short watchdog timeout and spin; no byte is read or sent, and only a hardware reset ends it. -/
def execReset (s : State) : Result :=
  match s.seq with
  | .idle => .next { wdtArm .short s with seq := .spin }
  | _ => .refused .notThisCommandsPosition

end Sys2Proof.Machine
end

