-- ==== Sys2Proof/Machine/Unknown.lean ====
section
/-! DEFINITION. Every other opcode byte: UNKNOWN (44_command_dispatcher.md R209). -/

namespace Sys2Proof.Machine

/-- UNKNOWN: no body byte, ProtocolError, reply 'N'. The opcode's value makes no difference (30_encoding.md R86). -/
def execUnknown (_opcode : Byte) (s : State) : Result :=
  match s.seq with
  | .idle => .next (failWith .protocolError s)
  | .ack => .next (finishCycle s)
  | _ => .refused .notThisCommandsPosition

end Sys2Proof.Machine
end

