-- ==== Sys2Proof/Machine/Checksum.lean ====
section
/-! DEFINITION. The 16-bit end-around-carry checksum accumulator (41_checksum.md). -/

namespace Sys2Proof.Machine

/-- One accumulation step: a word, zero-extended, added modulo 2^32 (R126, R127). -/
def accumulate (acc : Acc) (w : Half) : Acc := acc + w.zeroExtend 32

/-- One fold: the low half plus the high half (R126, R128). -/
def foldOnce (acc : Acc) : Acc := (acc.extractLsb' 0 16).zeroExtend 32 + (acc.extractLsb' 16 16).zeroExtend 32

/-- Folding while a bit above bit 15 is set, at most `fuel` times (R126). -/
def foldCarry : Nat → Acc → Acc
  | 0, acc => acc
  | fuel + 1, acc => if acc.extractLsb' 16 16 = 0 then acc else foldCarry fuel (foldOnce acc)

/-- `Checksum(Buf)`: ACC after the clear, accumulate and fold phases, its low 16 bits the result (R126, R137). Two folds
are enough for any accumulator (R128). Odd lengths and more than 131072 bytes are refused (R134, R130); the spec does not
rank the two, and that a buffer which is both is refused as odd is a DESIGN CHOICE (log 32). -/
def checksum (buf : List Byte) : Host.Outcome Acc Fault Refusal :=
  if buf.length % 2 ≠ 0 then .refused .checksumOddLength
  else if 131072 < buf.length then .refused .checksumTooLong
  else .next (foldCarry 2 ((wordsOf buf).foldl accumulate 0))

/-- The pseudo-command `WRITE d0 ...` of the script notation: WRITEPAGE with the payload's own checksum (30_encoding.md R89). -/
def scriptWrite (d : List Byte) : Option (List Byte) :=
  match checksum d with
  | .next a => some (scriptWritePage (a.extractLsb' 0 16) d)
  | _ => none

end Sys2Proof.Machine
end

