-- ==== Sys2Proof/Machine/Flash.lean ====
section
/-! DEFINITION. The flash page programmer and its engine (42_flash_programmer.md). -/

namespace Sys2Proof.Machine

/-- `FlashErase(a)`: issue the erase of the page of `a` and return (R141); a fault while the engine is busy (R144). R141 defines
the operation only for a page-aligned `a` inside the application region; that any other `a` selects the page it lies in is
a DESIGN CHOICE (log 33), which WRITEPAGE never meets. -/
def flashErase (a : Half) (s : State) : Result :=
  if s.fe.busy then .fault .flashIssueWhileBusy
  else .next (dropLatency { s with fe := .erasing (s.pageOf a), feDue := s.now + s.nextLatency, readEn := false })

/-- `FlashFill(o, w)`: two bytes of FTB, low byte at the even offset (R146, 20_memory.md R57). A bad offset is refused (R146)
and an issue while busy faults (R144); the spec does not rank the two, and that the refusal comes first where both hold is
a DESIGN CHOICE (log 31). -/
def flashFill (o : Nat) (w : Half) (s : State) : Result :=
  if o % 2 ≠ 0 ∨ s.cfg.pageSize < o + 2 then .refused .fillOffset
  else if s.fe.busy then .fault .flashIssueWhileBusy
  else .next { s with ftb := (s.ftb.set o (lowByte w)).set (o + 1) (highByte w) }

/-- `FlashCommit(a)`: issue the programming of the page of `a` from FTB as it stands, and return (R147). An `a` that is not
page-aligned or lies outside the application region is treated as in flashErase, a DESIGN CHOICE (log 33). -/
def flashCommit (a : Half) (s : State) : Result :=
  if s.fe.busy then .fault .flashIssueWhileBusy
  else .next (dropLatency { s with
    fe := .writing (s.pageOf a) s.ftb (s.pageErased (s.pageOf a)), feDue := s.now + s.nextLatency, readEn := false })

/-- `FlashReenableReads()` (R150). -/
def flashReenableReads (s : State) : Result :=
  if s.fe.busy then .fault .flashIssueWhileBusy else .next { s with readEn := true }

/-- The fill loop of ProgramPage: words at ascending even offsets from `o` (R153). -/
def fillWords : Nat → List Half → State → Result
  | _, [], s => .next s
  | o, w :: rest, s => andThen (flashFill o w s) (fillWords (o + 2) rest)

/-- ProgramPage between its two waits: fill, then commit (R153). -/
def fillAndCommit (a : Half) (buf : List Byte) (s : State) : Result :=
  andThen (fillWords 0 (wordsOf buf) s) (flashCommit a)

/-- Engine completion (R142): an erase leaves the page all ERASED_BYTE (R143); a commit leaves it equal to the snapshot if
it was erased (R148) and unspecified otherwise (R149). FTB is unspecified afterwards (10_state.md R31; log 12). -/
def engineComplete (s : State) : State :=
  match s.fe with
  | .idle => s
  | .erasing p =>
    { s with
      flash := flashWrite s.flash (s.pageBase p) (List.replicate s.cfg.pageSize s.cfg.erasedByte)
      ftb := freeBytes s.draws s.cfg.pageSize
      fe := .idle
      draws := s.draws + 2 }
  | .writing p snapshot clean =>
    { s with
      flash := flashWrite s.flash (s.pageBase p) (if clean then snapshot else freeBytes (s.draws + 1) s.cfg.pageSize)
      ftb := freeBytes s.draws s.cfg.pageSize
      fe := .idle
      draws := s.draws + 2 }

end Sys2Proof.Machine
end

