-- ==== Sys2Proof/Machine/WritePage.lean ====
section
/-! DEFINITION. The command WRITEPAGE (44_command_dispatcher.md R199 to R206): erase first, read the checksum and the page,
validate, and on a match program the page and advance AR. -/

namespace Sys2Proof.Machine

/-- Dispatch: the admission of 20_memory.md R53, then step 1, the unconditional erase (R200). -/
def writePageStart (s : State) : Result :=
  match s.admission with
  | some r => .refused r
  | none => andThen (flashErase s.ar s) (fun t => .next (listenAt (.wCk 0) t))

/-- A checksum byte has arrived: the low byte first (R201). -/
def writePageChecksum (k : Fin 2) (s : State) : State :=
  if k = 0 then listenAt (.wCk 1) { s with ckRx := le16 s.rxsr (highByte s.ckRx) }
  else listenAt (.wData 0) { s with ckRx := le16 (lowByte s.ckRx) s.rxsr }

/-- Step 3: recompute the checksum over the payload and compare (R202). On a match the sequencer goes on to program the
page (R203); on a mismatch it reports failure and does nothing else (R205). -/
def writePageValidate (s : State) : Result :=
  match checksum s.pb with
  | .next a =>
    if s.checksumMatches a then .next { s with acc := a, seq := .wProg .waitErase }
    else .next (failWith .checksumMismatch { s with acc := a })
  | .fault e => .fault e
  | .refused e => .refused e

/-- Payload byte `i` has arrived: it becomes PB[i]; after the last one the payload is validated (R201, R202). -/
def writePageData (i : Nat) (s : State) : Result :=
  if i + 1 < s.cfg.pageSize then .next (listenAt (.wData (i + 1)) { s with pb := s.pb.set i s.rxsr })
  else writePageValidate { s with pb := s.pb.set i s.rxsr }

/-- Steps after the second wait: re-enable reads, advance AR modulo 2^16, report success (R203, R204, 20_memory.md R60). -/
def writePageFinish (s : State) : Result :=
  andThen (flashReenableReads s)
    (fun t => .next (acknowledge true { t with ar := t.ar + BitVec.ofNat 16 t.cfg.pageSize }))

/-- Step 4 at its two waits: FlashBusyWait polls while the engine is busy (42 R145); then ProgramPage goes on (42 R153). -/
def writePageProgram (p : ProgPhase) (s : State) : Result :=
  if s.fe.busy then .next s
  else match p with
    | .waitErase => andThen (fillAndCommit s.ar s.pb s) (fun t => .next { t with seq := .wProg .waitCommit })
    | .waitCommit => writePageFinish s

/-- WRITEPAGE: dispatch and erase, two checksum bytes, PAGE_SIZE payload bytes, programming, acknowledgment. -/
def execWritePage (s : State) : Result :=
  match s.seq with
  | .idle => writePageStart s
  | .wCk k => .next (writePageChecksum k s)
  | .wData i => writePageData i s
  | .wProg p => writePageProgram p s
  | .ack => .next (finishCycle s)
  | _ => .refused .notThisCommandsPosition

end Sys2Proof.Machine
end

