-- ==== Sys2Proof/Machine/Dispatch.lean ====
section
/-! DEFINITION. One arm per command: exec carries out the next action of command `i` at the position where the sequencer
stands (44_command_dispatcher.md R191 to R209). -/

namespace Sys2Proof.Machine

def exec (i : Instr) (s : State) : Host.Outcome State Fault Refusal :=
  match i with
  | .identify => Sys2Proof.Machine.execIdentify s
  | .loadAddr => Sys2Proof.Machine.execLoadAddr s
  | .writePage => Sys2Proof.Machine.execWritePage s
  | .reset => Sys2Proof.Machine.execReset s
  | .unknown opcode => Sys2Proof.Machine.execUnknown opcode s

end Sys2Proof.Machine
end

