-- ==== Sys2Proof/Machine/ResetGuard.lean ====
section
/-! DEFINITION. What runs after a hardware reset: ResetGuard and the transfer to the application (70_reset_and_hazards.md
R250 to R253, 43_reset_guard_watchdog.md R180). -/

namespace Sys2Proof.Machine

/-- `JumpToApp()`: disable the watchdog, clear its flag, transfer control (43 R180). -/
def jumpToApp (s : State) : State := { rcClearWdt (wdtDisable s) with seq := .app }

/-- The address control has passed to, once it has (43 R179, R180). -/
def State.applicationEntry (s : State) : Option Nat := if s.seq = .app then some s.cfg.appEntry else none

/-- The application path (70 R251). -/
def applicationPath (s : State) : State := jumpToApp (rcClearWdt s)

/-- The bootloader path, up to the entry of the loop, where the block listens (70 R252, R253). -/
def bootloaderPath (s : State) : State :=
  recvByte { transportInit (wdtArm .medium (rcClearExt s)) with seq := .idle }

/-- `ResetGuard()`: RC.EXT alone decides (70 R250, 43 R174). -/
def resetGuard (s : State) : State := if (rcRead s).ext then bootloaderPath s else applicationPath s

end Sys2Proof.Machine
end

