-- ==== Sys2Proof/Machine/Fetch.lean ====
section
/-! DEFINITION. Whose turn it is, what the agents other than the running command do, and how an opcode reaches the
dispatcher (00_scope.md R11, R12, R16). Step.lean only calls it. -/

namespace Sys2Proof.Machine

/-- Who makes the next step (00_scope.md R11, R12). -/
inductive Agent where
  /-- A hardware reset happens: from outside, by the watchdog, or both. -/
  | reset
  /-- The flash engine completes. -/
  | engine
  /-- The sequencer goes on. -/
  | sequencer
  deriving DecidableEq, Repr

/-- What a step comes to: an ended step, or an action of the command in hand that exec carries out. -/
inductive Turn where
  /-- The step ends in this state. -/
  | done (s : State)
  /-- The next action of command `i` at this state. -/
  | command (i : Instr) (s : State)
  /-- The model gives no meaning. -/
  | refused (r : Refusal)
  deriving DecidableEq, Repr

/-- The instant of the environment's next reset. -/
def State.envDue (s : State) : Option Nat := s.inp.resets.head?.map (fun e => max e.time s.now)

/-- The instant at which the flash engine completes (42 R142). -/
def State.engineDue (s : State) : Option Nat := if s.fe.busy then some (max s.feDue s.now) else none

/-- The instant at which the sequencer goes on; none while it waits for something that only another agent brings about. -/
def State.seqDue (s : State) : Option Nat :=
  match s.seq with
  | .guard => some s.now
  | .ack => some (max s.loc.due s.now)
  | .wProg _ => if s.fe.busy then none else some s.now
  | .app => none
  | .spin => none
  | _ => s.recvDue

/-- The earlier of two instants, where there are any. -/
def earlier : Option Nat → Option Nat → Option Nat
  | none, b => b
  | a, none => a
  | some a, some b => some (min a b)

/-- There is an instant `a`, and `b`, if any, is not before it. -/
def noLater : Option Nat → Option Nat → Bool
  | none, _ => false
  | some _, none => true
  | some a, some b => decide (a ≤ b)

/-- The agent whose event is the earliest, and its instant. At one instant a hardware reset pre-empts the others (60 R229),
and the engine completes before the sequencer looks (log 8). -/
def State.nextAgent (s : State) : Option (Agent × Nat) :=
  let r := earlier s.envDue s.wdtDue
  if noLater r s.engineDue && noLater r s.seqDue then r.map (fun t => (.reset, t))
  else if noLater s.engineDue s.seqDue then s.engineDue.map (fun t => (.engine, t))
  else s.seqDue.map (fun t => (.sequencer, t))

/-- The causes of the environment's next reset. -/
def State.envCauses (s : State) : ResetFlags :=
  match s.inp.resets with
  | e :: _ => e.flags
  | [] => ResetFlags.none

/-- The causes of the reset at tick `t`: those of the environment's reset due then, and the watchdog's if it expires then
(60 R220, R229). -/
def State.causesAt (s : State) (t : Nat) : ResetFlags :=
  (if s.envDue = some t then s.envCauses else ResetFlags.none).union
    (if s.wdtDue = some t then ResetFlags.watchdog else ResetFlags.none)

/-- The hardware reset at tick `t` (60 R221). -/
def resetAt (t : Nat) (s : State) : State :=
  hardwareReset (s.causesAt t)
    (advanceTo t { s with inp := { s.inp with resets := if s.envDue = some t then s.inp.resets.drop 1 else s.inp.resets } })

/-- SendByte at the end of a bit period: the next period, or the return, after which the command goes on (40 R104). -/
def sendTurn (s : State) : Turn :=
  if s.loc.txBit < 9 then .done (sendPeriod (s.loc.txBit + 1) s)
  else .command (decodeOpcode s.op) (sendDone s)

/-- RecvByte has returned RXSR: in S_IDLE the byte is the opcode of the next command, elsewhere an operand of the one in
hand (44 R191; 60 R228). -/
def received (s : State) : Turn :=
  if s.seq = .idle then .command (decodeOpcode s.rxsr) { recvDone s with op := s.rxsr }
  else .command (decodeOpcode s.op) (recvDone s)

/-- RecvByte at its next poll or sample (40 R107). -/
def recvTurn (s : State) : Turn :=
  match s.loc.rx with
  | .hunt => .done (recvSeen s)
  | .poll => .done (recvPoll s)
  | .start => .done (recvStart s)
  | .data i => .done (recvData i s)
  | .stop => if s.frameErrorNow then .done (recvFrameError s) else received s

/-- The sequencer goes on, time having passed up to its instant. In S_APP and S_SPIN it has no step (93 U23, U24). -/
def seqTurn (s : State) : Turn :=
  match s.seq with
  | .guard => .done (resetGuard s)
  | .ack => sendTurn s
  | .wProg _ => .command (decodeOpcode s.op) s
  | .app => .done s
  | .spin => .done s
  | _ => recvTurn s

/-- One step of the whole block, up to the call of exec: the earliest event happens. An invalid configuration is refused
(00_scope.md R9). With no event to come nothing changes any more: in S_APP, the block's terminal position (93 U23), or on a
line that stays silent with nothing in flight, the watchdog disabled and no reset to come (93 U25; log 35). -/
def turn (s : State) : Turn :=
  if s.cfg.valid then
    match s.nextAgent with
    | some (.reset, t) => .done (resetAt t s)
    | some (.engine, t) => .done (engineComplete (advanceTo t s))
    | some (.sequencer, t) => seqTurn (advanceTo t s)
    | none => .done s
  else .refused .invalidConfiguration

/-- The state in which the loop is running: from S_GUARD or S_APP by the bootloader path of ResetGuard (70 R252), else as it
is (log 6). -/
def State.inLoop (s : State) : State :=
  match s.seq with
  | .guard => bootloaderPath s
  | .app => bootloaderPath s
  | _ => s

/-- The bytes of a table word of `nbits` bits, with zero bytes up to the end of its command's body (30_encoding.md R80). -/
def commandBytes (c : Cfg) (nbits w : Nat) : List Byte :=
  (List.range (max (nbits / 8) (1 + (decodeOpcode (byteOf w 0)).bodyLength c))).map (byteOf w)

/-- The state whose very next step receives the opcode `bytes[0]` and runs its command, the rest of `bytes` following on the
line as frames (log 6): RecvByte of S_IDLE stands at its stop sample with the opcode in RXSR, the line is at STOP_LEVEL
until half a bit period later, and no other agent has an event before the next tick. -/
def State.withCommandBytes (s : State) (bytes : List Byte) : State :=
  let t := s.inLoop
  { t with
    seq := .idle
    rxsr := bytes.headD 0
    loc := { t.loc with rx := .stop, due := t.now }
    feDue := if t.fe.busy then max t.feDue (t.now + 1) else t.feDue
    wd := { t.wd with cnt := 0 }
    inp := { t.inp with
      rxd := (0, t.cfg.stopLevel) :: framesFrom t.cfg (t.now + (t.cfg.bitTicks - t.cfg.halfBitTicks)) (bytes.drop 1)
      resets := t.inp.resets.filter (fun e => decide (t.now < e.time)) } }

end Sys2Proof.Machine
end

