-- ==== Sys2Proof/Machine/Step.lean ====
section
/-! DEFINITION. One step of the block, and the state whose next step runs a given instruction. -/

namespace Sys2Proof.Machine

/-- One step: the earliest event of the block, an action of the command in hand being exec's. -/
def step (s : State) : Host.Outcome State Fault Refusal :=
  match turn s with
  | .done t => .next t
  | .command i t => exec i t
  | .refused r => .refused r

/-- `s` with the opcode in `w` where the step fetches its next instruction, the rest of `w` and then zero bytes as the
command's body on the line. -/
def State.withFetchWord (s : State) (nbits w : Nat) : State :=
  s.withCommandBytes (commandBytes s.cfg nbits w)

end Sys2Proof.Machine
end

