-- ==== Sys2Proof/Machine/ByteLevel.lean ====
section
/-! DEFINITION. The block without a clock, over the same exec, engine and reset as step. First the agents' events, each
enabled or not and the reset possible whenever the watchdog is armed, with the runs of such events and their fairness
(43_reset_guard_watchdog.md R171, 42_flash_programmer.md R142). Then the byte-level contract (40_serial_transceiver.md R117,
10_state.md R39), in which the sequencer goes on to its next blocking point after every event (log 21). -/

namespace Sys2Proof.Machine

/-! One event of one agent. -/

/-- An event of the block without a clock (00_scope.md R11, R12). -/
inductive UntimedEvent where
  /-- RecvByte returns this byte, sent by the host as a well-formed frame, and the command acts on it (R117). -/
  | receive (b : Byte)
  /-- The sequencer goes on where it waits for no byte: ResetGuard, the end of the acknowledgment, the end of a flash wait. -/
  | sequencer
  /-- The flash engine completes (42 R142). -/
  | engine
  /-- A hardware reset with these causes, the watchdog's among them or not (60 R221, R229). -/
  | reset (causes : ResetFlags)
  deriving DecidableEq, Repr

/-- A turn carried to its end. -/
def runTurn : Turn → Result
  | .done s => .next s
  | .command i s => exec i s
  | .refused r => .refused r

/-- SendByte as `OUT <- OUT ++ [b]`: the frame begun by the acknowledgment is over, the line rests at STOP_LEVEL (R117). -/
def byteSent (s : State) : State := sendDone { s with txd := .drive s.cfg.stopLevel, loc := { s.loc with txBit := 9 } }

/-- The sequencer has a step of its own, one that waits for no byte. -/
def State.sequencerReady (s : State) : Bool :=
  match s.seq with
  | .guard => true
  | .ack => true
  | .wProg _ => !s.fe.busy
  | _ => false

/-- Whether a reset with these causes can happen: some cause is present, the watchdog's only while WD_EN, at any moment
(43 R171), in S_ACK and before ResetGuard's first step too (log 21). -/
def State.resetReady (s : State) (causes : ResetFlags) : Bool :=
  (causes.ext || causes.wdt || causes.por || causes.bor) && (!causes.wdt || s.wd.en)

/-- Which events can happen. A byte sent while the block is not in RecvByte is lost (R116): it is no event. -/
def UntimedEvent.enabled (s : State) : UntimedEvent → Bool
  | .receive _ => s.seq.listening
  | .sequencer => s.sequencerReady
  | .engine => s.fe.busy
  | .reset causes => s.resetReady causes

/-- The sequencer's own step: ResetGuard, the acknowledgment sent and the cycle finished, a flash wait that is over. -/
def sequencerEvent (s : State) : Result :=
  match s.seq with
  | .guard => .next (resetGuard s)
  | .ack => exec (decodeOpcode s.op) (byteSent s)
  | _ => exec (decodeOpcode s.op) s

/-- What an event does. -/
def untimedEffect (e : UntimedEvent) (s : State) : Result :=
  match e with
  | .receive b => runTurn (received { s with rxsr := b })
  | .sequencer => sequencerEvent s
  | .engine => .next (engineComplete s)
  | .reset causes => .next (hardwareReset causes s)

/-- One step without a clock: an event, under a valid configuration; an invalid one is refused (00_scope.md R9). -/
def untimedStep (e : UntimedEvent) (s : State) : Result :=
  if s.cfg.valid then untimedEffect e s else .refused .invalidConfiguration

/-! Runs and fairness. -/

/-- An infinite run without a clock, of a valid configuration (00_scope.md R9): at each place an enabled event happens, or
nothing does. -/
def UntimedRun (states : Nat → State) (events : Nat → Option UntimedEvent) : Prop :=
  (states 0).cfg.valid = true ∧ ∀ n, match events n with
    | none => states (n + 1) = states n
    | some e => e.enabled (states n) = true ∧ untimedStep e (states n) = .next (states (n + 1))

/-- The events in which the sequencer performs WdtRefresh, WdtArm or WdtDisable (43 R165): the end of an acknowledgment,
ResetGuard, and the dispatch of RESET. -/
def UntimedEvent.touchesWatchdog (s : State) : UntimedEvent → Bool
  | .receive b => s.seq == .idle && decodeOpcode b == .reset
  | .sequencer => s.seq == .guard || s.seq == .ack
  | .engine => false
  | .reset _ => false

/-- Weak fairness of the watchdog (43 R171): if from some place on WD_EN stays true and the sequencer performs no WdtRefresh,
WdtArm or WdtDisable, then a reset of cause WDT happens at that place or later. -/
def WatchdogFair (states : Nat → State) (events : Nat → Option UntimedEvent) : Prop :=
  ∀ n, (∀ m, n ≤ m → (states m).wd.en = true ∧ ∀ e, events m = some e → e.touchesWatchdog (states m) = false) →
    ∃ m causes, n ≤ m ∧ events m = some (.reset causes) ∧ causes.wdt = true

/-- The flash engine does not withhold a completion for ever (42 R142). -/
def EngineFair (states : Nat → State) : Prop :=
  ∀ n, (states n).fe.busy = true → ∃ m, n ≤ m ∧ (states m).fe.busy = false

/-! The byte level: the sequencer goes on after each event until it is blocked. -/

/-- What happens next, seen from the byte level. -/
inductive ByteEvent where
  /-- The host has sent a byte as a well-formed frame. -/
  | host (b : Byte)
  /-- The flash engine completes, if something is in flight. -/
  | engine
  /-- A hardware reset with these causes; the watchdog's only while it is armed (R171). -/
  | reset (causes : ResetFlags)
  deriving DecidableEq, Repr

/-- The event of an agent behind it. -/
def ByteEvent.untimed : ByteEvent → UntimedEvent
  | .host b => .receive b
  | .engine => .engine
  | .reset causes => .reset causes

/-- The sequencer goes on without receiving, until it is blocked or the count runs out. -/
def settle : Nat → State → Result
  | 0, s => .next s
  | fuel + 1, s => if s.sequencerReady then andThen (sequencerEvent s) (settle fuel) else .next s

/-- One event of the byte level, then the sequencer up to its next blocking point: at most three steps of its own, the two
flash waits and the acknowledgment. An event that is not enabled changes nothing: a byte sent while the block is not in
RecvByte is lost (R116). An invalid configuration is refused (00_scope.md R9). -/
def byteStep (e : ByteEvent) (s : State) : Result :=
  if s.cfg.valid then
    if e.untimed.enabled s then andThen (untimedStep e.untimed s) (settle 3) else .next s
  else .refused .invalidConfiguration

/-- A sequence of events, stopping at the first fault or refusal. -/
def byteRun : List ByteEvent → State → Result
  | [], s => .next s
  | e :: rest, s => andThen (byteStep e s) (byteRun rest)

/-- The events of bytes sent by the host. -/
def hostBytes (bytes : List Byte) : List ByteEvent := bytes.map .host

end Sys2Proof.Machine
end

