-- ==== Sys2Proof/Safety.lean ====
section
/-! DEFINITION. What counts as a good state of the block, and the premises the spec names. -/

namespace Sys2Proof.Machine

/-- WritePage is in hand and has passed its admission. -/
def Seq.writing : Seq → Bool
  | .wCk _ => true
  | .wData _ => true
  | .wProg _ => true
  | _ => false

/-- The positions at which a command has an action (10_state.md R24; log 23): its dispatch, its own body and waits, and, but
for RESET, the end of its acknowledgment. -/
def actsAt (i : Instr) (p : Seq) : Bool :=
  match i, p with
  | .identify, .idle | .identify, .ident _ | .identify, .ack => true
  | .loadAddr, .idle | .loadAddr, .addr _ | .loadAddr, .ack => true
  | .writePage, .idle | .writePage, .wCk _ | .writePage, .wData _ | .writePage, .wProg _ | .writePage, .ack => true
  | .reset, .idle => true
  | .unknown _, .idle | .unknown _, .ack => true
  | _, _ => false

/-- The bytes of page `page` of flash are `bytes`. -/
def State.pageHolds (s : State) (page : Nat) (bytes : List Byte) : Prop :=
  ∀ i, i < s.cfg.pageSize → flashGet s.flash (s.pageBase page + i) = bytes[i]?

/-- Shapes of the stores (10_state.md R20, R22, R24, R28, R31). -/
structure State.Shapes (s : State) : Prop where
  config : s.cfg.valid = true
  pb : s.pb.length = s.cfg.pageSize
  ftb : s.ftb.length = s.cfg.pageSize
  timer : s.tcnt < 2 ^ s.cfg.timerWidth
  payload : ∀ i, s.seq = .wData i → i < s.cfg.pageSize
  txBit : s.loc.txBit ≤ 9

/-- Flash is in its canonical form and lists nothing outside the application region (20_memory.md R52, R53). -/
structure State.FlashInRegion (s : State) : Prop where
  canonical : Memory.wf s.flash
  region : ∀ c ∈ s.flash, c.1 < s.cfg.appLimit

/-- The engine works on a page of the application region, with reads disabled (42 R140, R141, R147). -/
def State.EngineOk (s : State) : Prop :=
  match s.fe with
  | .idle => True
  | .erasing p => s.pageBase p + s.cfg.pageSize ≤ s.cfg.appLimit ∧ s.readEn = false
  | .writing p snapshot _ =>
    s.pageBase p + s.cfg.pageSize ≤ s.cfg.appLimit ∧ s.readEn = false ∧ snapshot.length = s.cfg.pageSize

/-- The opcode in hand is that of the position's command (10_state.md R24, R25). -/
def State.OpcodeOk (s : State) : Prop :=
  match s.seq with
  | .ident _ => decodeOpcode s.op = .identify
  | .addr _ => decodeOpcode s.op = .loadAddr
  | .wCk _ => decodeOpcode s.op = .writePage
  | .wData _ => decodeOpcode s.op = .writePage
  | .wProg _ => decodeOpcode s.op = .writePage
  | .ack => decodeOpcode s.op ≠ .reset
  | .spin => decodeOpcode s.op = .reset
  | _ => True

/-- The transmit line at each position (10_state.md R26, 40 R104): not driven before TransportInit and on the application
path, the current bit of the reply in S_ACK, the idle level elsewhere. -/
def State.TxdOk (s : State) : Prop :=
  match s.seq with
  | .guard => s.txd = .z
  | .app => s.txd = .z
  | .ack => s.loc.txByte = ackByte s.ok ∧ s.txd = .drive (frameLevel s.cfg s.loc.txByte s.loc.txBit)
  | _ => s.txd = .drive s.cfg.stopLevel

/-- The watchdog and the reset-cause flags at each position (70 R251, R252; 44 R207). -/
def State.SupervisorOk (s : State) : Prop :=
  match s.seq with
  | .guard => s.wd.cnt = 0
  | .app => s.wd.en = false ∧ s.rc.ext = false ∧ s.rc.wdt = false
  | .spin => s.wd.en = true ∧ s.wd.period = .short ∧ s.wd.cnt < wdtTicks s.cfg .short ∧ s.rc.ext = false
  | _ => s.wd.en = true ∧ s.wd.period = .medium ∧ s.wd.cnt < wdtTicks s.cfg .medium ∧ s.rc.ext = false

/-- Outside the bootloader loop nothing is in flight and reads are enabled (42 R151, 70 R253). -/
def State.BootOk (s : State) : Prop :=
  match s.seq with
  | .guard => s.fe = .idle ∧ s.readEn = true
  | .app => s.fe = .idle ∧ s.readEn = true
  | _ => True

/-- Only replies go out (30_encoding.md R85). -/
def State.RepliesOk (s : State) : Prop := ∀ b ∈ s.hist.out, b = 0x59 ∨ b = 0x4E

/-- While WritePage is in hand: its target was admitted (20_memory.md R53), and the target page is being erased or is erased
until the commit, after which it is being programmed with PB or holds PB (42 R153, 44 R200 to R203). -/
def State.WriteOk (s : State) : Prop :=
  (s.seq.writing = true → s.admission = none) ∧
  match s.seq with
  | .wCk _ => s.fe = .erasing (s.pageOf s.ar) ∨ (s.fe = .idle ∧ s.pageErased (s.pageOf s.ar) = true)
  | .wData _ => s.fe = .erasing (s.pageOf s.ar) ∨ (s.fe = .idle ∧ s.pageErased (s.pageOf s.ar) = true)
  | .wProg .waitErase => s.fe = .erasing (s.pageOf s.ar) ∨ (s.fe = .idle ∧ s.pageErased (s.pageOf s.ar) = true)
  | .wProg .waitCommit =>
    s.fe = .writing (s.pageOf s.ar) s.pb true ∨ (s.fe = .idle ∧ s.pageHolds (s.pageOf s.ar) s.pb)
  | _ => True

/-- A good state: every state that a run from a reset reaches is one. -/
structure State.Inv (s : State) : Prop where
  shapes : s.Shapes
  flash : s.FlashInRegion
  engine : s.EngineOk
  opcode : s.OpcodeOk
  txd : s.TxdOk
  supervisor : s.SupervisorOk
  boot : s.BootOk
  replies : s.RepliesOk
  write : s.WriteOk

/-- No reset and no completion of the flash engine falls at or before tick `t`. -/
def State.UndisturbedUntil (s : State) (t : Nat) : Prop :=
  (∀ r, earlier s.envDue s.wdtDue = some r → t < r) ∧ (∀ e, s.engineDue = some e → t < e)

/-- A well-formed frame for `v` on RXD, its start bit beginning at tick `ts`, with bit period `p` (40 R112). -/
def State.FrameOnLine (s : State) (ts p : Nat) (v : Byte) : Prop :=
  ∀ k, k < 10 → ∀ t, ts + k * p ≤ t → t < ts + (k + 1) * p → s.rxdAt t = frameLevel s.cfg v k

/-- The line is idle from tick `a` up to, not including, tick `b`. -/
def State.IdleOnLine (s : State) (a b : Nat) : Prop := ∀ t, a ≤ t → t < b → s.rxdAt t = s.cfg.stopLevel

/-- From `s` a handler has set its result and the acknowledgment frame has begun in `t`: its start bit is on the line and the
first bit period runs (44 R192, 40 R104). -/
structure Replying (s t : State) (result : Bool) : Prop where
  position : t.seq = .ack
  flag : t.ok = result
  byte : t.loc.txByte = ackByte result
  bit : t.loc.txBit = 0
  line : t.txd = .drive s.cfg.startLevel
  timer : t.tcnt = 0
  ends : t.loc.due = s.now + s.cfg.bitTicks + s.nextSlack

/-- What no command's action changes (10_state.md R40): the configuration, the opcode in hand, RXSR, every byte of flash, the
reset-cause flags, the current tick, the environment's waveform and resets, and the bytes received and sent so far. -/
structure KeepsMachine (s t : State) : Prop where
  cfg : t.cfg = s.cfg
  op : t.op = s.op
  rxsr : t.rxsr = s.rxsr
  flash : ∀ a, flashGet t.flash a = flashGet s.flash a
  rc : t.rc = s.rc
  now : t.now = s.now
  rxd : t.inp.rxd = s.inp.rxd
  resets : t.inp.resets = s.inp.resets
  got : t.hist.got = s.hist.got
  out : t.hist.out = s.hist.out

/-- AR, with whether it has been written, is unchanged. -/
structure KeepsAddress (s t : State) : Prop where
  ar : t.ar = s.ar
  written : t.arWritten = s.arWritten

/-- Everything that only WRITEPAGE touches is unchanged (10_state.md R40). -/
structure KeepsPageState (s t : State) : Prop where
  pb : t.pb = s.pb
  ckRx : t.ckRx = s.ckRx
  acc : t.acc = s.acc
  ftb : t.ftb = s.ftb
  fe : t.fe = s.fe
  feDue : t.feDue = s.feDue
  readEn : t.readEn = s.readEn
  latencies : t.inp.latencies = s.inp.latencies

/-- WD_EN and WD_PERIOD are unchanged, and WD_CNT too unless the action is the refresh after an acknowledgment (44 R193). -/
structure KeepsWatchdog (s t : State) : Prop where
  en : t.wd.en = s.wd.en
  period : t.wd.period = s.wd.period
  cnt : s.seq ≠ .ack → t.wd.cnt = s.wd.cnt

/-- `ok` and the transmit side change only where the acknowledgment begins (10_state.md R25, R26). -/
def KeepsReplyUnlessBegun (s t : State) : Prop :=
  t.ok = s.ok ∧ t.txd = s.txd ∧ t.tcnt = s.tcnt ∨ t.seq = .ack

/-- Premise SLACK_MAX = 0, the ideal model (40 R103, D3). -/
def idealTiming (c : Cfg) : Prop := c.slackMax = 0

/-- Premise P_ERASE_FAST (42 R144): the erase in flight was issued at tick `issued` and completes in time. -/
def State.EraseFast (s : State) (issued : Nat) : Prop := s.feDue ≤ issued + (s.cfg.pageSize + 3) * 10 * s.cfg.bitTicks

/-- The longest command cycle of 70 R270, in ticks: a successful WRITEPAGE with frames back to back, from the start bit of its
opcode to the end of its reply, for an erase and a commit of these latencies. The erase runs while the body is received, from
the opcode's stop sample on (44 R200), so only what is left of it after PAGE_SIZE + 2 frames counts; the actions between the
waits take no ticks (40 R103). -/
def longestCycle (c : Cfg) (erase commit : Nat) : Nat :=
  (c.pageSize + 2) * 10 * c.bitTicks + c.halfBitTicks + 9 * c.bitTicks + (erase - (c.pageSize + 2) * 10 * c.bitTicks) +
    commit + 10 * c.bitTicks

/-- Premise P_WDT_MEDIUM_LONG (70 R270, D23), with SLACK_MAX = 0, for erases and commits of at most these latencies. -/
def wdtMediumLong (c : Cfg) (erase commit : Nat) : Prop := longestCycle c erase commit < wdtTicks c .medium

end Sys2Proof.Machine
end

