-- ==== Sys2Proof/Certificates/Slice0/Obligations.lean ====
section
/-! DEFINITION. The statements about the block, for the provers. Each docstring names the rules of spec/ it rests on. -/

open Sys2Proof Sys2Proof.Machine

/-! Encoding. -/

/-- The opcode map of R82, with the ASCII codes of R81 (log 13): exact match of all eight bits, every other byte Unknown. -/
def Obligations.OpcodeMapIsExactMatch : Prop :=
  decodeOpcode 0x49 = .identify ∧ decodeOpcode 0x41 = .loadAddr ∧ decodeOpcode 0x57 = .writePage ∧
  decodeOpcode 0x52 = .reset ∧ decodeOpcode 0x69 = .unknown 0x69 ∧
  ∀ b : Byte, b ≠ 0x49 → b ≠ 0x41 → b ≠ 0x57 → b ≠ 0x52 → decodeOpcode b = .unknown b

/-- R79, R80, R90: decoding the bytes of a well-formed command gives back the instruction, the whole body and the bytes
after it, whatever those are. -/
def Obligations.DecodeOfEncodeGivesTheCommandBack : Prop :=
  ∀ (c : Cfg) (i : Instr) (body rest : List Byte), commandWf c i body = true →
    decodeCommand c (encodeCommand i body ++ rest) = .ok (i, body, rest)

/-- R54, R79, R83: the 16-bit operands of LOADADDR and WRITEPAGE travel low byte first and are read back whole, the
signature and payload bytes position by position. -/
def Obligations.OperandsSurviveTheWire : Prop :=
  ∀ (c : Cfg) (rest : List Byte),
    (∀ a : Half, ∃ lo hi, decodeCommand c (scriptLoadAddr a ++ rest) = .ok (.loadAddr, [lo, hi], rest) ∧
      le16 lo hi = a ∧ lo.toNat = a.toNat % 256 ∧ hi.toNat = a.toNat / 256) ∧
    (∀ (ck : Half) (d : List Byte), d.length = c.pageSize → ∃ lo hi,
      decodeCommand c (scriptWritePage ck d ++ rest) = .ok (.writePage, lo :: hi :: d, rest) ∧ le16 lo hi = ck ∧
      lo.toNat = ck.toNat % 256 ∧ hi.toNat = ck.toNat / 256) ∧
    (∀ s0 s1 s2 : Byte, decodeCommand c (scriptIdentify s0 s1 s2 ++ rest) = .ok (.identify, [s0, s1, s2], rest))

/-! Reset state, the invariant, the stops. -/

/-- R44, first column: what the spec gives of the state after power-on. That no byte of flash has a value is the model's own
representation of `unspecified` (log 5, a DESIGN CHOICE); that TXD is Z and that RC.POR stands alone is R44's own general
knowledge (log 18). -/
def Obligations.ResetStateIsThePowerOnState : Prop :=
  State.reset.seq = .guard ∧ State.reset.arWritten = false ∧ State.reset.txd = .z ∧ State.reset.fe = .idle ∧
  State.reset.readEn = true ∧ State.reset.rc = { ext := false, wdt := false, por := true, bor := false } ∧
  State.reset.wd.cnt = 0 ∧ ∀ a, flashGet State.reset.flash a = none

/-- The state after reset is a good state. -/
def Obligations.ResetStateIsGood : Prop := State.reset.Inv

/-- Every step keeps the invariant: the stores keep their shapes, flash its canonical form inside the application region,
the line, the watchdog and the flags are as the position says (R26, R251, R252, R207), only 'Y' and 'N' go out (R85), and
while WRITEPAGE is in hand its page is in the state R200 to R203 give it. -/
def Obligations.EveryStepKeepsTheInvariant : Prop :=
  ∀ s t : State, s.Inv → step s = .next t → t.Inv

/-- R219 with R15: from a good state the block stops only at WRITEPAGE's dispatch, refused at admission or faulting because an
erase is in flight. It rests, with no agent's event to come, only where control is the application's and no reset is to come
(43 R181); inside the loop it never does. That the step then answers the state itself is the model's choice (log 35). -/
def Obligations.GoodStatesStopOnlyWhereTheSpecSays : Prop :=
  ∀ s : State, s.Inv →
    (∀ f, step s = .fault f → f = .flashIssueWhileBusy ∧ s.seq = .idle ∧ s.rxsr = 0x57 ∧ s.fe.busy = true) ∧
    (∀ r, step s = .refused r → s.seq = .idle ∧ s.rxsr = 0x57 ∧ s.admission = some r) ∧
    (s.nextAgent = none → s.seq = .app ∧ s.inp.resets = [] ∧ step s = .next s)

/-- R9: a configuration that breaks a constraint is refused, in every state, by the step, by every event of the layer without a
clock and by every event of the byte level, and no run without a clock starts there. One constraint among them, a
WDT_TICK_RATIO above 0, is the model's own (log 30, a DESIGN CHOICE). -/
def Obligations.InvalidConfigurationIsRefused : Prop :=
  ∀ s : State, s.cfg.valid = false →
    step s = .refused .invalidConfiguration ∧
    (∀ e : UntimedEvent, untimedStep e s = .refused .invalidConfiguration) ∧
    (∀ e : ByteEvent, byteStep e s = .refused .invalidConfiguration) ∧
    ∀ states events, states 0 = s → ¬UntimedRun states events

/-! The step and exec. -/

/-- R191: when RecvByte of S_IDLE takes a good stop sample, the step is exec of the command that RXSR decodes to, at the
state in which time has passed up to the sample, the byte is received and `op` holds it. -/
def Obligations.StepRunsTheDecodedCommand : Prop :=
  ∀ s : State, s.cfg.valid = true → s.seq = .idle → s.loc.rx = .stop → s.UndisturbedUntil (max s.loc.due s.now) →
    s.rxdAt (max s.loc.due s.now) = s.cfg.stopLevel →
    step s = exec (decodeOpcode s.rxsr) { recvDone (advanceTo (max s.loc.due s.now) s) with op := s.rxsr }

/-- R24, R191, R228: a byte received between the body bytes goes to the command in hand, whatever its value; so do the end
of the acknowledgment frame and the end of a flash wait. -/
def Obligations.StepGoesOnWithTheCommandInHand : Prop :=
  ∀ s : State, s.cfg.valid = true →
    (s.seq.listening = true → s.seq ≠ .idle → s.loc.rx = .stop → s.UndisturbedUntil (max s.loc.due s.now) →
      s.rxdAt (max s.loc.due s.now) = s.cfg.stopLevel →
      step s = exec (decodeOpcode s.op) (recvDone (advanceTo (max s.loc.due s.now) s))) ∧
    (s.seq = .ack → s.loc.txBit = 9 → s.UndisturbedUntil (max s.loc.due s.now) →
      step s = exec (decodeOpcode s.op) (sendDone (advanceTo (max s.loc.due s.now) s))) ∧
    (∀ p, s.seq = .wProg p → s.fe.busy = false → s.UndisturbedUntil s.now →
      step s = exec (decodeOpcode s.op) (advanceTo s.now s))

/-- Log 6: withFetchWord makes the very next step run the command of the word's first byte, from any state with a valid
configuration. -/
def Obligations.FetchWordIsRunByTheNextStep : Prop :=
  ∀ (s : State) (nbits w : Nat), s.cfg.valid = true → ∃ u : State,
    step (s.withFetchWord nbits w) = exec (decodeOpcode (byteOf w 0)) u ∧ u.seq = .idle ∧ u.op = byteOf w 0 ∧
    u.flash = s.flash ∧ u.ar = s.ar ∧ u.arWritten = s.arWritten ∧ u.cfg = s.cfg ∧ u.fe = s.fe

/-! IDENTIFY. -/

/-- R195, R191: IDENTIFY's dispatch listens for the first signature byte with nothing mismatched yet; the first and second
bytes are compared position by position and the next one is awaited whether or not they match. -/
def Obligations.IdentifyReadsAllItsBytes : Prop :=
  ∀ s : State,
    (s.seq = .idle → ∃ t, exec .identify s = .next t ∧ t.seq = .ident 0 ∧ t.loc.rx = .hunt ∧ t.loc.idMatch = true) ∧
    (s.seq = .ident 0 → ∃ t, exec .identify s = .next t ∧ t.seq = .ident 1 ∧ t.loc.rx = .hunt ∧
      t.loc.idMatch = (s.loc.idMatch && s.rxsr == s.cfg.sig0)) ∧
    (s.seq = .ident 1 → ∃ t, exec .identify s = .next t ∧ t.seq = .ident 2 ∧ t.loc.rx = .hunt ∧
      t.loc.idMatch = (s.loc.idMatch && s.rxsr == s.cfg.sig1))

/-- R195: the third byte decides; `ok` is whether all three matched, SignatureMismatch is raised otherwise, and the
acknowledgment begins. -/
def Obligations.IdentifyThirdByteDecides : Prop :=
  ∀ s : State, s.seq = .ident 2 → ∃ t, exec .identify s = .next t ∧
    Replying s t (s.loc.idMatch && s.rxsr == s.cfg.sig2) ∧
    t.hist.trace = if s.loc.idMatch && s.rxsr == s.cfg.sig2 then s.hist.trace else s.hist.trace ++ [.signatureMismatch]

/-- R195, R196, R210 at byte level (R117): IDENTIFY consumes exactly three body bytes, replies 'Y' iff all three equal the
signature in order, refreshes the watchdog, and changes nothing that another command reads. -/
def Obligations.IdentifyRepliesWhetherTheSignatureMatches : Prop :=
  ∀ (s : State) (s0 s1 s2 : Byte), s.cfg.valid = true → s.seq = .idle →
    ∃ t, byteRun (hostBytes (scriptIdentify s0 s1 s2)) s = .next t ∧ t.seq = .idle ∧
      t.hist.got = s.hist.got ++ [0x49, s0, s1, s2] ∧
      t.hist.out = s.hist.out ++ [if s0 = s.cfg.sig0 ∧ s1 = s.cfg.sig1 ∧ s2 = s.cfg.sig2 then 0x59 else 0x4E] ∧
      t.wd = { s.wd with cnt := 0 } ∧ KeepsAddress s t ∧ KeepsPageState s t ∧ t.flash = s.flash ∧ t.rc = s.rc ∧
      t.cfg = s.cfg

/-- R40, R195: what IDENTIFY's actions leave alone. Only `seq`, `ok`, the locals, the transmit side, the watchdog's count
at the refresh, the trace and the environment's slack draws may change. -/
def Obligations.IdentifyFrame : Prop :=
  ∀ s t : State, exec .identify s = .next t →
    KeepsMachine s t ∧ KeepsAddress s t ∧ KeepsPageState s t ∧ KeepsWatchdog s t ∧ KeepsReplyUnlessBegun s t

/-! LOADADDR. -/

/-- R197, R198: the two body bytes, little-endian; AR is untouched by the first and written whole by the second, any value
being accepted, and success is reported. -/
def Obligations.LoadAddrWritesTheAddressWhole : Prop :=
  ∀ s : State,
    (s.seq = .idle → ∃ t, exec .loadAddr s = .next t ∧ t.seq = .addr 0 ∧ t.loc.rx = .hunt ∧ KeepsAddress s t) ∧
    (s.seq = .addr 0 → ∃ t, exec .loadAddr s = .next t ∧ t.seq = .addr 1 ∧ t.loc.rx = .hunt ∧ t.loc.aLo = s.rxsr ∧
      KeepsAddress s t) ∧
    (s.seq = .addr 1 → ∃ t, exec .loadAddr s = .next t ∧ Replying s t true ∧ t.arWritten = true ∧
      t.ar.toNat = s.loc.aLo.toNat + 256 * s.rxsr.toNat)

/-- R197, R210 at byte level: `'A', lo, hi` sets AR and is answered 'Y', the rest unchanged. -/
def Obligations.LoadAddrSetsTheAddressRegister : Prop :=
  ∀ (s : State) (a : Half), s.cfg.valid = true → s.seq = .idle →
    ∃ t, byteRun (hostBytes (scriptLoadAddr a)) s = .next t ∧ t.seq = .idle ∧ t.ar = a ∧ t.arWritten = true ∧
      t.hist.got.length = s.hist.got.length + 3 ∧ t.hist.out = s.hist.out ++ [0x59] ∧ t.wd = { s.wd with cnt := 0 } ∧
      KeepsPageState s t ∧ t.flash = s.flash ∧ t.rc = s.rc ∧ t.cfg = s.cfg

/-- R40, R197: what LOADADDR's actions leave alone; AR changes only with the second body byte. -/
def Obligations.LoadAddrFrame : Prop :=
  ∀ s t : State, exec .loadAddr s = .next t →
    KeepsMachine s t ∧ (s.seq ≠ .addr 1 → KeepsAddress s t) ∧ KeepsPageState s t ∧ KeepsWatchdog s t ∧
    KeepsReplyUnlessBegun s t

/-! WRITEPAGE. -/

/-- R53: WRITEPAGE is refused at dispatch when AR is unwritten, when it is misaligned and when its page ends outside the
application region, under a name for each; the spec's own model-level outcome, the order of the names being the model's
(log 17). That it is refused in no other case is WritePageErasesFirst. -/
def Obligations.WritePageIsRefusedAtAdmission : Prop :=
  ∀ s : State, s.seq = .idle →
    (s.arWritten = false → exec .writePage s = .refused .addressUnwritten) ∧
    (s.arWritten = true → s.ar.toNat % s.cfg.pageSize ≠ 0 → exec .writePage s = .refused .addressMisaligned) ∧
    (s.arWritten = true → s.ar.toNat % s.cfg.pageSize = 0 → s.cfg.appLimit < s.ar.toNat + s.cfg.pageSize →
      exec .writePage s = .refused .addressOutsideRegion)

/-- R200, R141, R144: an admitted WRITEPAGE erases the target page first, before any body byte: the engine is set to work,
reads are disabled, FLASH itself is not changed yet, and the first checksum byte is awaited. With an operation in flight
the outcome is the fault FlashIssueWhileBusy. -/
def Obligations.WritePageErasesFirst : Prop :=
  ∀ s : State, s.seq = .idle → s.arWritten = true → s.ar.toNat % s.cfg.pageSize = 0 →
    s.ar.toNat + s.cfg.pageSize ≤ s.cfg.appLimit →
    (s.fe.busy = false → ∃ t, exec .writePage s = .next t ∧ t.fe = .erasing (s.ar.toNat / s.cfg.pageSize) ∧
      t.feDue = s.now + s.nextLatency ∧ t.readEn = false ∧ t.seq = .wCk 0 ∧ t.loc.rx = .hunt ∧ t.flash = s.flash ∧
      KeepsAddress s t) ∧
    (s.fe.busy = true → exec .writePage s = .fault .flashIssueWhileBusy)

/-- R201, R54: the checksum bytes become CK_RX, low byte first, and payload byte `i` becomes PB[i]; no byte is examined
before the last. -/
def Obligations.WritePageStoresItsBody : Prop :=
  ∀ s : State,
    (s.seq = .wCk 0 → ∃ t, exec .writePage s = .next t ∧ t.seq = .wCk 1 ∧ t.loc.rx = .hunt ∧
      t.ckRx.toNat % 256 = s.rxsr.toNat ∧ t.pb = s.pb) ∧
    (s.seq = .wCk 1 → ∃ t, exec .writePage s = .next t ∧ t.seq = .wData 0 ∧ t.loc.rx = .hunt ∧
      t.ckRx.toNat = s.ckRx.toNat % 256 + 256 * s.rxsr.toNat ∧ t.pb = s.pb) ∧
    (∀ i, s.seq = .wData i → i + 1 < s.cfg.pageSize → s.pb.length = s.cfg.pageSize →
      ∃ t, exec .writePage s = .next t ∧ t.seq = .wData (i + 1) ∧ t.loc.rx = .hunt ∧ t.ckRx = s.ckRx ∧
        t.pb[i]? = some s.rxsr ∧ (∀ j, j ≠ i → t.pb[j]? = s.pb[j]?) ∧ t.pb.length = s.pb.length)

/-- R202: with the last payload byte the checksum over PB, and over nothing else, is compared with CK_RX, all 16 bits. On a
match the sequencer goes on to program the page; on a mismatch it reports failure, with no flash operation issued, AR
unchanged and READ_EN as it is. -/
def Obligations.WritePageValidatesAfterTheLastByte : Prop :=
  ∀ (s : State) (i : Nat) (a : Acc), s.seq = .wData i → i + 1 = s.cfg.pageSize →
    checksum (s.pb.set i s.rxsr) = .next a →
    (a.toNat % 65536 = s.ckRx.toNat → ∃ t, exec .writePage s = .next t ∧ t.seq = .wProg .waitErase ∧
      t.pb = s.pb.set i s.rxsr ∧ t.acc = a ∧ t.fe = s.fe ∧ KeepsAddress s t) ∧
    (a.toNat % 65536 ≠ s.ckRx.toNat → ∃ t, exec .writePage s = .next t ∧ Replying s t false ∧
      t.hist.trace = s.hist.trace ++ [.checksumMismatch] ∧ t.pb = s.pb.set i s.rxsr ∧ t.acc = a ∧ t.fe = s.fe ∧
      t.feDue = s.feDue ∧ t.readEn = s.readEn ∧ t.flash = s.flash ∧ t.ftb = s.ftb ∧ KeepsAddress s t)

/-- R153, R145, R146, R147, R203: once the erase is over, FTB is filled with PB word by word and the commit of AR's page is
issued from it. The first clause, that exec asked while the engine is busy answers the state it was given, is the model's
choice for one poll of the wait (log 29, a DESIGN CHOICE); R145 only says that the wait goes on. -/
def Obligations.WritePageFillsAndCommits : Prop :=
  ∀ s : State, s.cfg.valid = true → s.pb.length = s.cfg.pageSize → s.ftb.length = s.cfg.pageSize →
    (∀ p, s.seq = .wProg p → s.fe.busy = true → exec .writePage s = .next s) ∧
    (s.seq = .wProg .waitErase → s.fe.busy = false → ∃ t, exec .writePage s = .next t ∧ t.ftb = s.pb ∧
      t.fe = .writing (s.ar.toNat / s.cfg.pageSize) s.pb (s.pageErased (s.ar.toNat / s.cfg.pageSize)) ∧
      t.feDue = s.now + s.nextLatency ∧ t.readEn = false ∧ t.seq = .wProg .waitCommit ∧ t.flash = s.flash ∧
      t.pb = s.pb ∧ KeepsAddress s t)

/-- R203, R204, R60, R150: once the commit is over, reads are re-enabled, AR advances by PAGE_SIZE modulo 2^16 and success
is reported. -/
def Obligations.WritePageAdvancesTheAddress : Prop :=
  ∀ s : State, s.seq = .wProg .waitCommit → s.fe.busy = false → ∃ t, exec .writePage s = .next t ∧
    t.readEn = true ∧ t.fe = s.fe ∧ t.ar.toNat = (s.ar.toNat + s.cfg.pageSize) % 65536 ∧ t.arWritten = s.arWritten ∧
    Replying s t true ∧ t.flash = s.flash

/-- R203 over the invariant: in a good state, when WRITEPAGE reports success its page holds the payload. -/
def Obligations.ReportedSuccessMeansThePageHoldsThePayload : Prop :=
  ∀ s t : State, s.Inv → s.seq = .wProg .waitCommit → step s = .next t → t.seq = .ack →
    t.ok = true ∧ t.readEn = true ∧ t.fe = .idle ∧
    ∀ i, i < s.cfg.pageSize → flashGet t.flash (s.ar.toNat + i) = s.pb[i]? ∧ (s.pb[i]?).isSome = true

/-- R206, match, at byte level: wherever the erase completes among the bytes, a WRITEPAGE with a matching checksum ends with
the page equal to the payload, every other byte of flash as before, AR advanced, reads enabled and 'Y'. -/
def Obligations.MatchingWritePageProgramsThePage : Prop :=
  ∀ (s : State) (d : List Byte) (a : Acc) (k : Nat), s.cfg.valid = true → s.seq = .idle → s.admission = none →
    s.fe = .idle → s.pb.length = s.cfg.pageSize → s.ftb.length = s.cfg.pageSize → d.length = s.cfg.pageSize →
    checksum d = .next a → 1 ≤ k → k ≤ s.cfg.pageSize + 3 →
    ∃ t, byteRun (hostBytes ((scriptWritePage (a.extractLsb' 0 16) d).take k) ++ [.engine] ++
        hostBytes ((scriptWritePage (a.extractLsb' 0 16) d).drop k) ++ [.engine]) s = .next t ∧
      (∀ i, i < s.cfg.pageSize → flashGet t.flash (s.ar.toNat + i) = d[i]?) ∧
      (∀ x, x < s.ar.toNat ∨ s.ar.toNat + s.cfg.pageSize ≤ x → flashGet t.flash x = flashGet s.flash x) ∧
      t.ar.toNat = (s.ar.toNat + s.cfg.pageSize) % 65536 ∧ t.hist.out = s.hist.out ++ [0x59] ∧
      t.hist.got = s.hist.got ++ scriptWritePage (a.extractLsb' 0 16) d ∧ t.readEn = true ∧ t.fe = .idle ∧ t.seq = .idle

/-- R206, mismatch, at byte level: the whole body is consumed, the reply is 'N', AR is unchanged, reads stay disabled and
the page is erased once the engine completes, every other byte of flash as before. -/
def Obligations.MismatchingWritePageErasesThePage : Prop :=
  ∀ (s : State) (ck : Half) (d : List Byte) (a : Acc), s.cfg.valid = true → s.seq = .idle → s.admission = none →
    s.fe = .idle → s.pb.length = s.cfg.pageSize → d.length = s.cfg.pageSize →
    checksum d = .next a → a.extractLsb' 0 16 ≠ ck →
    ∃ t, byteRun (hostBytes (scriptWritePage ck d) ++ [.engine]) s = .next t ∧
      (∀ i, i < s.cfg.pageSize → flashGet t.flash (s.ar.toNat + i) = some s.cfg.erasedByte) ∧
      (∀ x, x < s.ar.toNat ∨ s.ar.toNat + s.cfg.pageSize ≤ x → flashGet t.flash x = flashGet s.flash x) ∧
      t.ar = s.ar ∧ t.arWritten = true ∧ t.hist.out = s.hist.out ++ [0x4E] ∧
      t.hist.got = s.hist.got ++ scriptWritePage ck d ∧ t.readEn = false ∧ t.fe = .idle ∧ t.seq = .idle

/-- R40, R199: what WRITEPAGE's actions leave alone: no byte of flash (FLASH changes only at the engine's completion), no
reset-cause flag, the watchdog except at the refresh; AR only in the last step of a success; the engine, READ_EN and FTB
only where a flash operation is issued. -/
def Obligations.WritePageFrame : Prop :=
  ∀ s t : State, exec .writePage s = .next t →
    KeepsMachine s t ∧ t.arWritten = s.arWritten ∧ (s.seq ≠ .wProg .waitCommit → t.ar = s.ar) ∧ KeepsWatchdog s t ∧
    KeepsReplyUnlessBegun s t ∧
    (s.seq ≠ .idle → s.seq ≠ .wProg .waitErase → t.fe = s.fe ∧ t.feDue = s.feDue ∧ t.ftb = s.ftb) ∧
    (s.seq ≠ .idle → (∀ p, s.seq ≠ .wProg p) → t.readEn = s.readEn) ∧
    ((∀ k, s.seq ≠ .wCk k) → t.ckRx = s.ckRx) ∧ ((∀ i, s.seq ≠ .wData i) → t.pb = s.pb ∧ t.acc = s.acc)

/-! RESET and UNKNOWN, and the end of a command cycle. -/

/-- R207, R40: RESET arms the short timeout and spins; nothing else changes. That the count starts from zero is R166, which
the spec marks as its decision D23 and as general knowledge (log 18, PRESUMED). -/
def Obligations.ResetArmsTheShortTimeoutAndSpins : Prop :=
  ∀ s : State, s.seq = .idle → ∃ t, exec .reset s = .next t ∧ t.wd = { en := true, period := .short, cnt := 0 } ∧
    t.seq = .spin ∧ KeepsMachine s t ∧ KeepsAddress s t ∧ KeepsPageState s t ∧ t.ok = s.ok ∧ t.txd = s.txd ∧
    t.tcnt = s.tcnt ∧ t.loc = s.loc

/-- R207, R208, R170: in a good state that spins, with no reset to come from outside, the next step is the watchdog's reset
and the one after it hands control to the application, flash being kept where nothing was in flight; or, where an erase
left in flight ends before the timeout, the next step is its completion, after which the block spins on with nothing in
flight and the timeout due at the same tick. That the timeout is due `wdtTicks - cnt` ticks from now is the model's clock
(log 10, a DESIGN CHOICE), and that the reset comes first where both are due at one tick is its order (log 8). -/
def Obligations.SpinEndsInTheApplication : Prop :=
  ∀ s : State, s.Inv → s.seq = .spin → s.inp.resets = [] →
    ((∀ w, s.engineDue = some w → s.now + (wdtTicks s.cfg .short - s.wd.cnt) ≤ w) →
      ∃ t u, step s = .next t ∧ t.seq = .guard ∧ t.now = s.now + (wdtTicks s.cfg .short - s.wd.cnt) ∧
        t.rc = { s.rc with wdt := true } ∧ (s.fe = .idle → t.flash = s.flash) ∧ step t = .next u ∧ u.seq = .app ∧
        u.flash = t.flash ∧ u.rc = { s.rc with wdt := false } ∧ u.wd.en = false ∧ u.hist.out = []) ∧
    (∀ w, s.engineDue = some w → w < s.now + (wdtTicks s.cfg .short - s.wd.cnt) →
      ∃ t, step s = .next t ∧ t.seq = .spin ∧ t.fe = .idle ∧ t.now = w ∧ t.inp.resets = [] ∧ t.rc = s.rc ∧
        t.now + (wdtTicks t.cfg .short - t.wd.cnt) = s.now + (wdtTicks s.cfg .short - s.wd.cnt))

/-- R209, R86, R217: an unknown opcode reads no byte, raises ProtocolError and is answered 'N'; AR, the page state, flash and
the watchdog are unchanged. -/
def Obligations.UnknownFailsAtOnce : Prop :=
  ∀ (b : Byte) (s : State), s.seq = .idle → ∃ t, exec (.unknown b) s = .next t ∧ Replying s t false ∧
    t.hist.trace = s.hist.trace ++ [.protocolError] ∧ t.hist.got = s.hist.got ∧ KeepsAddress s t ∧ KeepsPageState s t ∧
    t.flash = s.flash ∧ t.wd = s.wd

/-- R209, R82, R87 at byte level: every byte other than the four opcodes is answered 'N', 'Y' and 'N' themselves included, and
the loop goes on. -/
def Obligations.EveryOtherByteIsAnsweredN : Prop :=
  ∀ (b : Byte) (s : State), s.cfg.valid = true → s.seq = .idle → definedOpcodes.contains b = false →
    ∃ t, byteRun (hostBytes (scriptRaw b)) s = .next t ∧ t.seq = .idle ∧ t.hist.got = s.hist.got ++ [b] ∧
      t.hist.out = s.hist.out ++ [0x4E] ∧ t.wd = { s.wd with cnt := 0 } ∧ KeepsAddress s t ∧ KeepsPageState s t ∧
      t.flash = s.flash ∧ t.rc = s.rc

/-- R40, R209, R207: what UNKNOWN's and RESET's actions leave alone. -/
def Obligations.UnknownAndResetFrame : Prop :=
  (∀ (b : Byte) (s t : State), exec (.unknown b) s = .next t →
    KeepsMachine s t ∧ KeepsAddress s t ∧ KeepsPageState s t ∧ KeepsWatchdog s t ∧ KeepsReplyUnlessBegun s t) ∧
  (∀ s t : State, exec .reset s = .next t →
    KeepsMachine s t ∧ KeepsAddress s t ∧ KeepsPageState s t ∧ t.ok = s.ok ∧ t.txd = s.txd ∧ t.tcnt = s.tcnt)

/-- R193: after the acknowledgment frame every command but RESET refreshes the watchdog, without arming or disarming it, and
returns to S_IDLE listening. -/
def Obligations.EveryCommandEndsWithARefresh : Prop :=
  ∀ (i : Instr) (s : State), i ≠ .reset → s.seq = .ack → ∃ t, exec i s = .next t ∧ t.seq = .idle ∧ t.loc.rx = .hunt ∧
    t.wd = { s.wd with cnt := 0 } ∧ t.txd = s.txd ∧ t.ok = s.ok

/-- Log 23, the model's own choice: exec asked for an action at a position that is none of that command's, another command's
included, answers a refusal, and at the command's own positions it never answers that one. The spec (10_state.md, the
positions of R24) only gives the positions, not what asking elsewhere means. -/
def Obligations.ForeignPositionsAreRefused : Prop :=
  ∀ (i : Instr) (s : State),
    (actsAt i s.seq = false → exec i s = .refused .notThisCommandsPosition) ∧
    (actsAt i s.seq = true → exec i s ≠ .refused .notThisCommandsPosition)

/-! The transceiver. -/

/-- R107, R109, R227: sample 0 off the start level is a glitch, sample 9 off the stop level a frame error; both go back to
the outer wait and report nothing to the command. The state is the one in which time has passed up to the sample, but for
RecvByte's position and the label in the trace. -/
def Obligations.GlitchesAndFrameErrorsAreDiscarded : Prop :=
  ∀ s : State, s.cfg.valid = true → s.seq.listening = true → s.UndisturbedUntil (max s.loc.due s.now) →
    (s.loc.rx = .start → s.rxdAt (max s.loc.due s.now) ≠ s.cfg.startLevel →
      step s = .next { advanceTo (max s.loc.due s.now) s with
        loc := { s.loc with rx := .hunt }
        hist := { s.hist with trace := s.hist.trace ++ [.transportGlitch] } }) ∧
    (s.loc.rx = .stop → s.rxdAt (max s.loc.due s.now) ≠ s.cfg.stopLevel →
      step s = .next { advanceTo (max s.loc.due s.now) s with
        loc := { s.loc with rx := .hunt }
        hist := { s.hist with trace := s.hist.trace ++ [.frameError] } })

/-- R108, R58: shifting in the eight data bits of a frame, first bit first, leaves the byte itself, whatever RXSR held. -/
def Obligations.EightSamplesGiveTheByteLeastSignificantFirst : Prop :=
  ∀ (c : Cfg) (v r : Byte),
    (List.range 8).foldl (fun acc i => shiftIn (frameLevel c v (i + 1)) acc) r = v ∧
    ∀ (b : Bool) (i : Nat), (i < 7 → (shiftIn b r).getLsbD i = r.getLsbD (i + 1)) ∧ (shiftIn b r).getLsbD 7 = b

/-- R112 with SLACK_MAX = 0: a well-formed frame for `v` with bit period `p`, preceded by an idle line, that meets the
sampling inequalities and is not cut by another agent's event, is sampled whole: eleven steps later RecvByte stands before
its stop sample at tick `ts + H + 9B`, with `v` in RXSR and the line at STOP_LEVEL. What its return then does is
StepRunsTheDecodedCommand and StepGoesOnWithTheCommandInHand. -/
def Obligations.WellFormedFramesAreReceived : Prop :=
  ∀ (s : State) (ts p T : Nat) (v : Byte), s.cfg.valid = true → idealTiming s.cfg → s.seq.listening = true →
    s.loc.rx = .hunt → s.now ≤ ts → s.IdleOnLine s.now ts → s.FrameOnLine ts p v →
    (∀ k, k < 10 → k * p ≤ s.cfg.halfBitTicks + k * s.cfg.bitTicks ∧
      s.cfg.halfBitTicks + k * s.cfg.bitTicks < (k + 1) * p) →
    ts + s.cfg.halfBitTicks + 9 * s.cfg.bitTicks ≤ T → s.UndisturbedUntil T →
    ∃ t : State, Host.Core.run core 11 s = .next t ∧ t.loc.rx = .stop ∧ t.rxsr = v ∧ t.seq = s.seq ∧ t.op = s.op ∧
      t.loc.due = ts + s.cfg.halfBitTicks + 9 * s.cfg.bitTicks ∧ t.now ≤ t.loc.due ∧
      t.rxdAt t.loc.due = t.cfg.stopLevel ∧ t.UndisturbedUntil T ∧ t.cfg = s.cfg ∧ t.inp.rxd = s.inp.rxd ∧
      t.hist = s.hist ∧ t.flash = s.flash ∧ t.loc.aLo = s.loc.aLo ∧ t.loc.idMatch = s.loc.idMatch ∧ KeepsAddress s t ∧
      KeepsPageState s t

/-- R105 with SLACK_MAX = 0: from the step in which SendByte begins, the line shows period `k` of the frame for a bit period
each, and after ten bit periods the step goes on to the refresh of R193, the byte being part of OUT. -/
def Obligations.ReplyFramesAreSentBitByBit : Prop :=
  ∀ (s : State) (k : Nat), s.cfg.valid = true → idealTiming s.cfg → s.seq = .ack → s.loc.txBit = 0 → k < 10 →
    s.now ≤ s.loc.due → s.txd = .drive (frameLevel s.cfg s.loc.txByte 0) →
    s.UndisturbedUntil (s.loc.due + 9 * s.cfg.bitTicks) →
    ∃ t : State, Host.Core.run core k s = .next t ∧ t.txd = .drive (frameLevel s.cfg s.loc.txByte k) ∧
      t.now = (if k = 0 then s.now else s.loc.due + (k - 1) * s.cfg.bitTicks) ∧
      t.loc.due = s.loc.due + k * s.cfg.bitTicks ∧ t.seq = .ack ∧ t.hist = s.hist ∧
      (k = 9 → step t = exec (decodeOpcode s.op) (sendDone (advanceTo t.loc.due t)))

/-- R102, R28 with SLACK_MAX = 0: a Delay of at most BIT_TICKS returns `n` ticks later, with TCNT at the threshold: the
counter does not wrap before it. -/
def Obligations.DelayEndsAtTheThreshold : Prop :=
  ∀ (s : State) (n : Nat), s.cfg.valid = true → idealTiming s.cfg → n ≤ s.cfg.bitTicks →
    (delay n s).loc.due = s.now + n ∧ (delay n s).tcnt = 0 ∧
    ∀ t, s.now ≤ t → t ≤ s.now + n → (advanceTo t (delay n s)).tcnt = t - s.now

/-- R116, R265: outside RecvByte the block hears nothing: a step from a position that does not listen, unless it is a reset,
takes no byte and leaves RXSR alone. -/
def Obligations.DeafOutsideRecvByte : Prop :=
  ∀ s t : State, s.seq.listening = false → step s = .next t → t.seq ≠ .guard →
    t.hist.got = s.hist.got ∧ t.rxsr = s.rxsr

/-- R197 on the wire, through R112, R113 and R105 with SLACK_MAX = 0: `'A', lo, hi` sent as three frames back to back at the
block's own bit period sets AR and is answered 'Y'; the cycle ends 46 steps later, half a bit period short of 40 bit
periods after the first start bit, back in S_IDLE. -/
def Obligations.LoadAddrOnTheWire : Prop :=
  ∀ (s : State) (ts : Nat) (a : Half), s.cfg.valid = true → idealTiming s.cfg → s.seq = .idle → s.loc.rx = .hunt →
    s.now ≤ ts → s.inp.rxd = framesFrom s.cfg ts (scriptLoadAddr a) →
    s.UndisturbedUntil (ts + 40 * s.cfg.bitTicks) →
    ∃ t : State, Host.Core.run core 46 s = .next t ∧ t.seq = .idle ∧ t.ar = a ∧ t.arWritten = true ∧
      t.hist.out = s.hist.out ++ [0x59] ∧ t.hist.got = s.hist.got ++ scriptLoadAddr a ∧
      t.now = ts + 39 * s.cfg.bitTicks + s.cfg.halfBitTicks ∧ t.wd.cnt = 0 ∧ t.txd = .drive s.cfg.stopLevel

/-! The checksum. -/

/-- R127: word `j` of a buffer is `Buf[2j] + 256 * Buf[2j+1]`; an accumulation step adds it, zero-extended to 32 bits, to ACC
modulo 2^32 (R126); the order of the words makes no difference. -/
def Obligations.AccumulationAddsLittleEndianWords : Prop :=
  ∀ (buf : List Byte) (acc : Acc),
    (wordsOf buf).length = buf.length / 2 ∧
    (∀ j lo hi, buf[2 * j]? = some lo → buf[2 * j + 1]? = some hi → ∃ w, (wordsOf buf)[j]? = some w ∧
      w.toNat = lo.toNat + 256 * hi.toNat ∧ (accumulate acc w).toNat = (acc.toNat + w.toNat) % 2 ^ 32) ∧
    ∀ ws : List Half, (wordsOf buf).Perm ws → ws.foldl accumulate acc = (wordsOf buf).foldl accumulate acc

/-- R129, R126, R130, R134: the closed form of the checksum of an even-length buffer of at most 131072 bytes, `n` being the
exact sum of its little-endian words; longer and odd-length buffers are refused. The names of the two refusals, and that a
buffer which is both odd and too long is refused as odd, are the model's choice (log 32, a DESIGN CHOICE). -/
def Obligations.ChecksumClosedForm : Prop :=
  (∀ (buf : List Byte) (n : Nat), buf.length % 2 = 0 → buf.length ≤ 131072 →
    n = ((wordsOf buf).map BitVec.toNat).sum →
    ∃ a, checksum buf = .next a ∧ a.toNat = (if n = 0 then 0 else (n - 1) % 65535 + 1) ∧ a.toNat < 65536) ∧
  (∀ buf : List Byte, buf.length % 2 = 1 → checksum buf = .refused .checksumOddLength) ∧
  (∀ buf : List Byte, buf.length % 2 = 0 → 131072 < buf.length → checksum buf = .refused .checksumTooLong)

/-- R131: permuting the aligned byte pairs of a buffer does not change the checksum; swapping the bytes inside a word can. -/
def Obligations.ChecksumIgnoresTheOrderOfWords : Prop :=
  (∀ b1 b2 : List Byte, b1.length % 2 = 0 → b2.length % 2 = 0 → (wordsOf b1).Perm (wordsOf b2) → checksum b1 = checksum b2) ∧
  ∃ x y : Byte, checksum [x, y] ≠ checksum [y, x]

/-- R128: two folds are enough for any 32-bit accumulator, and a fold of one with a high half lessens it. -/
def Obligations.TwoFoldsAreEnough : Prop :=
  ∀ acc : Acc, (foldCarry 2 acc).toNat < 65536 ∧
    (65536 ≤ acc.toNat → (foldOnce acc).toNat < acc.toNat) ∧ (foldOnce acc).toNat % 65535 = acc.toNat % 65535

/-! Flash. -/

/-- R143: an erase's completion sets every byte of the page in the one step and no byte outside it. -/
def Obligations.EraseCompletionErasesThePage : Prop :=
  ∀ (s : State) (p : Nat), s.fe = .erasing p →
    (∀ i, i < s.cfg.pageSize → flashGet (engineComplete s).flash (p * s.cfg.pageSize + i) = some s.cfg.erasedByte) ∧
    (∀ a, a < p * s.cfg.pageSize ∨ p * s.cfg.pageSize + s.cfg.pageSize ≤ a →
      flashGet (engineComplete s).flash a = flashGet s.flash a) ∧
    (engineComplete s).fe = .idle ∧ (engineComplete s).readEn = s.readEn

/-- R147, R148, R149: a commit programs its page from FTB as it stood at the issue: at completion the page is that snapshot if
it was entirely erased at the issue, and unspecified otherwise; no byte outside it changes. Which free value stands for an
unspecified byte (log 4), that a page with a byte nothing has written counts as not erased (log 5), and the page of an
address that is not page-aligned or lies outside the region (log 33) are the model's choices. -/
def Obligations.CommitCompletionProgramsTheSnapshot : Prop :=
  ∀ (s t : State) (a : Half), s.ftb.length = s.cfg.pageSize → flashCommit a s = .next t →
    t.flash = s.flash ∧
    (s.pageErased (s.pageOf a) = true → ∀ i, i < s.cfg.pageSize →
      flashGet (engineComplete t).flash (s.pageOf a * s.cfg.pageSize + i) = s.ftb[i]?) ∧
    (s.pageErased (s.pageOf a) = false → ∀ i, i < s.cfg.pageSize →
      flashGet (engineComplete t).flash (s.pageOf a * s.cfg.pageSize + i) = some (Config.freeByte (t.draws + 1) i)) ∧
    (∀ x, x < s.pageOf a * s.cfg.pageSize ∨ s.pageOf a * s.cfg.pageSize + s.cfg.pageSize ≤ x →
      flashGet (engineComplete t).flash x = flashGet s.flash x) ∧
    (engineComplete t).fe = .idle ∧ (engineComplete t).readEn = false

/-- R144, R146, R150: the four operations fault while the engine is busy, a fill at an odd or out-of-page offset is refused,
a fill writes its two bytes of FTB low byte first and nothing else, and re-enabling sets READ_EN. Where a fill has a bad
offset and the engine is busy, both rules claim it, and the refusal comes first: the model's choice (log 31). -/
def Obligations.FlashOperationsAsIssued : Prop :=
  (∀ (s : State) (a w : Half) (o : Nat), s.fe.busy = true →
    flashErase a s = .fault .flashIssueWhileBusy ∧ flashCommit a s = .fault .flashIssueWhileBusy ∧
    flashReenableReads s = .fault .flashIssueWhileBusy ∧
    (o % 2 = 0 → o + 2 ≤ s.cfg.pageSize → flashFill o w s = .fault .flashIssueWhileBusy)) ∧
  (∀ (s : State) (w : Half) (o : Nat), o % 2 = 1 ∨ s.cfg.pageSize < o + 2 → flashFill o w s = .refused .fillOffset) ∧
  (∀ (s : State) (w : Half) (o : Nat), s.fe.busy = false → s.ftb.length = s.cfg.pageSize → o % 2 = 0 →
    o + 2 ≤ s.cfg.pageSize → ∃ t, flashFill o w s = .next t ∧ t.ftb[o]? = some (lowByte w) ∧
      t.ftb[o + 1]? = some (highByte w) ∧ (∀ j, j ≠ o → j ≠ o + 1 → t.ftb[j]? = s.ftb[j]?) ∧ t.flash = s.flash) ∧
  (∀ s : State, s.fe.busy = false → ∃ t, flashReenableReads s = .next t ∧ t.readEn = true ∧ t.flash = s.flash)

/-- R29, R61, R143, R148, R151: the only bytes of flash a step can change are those of the page whose erase or commit was in
flight before it; in particular a command's own action changes none. The premise (of the invariant) rules out states in
which the snapshot of a commit is not one page long. -/
def Obligations.OnlyThePageInFlightChanges : Prop :=
  ∀ (s t : State) (a : Nat), s.EngineOk → step s = .next t → flashGet t.flash a ≠ flashGet s.flash a →
    ∃ p, (s.fe = .erasing p ∨ ∃ snapshot clean, s.fe = .writing p snapshot clean) ∧
      s.pageBase p ≤ a ∧ a < s.pageBase p + s.cfg.pageSize

/-- R152, D17: a flash read returns the stored byte while READ_EN and FE_IDLE, and an unspecified value otherwise, here a
free value of the counter and the address (log 26); two bytes make a little-endian value. -/
def Obligations.FlashReadsNeedReadEnable : Prop :=
  ∀ (s : State) (a : Nat) (b : Byte), flashGet s.flash a = some b →
    (s.readEn = true → s.fe = .idle → s.flashLoad a = b) ∧
    (s.readEn = false ∨ s.fe.busy = true → s.flashLoad a = Config.unreadableByte s.draws a) ∧
    s.memRead a 2 = (s.flashLoad a).toNat + 256 * (s.flashLoad (a + 1)).toNat

/-! Resets, ResetGuard, the watchdog. -/

/-- R221, R229, R44, R45: HardwareReset sets the flag of every cause present, after a power-on's clearing of the others;
control is at S_GUARD, AR is unwritten, the line is not driven, the engine idle, reads enabled, WD_CNT 0; flash outside the
page in flight is kept, all of it when nothing is in flight. -/
def Obligations.HardwareResetTakesControl : Prop :=
  ∀ (s : State) (causes : ResetFlags),
    (hardwareReset causes s).seq = .guard ∧ (hardwareReset causes s).arWritten = false ∧
    (hardwareReset causes s).txd = .z ∧ (hardwareReset causes s).fe = .idle ∧ (hardwareReset causes s).readEn = true ∧
    (hardwareReset causes s).wd.cnt = 0 ∧ (hardwareReset causes s).cfg = s.cfg ∧
    (hardwareReset causes s).rc.ext = (causes.ext || (!causes.por && s.rc.ext)) ∧
    (hardwareReset causes s).rc.wdt = (causes.wdt || (!causes.por && s.rc.wdt)) ∧
    (hardwareReset causes s).rc.por = (causes.por || s.rc.por) ∧
    (hardwareReset causes s).rc.bor = (causes.bor || (!causes.por && s.rc.bor)) ∧
    (s.fe = .idle → (hardwareReset causes s).flash = s.flash) ∧
    (∀ p a, (s.fe = .erasing p ∨ ∃ snapshot clean, s.fe = .writing p snapshot clean) →
      a < p * s.cfg.pageSize ∨ p * s.cfg.pageSize + s.cfg.pageSize ≤ a →
      flashGet (hardwareReset causes s).flash a = flashGet s.flash a)

/-- R220, R221, R229: a reset from outside that comes no later than anything else is the next step, whatever the position: it
takes control to S_GUARD at its instant with its causes latched. -/
def Obligations.OutsideResetPreemptsEverything : Prop :=
  ∀ (s : State) (e : EnvReset) (rest : List EnvReset), s.cfg.valid = true → s.inp.resets = e :: rest → s.now ≤ e.time →
    (∀ w, s.wdtDue = some w → e.time < w) → (∀ w, s.engineDue = some w → e.time ≤ w) →
    (∀ w, s.seqDue = some w → e.time ≤ w) →
    ∃ t, step s = .next t ∧ t.seq = .guard ∧ t.now = e.time ∧ t.rc = s.rc.latch e.flags ∧ t.inp.resets = rest ∧
      (s.fe = .idle → t.flash = s.flash)

/-- R170, R218: an armed watchdog whose count reaches its timeout before anything else happens resets the device with cause
WDT; a disabled one never does (R168). The tick at which the timeout is reached is the model's clock (log 10, a DESIGN
CHOICE), and that the expiry comes before the engine and the sequencer at one tick is its order (log 8, a DESIGN CHOICE). -/
def Obligations.WatchdogExpiryResetsTheDevice : Prop :=
  (∀ s : State, s.cfg.valid = true → s.seq ≠ .guard → s.wd.en = true →
    (∀ w, s.envDue = some w → s.now + (wdtTicks s.cfg s.wd.period - s.wd.cnt) < w) →
    (∀ w, s.engineDue = some w → s.now + (wdtTicks s.cfg s.wd.period - s.wd.cnt) ≤ w) →
    (∀ w, s.seqDue = some w → s.now + (wdtTicks s.cfg s.wd.period - s.wd.cnt) ≤ w) →
    ∃ t, step s = .next t ∧ t.seq = .guard ∧ t.now = s.now + (wdtTicks s.cfg s.wd.period - s.wd.cnt) ∧
      t.rc = { s.rc with wdt := true } ∧ t.arWritten = false) ∧
  (∀ s t : State, s.seq ≠ .guard → s.wd.en = false → s.inp.resets = [] → step s = .next t → t.seq ≠ .guard)

/-- R250 to R253, R174, R180: ResetGuard decides on RC.EXT alone. Set, it clears only that flag, arms the medium timeout,
drives the line idle and listens in S_IDLE; clear, it clears RC.WDT, disables the watchdog and hands control over, without
touching the line. -/
def Obligations.ResetGuardDecidesOnTheExternalFlag : Prop :=
  ∀ s : State, s.cfg.valid = true → s.seq = .guard → s.UndisturbedUntil s.now →
    (s.rc.ext = true → ∃ t, step s = .next t ∧ t.seq = .idle ∧ t.loc.rx = .hunt ∧ t.rc = { s.rc with ext := false } ∧
      t.wd = { en := true, period := .medium, cnt := 0 } ∧ t.txd = .drive s.cfg.stopLevel ∧ KeepsAddress s t ∧
      KeepsPageState s t ∧ t.flash = s.flash ∧ t.hist = s.hist) ∧
    (s.rc.ext = false → ∃ t, step s = .next t ∧ t.seq = .app ∧ t.applicationEntry = some s.cfg.appEntry ∧
      t.rc = { s.rc with wdt := false } ∧ t.wd.en = false ∧ t.txd = s.txd ∧ KeepsAddress s t ∧ KeepsPageState s t ∧
      t.flash = s.flash ∧ t.hist = s.hist)

/-! Rules about the whole machine. -/

/-- R21, R204, R197: AR is changed by nothing but a hardware reset, LOADADDR's second byte, and the end of a successful
WRITEPAGE, which adds exactly one page. -/
def Obligations.OnlyThreeThingsChangeTheAddressRegister : Prop :=
  ∀ s t : State, step s = .next t → t.seq ≠ .guard → (t.ar ≠ s.ar ∨ t.arWritten ≠ s.arWritten) →
    (s.seq = .addr 1 ∧ decodeOpcode s.op = .loadAddr ∧ t.arWritten = true) ∨
    (s.seq = .wProg .waitCommit ∧ t.ar = s.ar + BitVec.ofNat 16 s.cfg.pageSize ∧ t.arWritten = s.arWritten ∧ t.ok = true)

/-- R237, R247, R259: control reaches the application only from ResetGuard with RC.EXT clear, whatever the flash holds, and
leaves it only by a hardware reset; with none to come nothing changes any more, the step answering the state itself by the
model's choice (log 35). The premise (of the invariant) rules out states outside the loop with a flash operation in flight. -/
def Obligations.TheApplicationIsEnteredOnlyByResetGuard : Prop :=
  ∀ s t : State, s.BootOk → step s = .next t →
    (t.seq = .app → s.seq ≠ .app → s.seq = .guard ∧ s.rc.ext = false ∧ t.flash = s.flash ∧ t.hist = s.hist) ∧
    (s.seq = .app → t.seq = .guard ∨ (t = s ∧ s.inp.resets = []))

/-- R178, R33: the bootloader never sets a reset-cause flag and never clears RC.POR or RC.BOR; only a hardware reset changes
those two or sets any. -/
def Obligations.OnlyResetsSetCauseFlags : Prop :=
  ∀ s t : State, step s = .next t → t.seq ≠ .guard →
    t.rc.por = s.rc.por ∧ t.rc.bor = s.rc.bor ∧ (t.rc.ext = true → s.rc.ext = true) ∧ (t.rc.wdt = true → s.rc.wdt = true)

/-- R193, R165, R207: in the loop, the watchdog's count is set back, to zero, only by the refresh after an acknowledgment and
by the dispatch of RESET, which arms the short timeout. -/
def Obligations.TheWatchdogIsRefreshedOnlyAfterAReply : Prop :=
  ∀ s t : State, step s = .next t → s.seq ≠ .guard → t.seq ≠ .guard → t.wd.cnt < s.wd.cnt →
    (s.seq = .ack ∧ t.seq = .idle ∧ t.wd.cnt = 0) ∨ (s.seq = .idle ∧ t.seq = .spin ∧ t.wd.cnt = 0)

/-- R85, R194(c): a step that is not a reset either ends a command's acknowledgment, going from S_ACK to S_IDLE, and then OUT
grows by exactly the byte whose frame was being sent, or it does not, and then OUT stays as it is. -/
def Obligations.OneReplyPerCommand : Prop :=
  ∀ s t : State, step s = .next t → t.seq ≠ .guard →
    (s.seq = .ack ∧ t.seq = .idle ∧ t.hist.out = s.hist.out ++ [s.loc.txByte]) ∨
    (¬(s.seq = .ack ∧ t.seq = .idle) ∧ t.hist.out = s.hist.out)
end

