-- ==== Sys2Proof/Laws/Decode.lean ====
section
/-! SUPPORT. Encoding laws: the opcode map against its encoder, and the little-endian pairs. -/

namespace Sys2Proof

/-- Outside the four opcodes every byte is Unknown. -/
theorem decodeOpcode_of_ne {b : Byte} (h1 : b ≠ 0x49) (h2 : b ≠ 0x41) (h3 : b ≠ 0x57) (h4 : b ≠ 0x52) :
    decodeOpcode b = .unknown b := by
  rw [decodeOpcode, if_neg h1, if_neg h2, if_neg h3, if_neg h4]

theorem definedOpcodes_not_contains {b : Byte} (h : definedOpcodes.contains b = false) :
    b ≠ 0x49 ∧ b ≠ 0x41 ∧ b ≠ 0x57 ∧ b ≠ 0x52 := by
  simp only [definedOpcodes, List.contains_cons, List.contains_nil, Bool.or_eq_false_iff, beq_eq_false_iff_ne] at h
  exact ⟨h.1, h.2.1, h.2.2.1, h.2.2.2.1⟩

theorem decodeOpcode_encodeOpcode (i : Instr) (h : i.wf = true) : decodeOpcode (encodeOpcode i) = i := by
  cases i with
  | unknown b =>
    obtain ⟨h1, h2, h3, h4⟩ := definedOpcodes_not_contains (Bool.not_eq_true' _ ▸ h : definedOpcodes.contains b = false)
    exact decodeOpcode_of_ne h1 h2 h3 h4
  | _ => decide

/-- Which opcode each command is decoded from. -/
theorem decodeOpcode_eq_writePage {b : Byte} : decodeOpcode b = .writePage ↔ b = 0x57 := by
  revert b; decide

theorem decodeOpcode_eq_reset {b : Byte} : decodeOpcode b = .reset ↔ b = 0x52 := by
  revert b; decide

theorem lowByte_toNat (a : Half) : (lowByte a).toNat = a.toNat % 256 := by simp [lowByte, BitVec.extractLsb'_toNat]

theorem highByte_toNat (a : Half) : (highByte a).toNat = a.toNat / 256 := by
  simp [highByte, BitVec.extractLsb'_toNat, Nat.shiftRight_eq_div_pow]; have := a.isLt; omega

theorem le16_toNat (lo hi : Byte) : (le16 lo hi).toNat = lo.toNat + 256 * hi.toNat := by
  simp only [le16, BitVec.toNat_append]
  rw [← Nat.shiftLeft_add_eq_or_of_lt lo.isLt, Nat.shiftLeft_eq]; omega

@[simp] theorem le16_low_high (a : Half) : le16 (lowByte a) (highByte a) = a := by
  rw [← BitVec.toNat_inj, le16_toNat, lowByte_toNat, highByte_toNat]; omega

@[simp] theorem lowByte_le16 (lo hi : Byte) : lowByte (le16 lo hi) = lo := by
  rw [← BitVec.toNat_inj, lowByte_toNat, le16_toNat]; have := lo.isLt; omega

@[simp] theorem highByte_le16 (lo hi : Byte) : highByte (le16 lo hi) = hi := by
  rw [← BitVec.toNat_inj, highByte_toNat, le16_toNat]; have := lo.isLt; omega

end Sys2Proof
end

