-- ==== Sys2Proof/Laws/State.lean ====
section
/-! SUPPORT. For each named update of the state, one lemma with one equation per field, so that no proof unfolds a record
update. simp uses each equation of such a conjunction as a rewriting rule of its own. -/

namespace Sys2Proof.Machine

@[simp] theorem advanceTo_fields (t : Nat) (s : State) :
    (advanceTo t s).cfg = s.cfg ∧ (advanceTo t s).ar = s.ar ∧ (advanceTo t s).arWritten = s.arWritten ∧
    (advanceTo t s).pb = s.pb ∧ (advanceTo t s).ckRx = s.ckRx ∧ (advanceTo t s).acc = s.acc ∧
    (advanceTo t s).op = s.op ∧ (advanceTo t s).ok = s.ok ∧ (advanceTo t s).seq = s.seq ∧
    (advanceTo t s).rxsr = s.rxsr ∧ (advanceTo t s).txd = s.txd ∧
    (advanceTo t s).tcnt = (s.tcnt + (t - s.now)) % 2 ^ s.cfg.timerWidth ∧ (advanceTo t s).flash = s.flash ∧
    (advanceTo t s).ftb = s.ftb ∧ (advanceTo t s).fe = s.fe ∧ (advanceTo t s).feDue = s.feDue ∧
    (advanceTo t s).readEn = s.readEn ∧ (advanceTo t s).rc = s.rc ∧
    (advanceTo t s).wd = { s.wd with cnt := if s.wd.en then s.wd.cnt + (t - s.now) else s.wd.cnt } ∧
    (advanceTo t s).loc = s.loc ∧ (advanceTo t s).now = t ∧ (advanceTo t s).inp = s.inp ∧
    (advanceTo t s).draws = s.draws ∧ (advanceTo t s).hist = s.hist := by
  and_intros <;> rfl

@[simp] theorem dropSlack_fields (s : State) :
    (dropSlack s).cfg = s.cfg ∧ (dropSlack s).ar = s.ar ∧ (dropSlack s).arWritten = s.arWritten ∧
    (dropSlack s).pb = s.pb ∧ (dropSlack s).ckRx = s.ckRx ∧ (dropSlack s).acc = s.acc ∧ (dropSlack s).op = s.op ∧
    (dropSlack s).ok = s.ok ∧ (dropSlack s).seq = s.seq ∧ (dropSlack s).rxsr = s.rxsr ∧ (dropSlack s).txd = s.txd ∧
    (dropSlack s).tcnt = s.tcnt ∧ (dropSlack s).flash = s.flash ∧ (dropSlack s).ftb = s.ftb ∧
    (dropSlack s).fe = s.fe ∧ (dropSlack s).feDue = s.feDue ∧ (dropSlack s).readEn = s.readEn ∧
    (dropSlack s).rc = s.rc ∧ (dropSlack s).wd = s.wd ∧ (dropSlack s).loc = s.loc ∧ (dropSlack s).now = s.now ∧
    (dropSlack s).inp = { s.inp with slacks := s.inp.slacks.drop 1 } ∧ (dropSlack s).draws = s.draws + 1 ∧
    (dropSlack s).hist = s.hist := by
  and_intros <;> rfl

@[simp] theorem dropLatency_fields (s : State) :
    (dropLatency s).cfg = s.cfg ∧ (dropLatency s).ar = s.ar ∧ (dropLatency s).arWritten = s.arWritten ∧
    (dropLatency s).pb = s.pb ∧ (dropLatency s).ckRx = s.ckRx ∧ (dropLatency s).acc = s.acc ∧
    (dropLatency s).op = s.op ∧ (dropLatency s).ok = s.ok ∧ (dropLatency s).seq = s.seq ∧
    (dropLatency s).rxsr = s.rxsr ∧ (dropLatency s).txd = s.txd ∧ (dropLatency s).tcnt = s.tcnt ∧
    (dropLatency s).flash = s.flash ∧ (dropLatency s).ftb = s.ftb ∧ (dropLatency s).fe = s.fe ∧
    (dropLatency s).feDue = s.feDue ∧ (dropLatency s).readEn = s.readEn ∧ (dropLatency s).rc = s.rc ∧
    (dropLatency s).wd = s.wd ∧ (dropLatency s).loc = s.loc ∧ (dropLatency s).now = s.now ∧
    (dropLatency s).inp = { s.inp with latencies := s.inp.latencies.drop 1 } ∧ (dropLatency s).draws = s.draws + 1 ∧
    (dropLatency s).hist = s.hist := by
  and_intros <;> rfl

@[simp] theorem delay_fields (n : Nat) (s : State) :
    (delay n s).cfg = s.cfg ∧ (delay n s).ar = s.ar ∧ (delay n s).arWritten = s.arWritten ∧ (delay n s).pb = s.pb ∧
    (delay n s).ckRx = s.ckRx ∧ (delay n s).acc = s.acc ∧ (delay n s).op = s.op ∧ (delay n s).ok = s.ok ∧
    (delay n s).seq = s.seq ∧ (delay n s).rxsr = s.rxsr ∧ (delay n s).txd = s.txd ∧ (delay n s).tcnt = 0 ∧
    (delay n s).flash = s.flash ∧ (delay n s).ftb = s.ftb ∧ (delay n s).fe = s.fe ∧ (delay n s).feDue = s.feDue ∧
    (delay n s).readEn = s.readEn ∧ (delay n s).rc = s.rc ∧ (delay n s).wd = s.wd ∧
    (delay n s).loc = { s.loc with due := s.now + n + s.nextSlack } ∧ (delay n s).now = s.now ∧
    (delay n s).inp = { s.inp with slacks := s.inp.slacks.drop 1 } ∧ (delay n s).draws = s.draws + 1 ∧
    (delay n s).hist = s.hist := by
  and_intros <;> rfl

@[simp] theorem note_fields (l : Label) (s : State) :
    (note l s).cfg = s.cfg ∧ (note l s).ar = s.ar ∧ (note l s).arWritten = s.arWritten ∧ (note l s).pb = s.pb ∧
    (note l s).ckRx = s.ckRx ∧ (note l s).acc = s.acc ∧ (note l s).op = s.op ∧ (note l s).ok = s.ok ∧
    (note l s).seq = s.seq ∧ (note l s).rxsr = s.rxsr ∧ (note l s).txd = s.txd ∧ (note l s).tcnt = s.tcnt ∧
    (note l s).flash = s.flash ∧ (note l s).ftb = s.ftb ∧ (note l s).fe = s.fe ∧ (note l s).feDue = s.feDue ∧
    (note l s).readEn = s.readEn ∧ (note l s).rc = s.rc ∧ (note l s).wd = s.wd ∧ (note l s).loc = s.loc ∧
    (note l s).now = s.now ∧ (note l s).inp = s.inp ∧ (note l s).draws = s.draws ∧
    (note l s).hist = { s.hist with trace := s.hist.trace ++ [l] } := by
  and_intros <;> rfl

@[simp] theorem transportInit_fields (s : State) :
    (transportInit s).cfg = s.cfg ∧ (transportInit s).ar = s.ar ∧ (transportInit s).arWritten = s.arWritten ∧
    (transportInit s).pb = s.pb ∧ (transportInit s).ckRx = s.ckRx ∧ (transportInit s).acc = s.acc ∧
    (transportInit s).op = s.op ∧ (transportInit s).ok = s.ok ∧ (transportInit s).seq = s.seq ∧
    (transportInit s).rxsr = s.rxsr ∧ (transportInit s).txd = .drive s.cfg.stopLevel ∧
    (transportInit s).tcnt = s.tcnt ∧ (transportInit s).flash = s.flash ∧ (transportInit s).ftb = s.ftb ∧
    (transportInit s).fe = s.fe ∧ (transportInit s).feDue = s.feDue ∧ (transportInit s).readEn = s.readEn ∧
    (transportInit s).rc = s.rc ∧ (transportInit s).wd = s.wd ∧ (transportInit s).loc = s.loc ∧
    (transportInit s).now = s.now ∧ (transportInit s).inp = s.inp ∧ (transportInit s).draws = s.draws ∧
    (transportInit s).hist = s.hist := by
  and_intros <;> rfl

@[simp] theorem sendByte_fields (b : Byte) (s : State) :
    (sendByte b s).cfg = s.cfg ∧ (sendByte b s).ar = s.ar ∧ (sendByte b s).arWritten = s.arWritten ∧
    (sendByte b s).pb = s.pb ∧ (sendByte b s).ckRx = s.ckRx ∧ (sendByte b s).acc = s.acc ∧ (sendByte b s).op = s.op ∧
    (sendByte b s).ok = s.ok ∧ (sendByte b s).seq = s.seq ∧ (sendByte b s).rxsr = s.rxsr ∧
    (sendByte b s).txd = .drive s.cfg.startLevel ∧ (sendByte b s).tcnt = 0 ∧ (sendByte b s).flash = s.flash ∧
    (sendByte b s).ftb = s.ftb ∧ (sendByte b s).fe = s.fe ∧ (sendByte b s).feDue = s.feDue ∧
    (sendByte b s).readEn = s.readEn ∧ (sendByte b s).rc = s.rc ∧ (sendByte b s).wd = s.wd ∧
    (sendByte b s).loc = { s.loc with txByte := b, txBit := 0, due := s.now + s.cfg.bitTicks + s.nextSlack } ∧
    (sendByte b s).now = s.now ∧ (sendByte b s).inp = { s.inp with slacks := s.inp.slacks.drop 1 } ∧
    (sendByte b s).draws = s.draws + 1 ∧ (sendByte b s).hist = s.hist := by
  and_intros <;> rfl

@[simp] theorem sendPeriod_fields (k : Nat) (s : State) :
    (sendPeriod k s).cfg = s.cfg ∧ (sendPeriod k s).ar = s.ar ∧ (sendPeriod k s).arWritten = s.arWritten ∧
    (sendPeriod k s).pb = s.pb ∧ (sendPeriod k s).ckRx = s.ckRx ∧ (sendPeriod k s).acc = s.acc ∧
    (sendPeriod k s).op = s.op ∧ (sendPeriod k s).ok = s.ok ∧ (sendPeriod k s).seq = s.seq ∧
    (sendPeriod k s).rxsr = s.rxsr ∧ (sendPeriod k s).txd = .drive (frameLevel s.cfg s.loc.txByte k) ∧
    (sendPeriod k s).tcnt = 0 ∧ (sendPeriod k s).flash = s.flash ∧ (sendPeriod k s).ftb = s.ftb ∧
    (sendPeriod k s).fe = s.fe ∧ (sendPeriod k s).feDue = s.feDue ∧ (sendPeriod k s).readEn = s.readEn ∧
    (sendPeriod k s).rc = s.rc ∧ (sendPeriod k s).wd = s.wd ∧
    (sendPeriod k s).loc = { s.loc with txBit := k, due := s.now + s.cfg.bitTicks + s.nextSlack } ∧
    (sendPeriod k s).now = s.now ∧ (sendPeriod k s).inp = { s.inp with slacks := s.inp.slacks.drop 1 } ∧
    (sendPeriod k s).draws = s.draws + 1 ∧ (sendPeriod k s).hist = s.hist := by
  and_intros <;> rfl

@[simp] theorem sendDone_fields (s : State) :
    (sendDone s).cfg = s.cfg ∧ (sendDone s).ar = s.ar ∧ (sendDone s).arWritten = s.arWritten ∧
    (sendDone s).pb = s.pb ∧ (sendDone s).ckRx = s.ckRx ∧ (sendDone s).acc = s.acc ∧ (sendDone s).op = s.op ∧
    (sendDone s).ok = s.ok ∧ (sendDone s).seq = s.seq ∧ (sendDone s).rxsr = s.rxsr ∧ (sendDone s).txd = s.txd ∧
    (sendDone s).tcnt = s.tcnt ∧ (sendDone s).flash = s.flash ∧ (sendDone s).ftb = s.ftb ∧ (sendDone s).fe = s.fe ∧
    (sendDone s).feDue = s.feDue ∧ (sendDone s).readEn = s.readEn ∧ (sendDone s).rc = s.rc ∧ (sendDone s).wd = s.wd ∧
    (sendDone s).loc = s.loc ∧ (sendDone s).now = s.now ∧ (sendDone s).inp = s.inp ∧ (sendDone s).draws = s.draws ∧
    (sendDone s).hist = { s.hist with out := s.hist.out ++ [s.loc.txByte] } := by
  and_intros <;> rfl

@[simp] theorem recvByte_fields (s : State) :
    (recvByte s).cfg = s.cfg ∧ (recvByte s).ar = s.ar ∧ (recvByte s).arWritten = s.arWritten ∧
    (recvByte s).pb = s.pb ∧ (recvByte s).ckRx = s.ckRx ∧ (recvByte s).acc = s.acc ∧ (recvByte s).op = s.op ∧
    (recvByte s).ok = s.ok ∧ (recvByte s).seq = s.seq ∧ (recvByte s).rxsr = s.rxsr ∧ (recvByte s).txd = s.txd ∧
    (recvByte s).tcnt = s.tcnt ∧ (recvByte s).flash = s.flash ∧ (recvByte s).ftb = s.ftb ∧ (recvByte s).fe = s.fe ∧
    (recvByte s).feDue = s.feDue ∧ (recvByte s).readEn = s.readEn ∧ (recvByte s).rc = s.rc ∧ (recvByte s).wd = s.wd ∧
    (recvByte s).loc = { s.loc with rx := .hunt } ∧ (recvByte s).now = s.now ∧ (recvByte s).inp = s.inp ∧
    (recvByte s).draws = s.draws ∧ (recvByte s).hist = s.hist := by
  and_intros <;> rfl

@[simp] theorem recvSeen_fields (s : State) :
    (recvSeen s).cfg = s.cfg ∧ (recvSeen s).ar = s.ar ∧ (recvSeen s).arWritten = s.arWritten ∧
    (recvSeen s).pb = s.pb ∧ (recvSeen s).ckRx = s.ckRx ∧ (recvSeen s).acc = s.acc ∧ (recvSeen s).op = s.op ∧
    (recvSeen s).ok = s.ok ∧ (recvSeen s).seq = s.seq ∧ (recvSeen s).rxsr = s.rxsr ∧ (recvSeen s).txd = s.txd ∧
    (recvSeen s).tcnt = s.tcnt ∧ (recvSeen s).flash = s.flash ∧ (recvSeen s).ftb = s.ftb ∧ (recvSeen s).fe = s.fe ∧
    (recvSeen s).feDue = s.feDue ∧ (recvSeen s).readEn = s.readEn ∧ (recvSeen s).rc = s.rc ∧ (recvSeen s).wd = s.wd ∧
    (recvSeen s).loc = { s.loc with rx := .poll, due := s.now + s.nextSlack } ∧ (recvSeen s).now = s.now ∧
    (recvSeen s).inp = { s.inp with slacks := s.inp.slacks.drop 1 } ∧ (recvSeen s).draws = s.draws + 1 ∧
    (recvSeen s).hist = s.hist := by
  and_intros <;> rfl

@[simp] theorem recvDone_fields (s : State) :
    (recvDone s).cfg = s.cfg ∧ (recvDone s).ar = s.ar ∧ (recvDone s).arWritten = s.arWritten ∧
    (recvDone s).pb = s.pb ∧ (recvDone s).ckRx = s.ckRx ∧ (recvDone s).acc = s.acc ∧ (recvDone s).op = s.op ∧
    (recvDone s).ok = s.ok ∧ (recvDone s).seq = s.seq ∧ (recvDone s).rxsr = s.rxsr ∧ (recvDone s).txd = s.txd ∧
    (recvDone s).tcnt = s.tcnt ∧ (recvDone s).flash = s.flash ∧ (recvDone s).ftb = s.ftb ∧ (recvDone s).fe = s.fe ∧
    (recvDone s).feDue = s.feDue ∧ (recvDone s).readEn = s.readEn ∧ (recvDone s).rc = s.rc ∧ (recvDone s).wd = s.wd ∧
    (recvDone s).loc = s.loc ∧ (recvDone s).now = s.now ∧ (recvDone s).inp = s.inp ∧ (recvDone s).draws = s.draws ∧
    (recvDone s).hist = { s.hist with got := s.hist.got ++ [s.rxsr] } := by
  and_intros <;> rfl

@[simp] theorem recvFrameError_fields (s : State) :
    (recvFrameError s).cfg = s.cfg ∧ (recvFrameError s).ar = s.ar ∧ (recvFrameError s).arWritten = s.arWritten ∧
    (recvFrameError s).pb = s.pb ∧ (recvFrameError s).ckRx = s.ckRx ∧ (recvFrameError s).acc = s.acc ∧
    (recvFrameError s).op = s.op ∧ (recvFrameError s).ok = s.ok ∧ (recvFrameError s).seq = s.seq ∧
    (recvFrameError s).rxsr = s.rxsr ∧ (recvFrameError s).txd = s.txd ∧ (recvFrameError s).tcnt = s.tcnt ∧
    (recvFrameError s).flash = s.flash ∧ (recvFrameError s).ftb = s.ftb ∧ (recvFrameError s).fe = s.fe ∧
    (recvFrameError s).feDue = s.feDue ∧ (recvFrameError s).readEn = s.readEn ∧ (recvFrameError s).rc = s.rc ∧
    (recvFrameError s).wd = s.wd ∧ (recvFrameError s).loc = { s.loc with rx := .hunt } ∧
    (recvFrameError s).now = s.now ∧ (recvFrameError s).inp = s.inp ∧ (recvFrameError s).draws = s.draws ∧
    (recvFrameError s).hist = { s.hist with trace := s.hist.trace ++ [.frameError] } := by
  and_intros <;> rfl

@[simp] theorem listenAt_fields (p : Seq) (s : State) :
    (listenAt p s).cfg = s.cfg ∧ (listenAt p s).ar = s.ar ∧ (listenAt p s).arWritten = s.arWritten ∧
    (listenAt p s).pb = s.pb ∧ (listenAt p s).ckRx = s.ckRx ∧ (listenAt p s).acc = s.acc ∧ (listenAt p s).op = s.op ∧
    (listenAt p s).ok = s.ok ∧ (listenAt p s).seq = p ∧ (listenAt p s).rxsr = s.rxsr ∧ (listenAt p s).txd = s.txd ∧
    (listenAt p s).tcnt = s.tcnt ∧ (listenAt p s).flash = s.flash ∧ (listenAt p s).ftb = s.ftb ∧
    (listenAt p s).fe = s.fe ∧ (listenAt p s).feDue = s.feDue ∧ (listenAt p s).readEn = s.readEn ∧
    (listenAt p s).rc = s.rc ∧ (listenAt p s).wd = s.wd ∧ (listenAt p s).loc = { s.loc with rx := .hunt } ∧
    (listenAt p s).now = s.now ∧ (listenAt p s).inp = s.inp ∧ (listenAt p s).draws = s.draws ∧
    (listenAt p s).hist = s.hist := by
  and_intros <;> rfl

@[simp] theorem acknowledge_fields (r : Bool) (s : State) :
    (acknowledge r s).cfg = s.cfg ∧ (acknowledge r s).ar = s.ar ∧ (acknowledge r s).arWritten = s.arWritten ∧
    (acknowledge r s).pb = s.pb ∧ (acknowledge r s).ckRx = s.ckRx ∧ (acknowledge r s).acc = s.acc ∧
    (acknowledge r s).op = s.op ∧ (acknowledge r s).ok = r ∧ (acknowledge r s).seq = .ack ∧
    (acknowledge r s).rxsr = s.rxsr ∧ (acknowledge r s).txd = .drive s.cfg.startLevel ∧ (acknowledge r s).tcnt = 0 ∧
    (acknowledge r s).flash = s.flash ∧ (acknowledge r s).ftb = s.ftb ∧ (acknowledge r s).fe = s.fe ∧
    (acknowledge r s).feDue = s.feDue ∧ (acknowledge r s).readEn = s.readEn ∧ (acknowledge r s).rc = s.rc ∧
    (acknowledge r s).wd = s.wd ∧
    (acknowledge r s).loc = { s.loc with txByte := ackByte r, txBit := 0, due := s.now + s.cfg.bitTicks + s.nextSlack } ∧
    (acknowledge r s).now = s.now ∧ (acknowledge r s).inp = { s.inp with slacks := s.inp.slacks.drop 1 } ∧
    (acknowledge r s).draws = s.draws + 1 ∧ (acknowledge r s).hist = s.hist := by
  and_intros <;> rfl

@[simp] theorem failWith_fields (l : Label) (s : State) :
    (failWith l s).cfg = s.cfg ∧ (failWith l s).ar = s.ar ∧ (failWith l s).arWritten = s.arWritten ∧
    (failWith l s).pb = s.pb ∧ (failWith l s).ckRx = s.ckRx ∧ (failWith l s).acc = s.acc ∧ (failWith l s).op = s.op ∧
    (failWith l s).ok = false ∧ (failWith l s).seq = .ack ∧ (failWith l s).rxsr = s.rxsr ∧
    (failWith l s).txd = .drive s.cfg.startLevel ∧ (failWith l s).tcnt = 0 ∧ (failWith l s).flash = s.flash ∧
    (failWith l s).ftb = s.ftb ∧ (failWith l s).fe = s.fe ∧ (failWith l s).feDue = s.feDue ∧
    (failWith l s).readEn = s.readEn ∧ (failWith l s).rc = s.rc ∧ (failWith l s).wd = s.wd ∧
    (failWith l s).loc = { s.loc with txByte := ackByte false, txBit := 0, due := s.now + s.cfg.bitTicks + s.nextSlack } ∧
    (failWith l s).now = s.now ∧ (failWith l s).inp = { s.inp with slacks := s.inp.slacks.drop 1 } ∧
    (failWith l s).draws = s.draws + 1 ∧ (failWith l s).hist = { s.hist with trace := s.hist.trace ++ [l] } := by
  and_intros <;> rfl

@[simp] theorem finishCycle_fields (s : State) :
    (finishCycle s).cfg = s.cfg ∧ (finishCycle s).ar = s.ar ∧ (finishCycle s).arWritten = s.arWritten ∧
    (finishCycle s).pb = s.pb ∧ (finishCycle s).ckRx = s.ckRx ∧ (finishCycle s).acc = s.acc ∧
    (finishCycle s).op = s.op ∧ (finishCycle s).ok = s.ok ∧ (finishCycle s).seq = .idle ∧
    (finishCycle s).rxsr = s.rxsr ∧ (finishCycle s).txd = s.txd ∧ (finishCycle s).tcnt = s.tcnt ∧
    (finishCycle s).flash = s.flash ∧ (finishCycle s).ftb = s.ftb ∧ (finishCycle s).fe = s.fe ∧
    (finishCycle s).feDue = s.feDue ∧ (finishCycle s).readEn = s.readEn ∧ (finishCycle s).rc = s.rc ∧
    (finishCycle s).wd = { s.wd with cnt := 0 } ∧ (finishCycle s).loc = { s.loc with rx := .hunt } ∧
    (finishCycle s).now = s.now ∧ (finishCycle s).inp = s.inp ∧ (finishCycle s).draws = s.draws ∧
    (finishCycle s).hist = s.hist := by
  and_intros <;> rfl

@[simp] theorem byteSent_fields (s : State) :
    (byteSent s).cfg = s.cfg ∧ (byteSent s).ar = s.ar ∧ (byteSent s).arWritten = s.arWritten ∧
    (byteSent s).pb = s.pb ∧ (byteSent s).ckRx = s.ckRx ∧ (byteSent s).acc = s.acc ∧ (byteSent s).op = s.op ∧
    (byteSent s).ok = s.ok ∧ (byteSent s).seq = s.seq ∧ (byteSent s).rxsr = s.rxsr ∧
    (byteSent s).txd = .drive s.cfg.stopLevel ∧ (byteSent s).tcnt = s.tcnt ∧ (byteSent s).flash = s.flash ∧
    (byteSent s).ftb = s.ftb ∧ (byteSent s).fe = s.fe ∧ (byteSent s).feDue = s.feDue ∧
    (byteSent s).readEn = s.readEn ∧ (byteSent s).rc = s.rc ∧ (byteSent s).wd = s.wd ∧
    (byteSent s).loc = { s.loc with txBit := 9 } ∧ (byteSent s).now = s.now ∧ (byteSent s).inp = s.inp ∧
    (byteSent s).draws = s.draws ∧ (byteSent s).hist = { s.hist with out := s.hist.out ++ [s.loc.txByte] } := by
  and_intros <;> rfl

@[simp] theorem wdtArm_fields (p : WdtPeriod) (s : State) :
    (wdtArm p s).cfg = s.cfg ∧ (wdtArm p s).ar = s.ar ∧ (wdtArm p s).arWritten = s.arWritten ∧
    (wdtArm p s).pb = s.pb ∧ (wdtArm p s).ckRx = s.ckRx ∧ (wdtArm p s).acc = s.acc ∧ (wdtArm p s).op = s.op ∧
    (wdtArm p s).ok = s.ok ∧ (wdtArm p s).seq = s.seq ∧ (wdtArm p s).rxsr = s.rxsr ∧ (wdtArm p s).txd = s.txd ∧
    (wdtArm p s).tcnt = s.tcnt ∧ (wdtArm p s).flash = s.flash ∧ (wdtArm p s).ftb = s.ftb ∧ (wdtArm p s).fe = s.fe ∧
    (wdtArm p s).feDue = s.feDue ∧ (wdtArm p s).readEn = s.readEn ∧ (wdtArm p s).rc = s.rc ∧
    (wdtArm p s).wd = { en := true, period := p, cnt := 0 } ∧ (wdtArm p s).loc = s.loc ∧ (wdtArm p s).now = s.now ∧
    (wdtArm p s).inp = s.inp ∧ (wdtArm p s).draws = s.draws ∧ (wdtArm p s).hist = s.hist := by
  and_intros <;> rfl

@[simp] theorem wdtRefresh_fields (s : State) :
    (wdtRefresh s).cfg = s.cfg ∧ (wdtRefresh s).ar = s.ar ∧ (wdtRefresh s).arWritten = s.arWritten ∧
    (wdtRefresh s).pb = s.pb ∧ (wdtRefresh s).ckRx = s.ckRx ∧ (wdtRefresh s).acc = s.acc ∧ (wdtRefresh s).op = s.op ∧
    (wdtRefresh s).ok = s.ok ∧ (wdtRefresh s).seq = s.seq ∧ (wdtRefresh s).rxsr = s.rxsr ∧
    (wdtRefresh s).txd = s.txd ∧ (wdtRefresh s).tcnt = s.tcnt ∧ (wdtRefresh s).flash = s.flash ∧
    (wdtRefresh s).ftb = s.ftb ∧ (wdtRefresh s).fe = s.fe ∧ (wdtRefresh s).feDue = s.feDue ∧
    (wdtRefresh s).readEn = s.readEn ∧ (wdtRefresh s).rc = s.rc ∧ (wdtRefresh s).wd = { s.wd with cnt := 0 } ∧
    (wdtRefresh s).loc = s.loc ∧ (wdtRefresh s).now = s.now ∧ (wdtRefresh s).inp = s.inp ∧
    (wdtRefresh s).draws = s.draws ∧ (wdtRefresh s).hist = s.hist := by
  and_intros <;> rfl

@[simp] theorem wdtDisable_fields (s : State) :
    (wdtDisable s).cfg = s.cfg ∧ (wdtDisable s).ar = s.ar ∧ (wdtDisable s).arWritten = s.arWritten ∧
    (wdtDisable s).pb = s.pb ∧ (wdtDisable s).ckRx = s.ckRx ∧ (wdtDisable s).acc = s.acc ∧ (wdtDisable s).op = s.op ∧
    (wdtDisable s).ok = s.ok ∧ (wdtDisable s).seq = s.seq ∧ (wdtDisable s).rxsr = s.rxsr ∧
    (wdtDisable s).txd = s.txd ∧ (wdtDisable s).tcnt = s.tcnt ∧ (wdtDisable s).flash = s.flash ∧
    (wdtDisable s).ftb = s.ftb ∧ (wdtDisable s).fe = s.fe ∧ (wdtDisable s).feDue = s.feDue ∧
    (wdtDisable s).readEn = s.readEn ∧ (wdtDisable s).rc = s.rc ∧ (wdtDisable s).wd = { s.wd with en := false } ∧
    (wdtDisable s).loc = s.loc ∧ (wdtDisable s).now = s.now ∧ (wdtDisable s).inp = s.inp ∧
    (wdtDisable s).draws = s.draws ∧ (wdtDisable s).hist = s.hist := by
  and_intros <;> rfl

@[simp] theorem rcClearExt_fields (s : State) :
    (rcClearExt s).cfg = s.cfg ∧ (rcClearExt s).ar = s.ar ∧ (rcClearExt s).arWritten = s.arWritten ∧
    (rcClearExt s).pb = s.pb ∧ (rcClearExt s).ckRx = s.ckRx ∧ (rcClearExt s).acc = s.acc ∧ (rcClearExt s).op = s.op ∧
    (rcClearExt s).ok = s.ok ∧ (rcClearExt s).seq = s.seq ∧ (rcClearExt s).rxsr = s.rxsr ∧
    (rcClearExt s).txd = s.txd ∧ (rcClearExt s).tcnt = s.tcnt ∧ (rcClearExt s).flash = s.flash ∧
    (rcClearExt s).ftb = s.ftb ∧ (rcClearExt s).fe = s.fe ∧ (rcClearExt s).feDue = s.feDue ∧
    (rcClearExt s).readEn = s.readEn ∧ (rcClearExt s).rc = { s.rc with ext := false } ∧ (rcClearExt s).wd = s.wd ∧
    (rcClearExt s).loc = s.loc ∧ (rcClearExt s).now = s.now ∧ (rcClearExt s).inp = s.inp ∧
    (rcClearExt s).draws = s.draws ∧ (rcClearExt s).hist = s.hist := by
  and_intros <;> rfl

@[simp] theorem rcClearWdt_fields (s : State) :
    (rcClearWdt s).cfg = s.cfg ∧ (rcClearWdt s).ar = s.ar ∧ (rcClearWdt s).arWritten = s.arWritten ∧
    (rcClearWdt s).pb = s.pb ∧ (rcClearWdt s).ckRx = s.ckRx ∧ (rcClearWdt s).acc = s.acc ∧ (rcClearWdt s).op = s.op ∧
    (rcClearWdt s).ok = s.ok ∧ (rcClearWdt s).seq = s.seq ∧ (rcClearWdt s).rxsr = s.rxsr ∧
    (rcClearWdt s).txd = s.txd ∧ (rcClearWdt s).tcnt = s.tcnt ∧ (rcClearWdt s).flash = s.flash ∧
    (rcClearWdt s).ftb = s.ftb ∧ (rcClearWdt s).fe = s.fe ∧ (rcClearWdt s).feDue = s.feDue ∧
    (rcClearWdt s).readEn = s.readEn ∧ (rcClearWdt s).rc = { s.rc with wdt := false } ∧ (rcClearWdt s).wd = s.wd ∧
    (rcClearWdt s).loc = s.loc ∧ (rcClearWdt s).now = s.now ∧ (rcClearWdt s).inp = s.inp ∧
    (rcClearWdt s).draws = s.draws ∧ (rcClearWdt s).hist = s.hist := by
  and_intros <;> rfl

@[simp] theorem bootloaderPath_fields (s : State) :
    (bootloaderPath s).cfg = s.cfg ∧ (bootloaderPath s).ar = s.ar ∧ (bootloaderPath s).arWritten = s.arWritten ∧
    (bootloaderPath s).pb = s.pb ∧ (bootloaderPath s).ckRx = s.ckRx ∧ (bootloaderPath s).acc = s.acc ∧
    (bootloaderPath s).op = s.op ∧ (bootloaderPath s).ok = s.ok ∧ (bootloaderPath s).seq = .idle ∧
    (bootloaderPath s).rxsr = s.rxsr ∧ (bootloaderPath s).txd = .drive s.cfg.stopLevel ∧
    (bootloaderPath s).tcnt = s.tcnt ∧ (bootloaderPath s).flash = s.flash ∧ (bootloaderPath s).ftb = s.ftb ∧
    (bootloaderPath s).fe = s.fe ∧ (bootloaderPath s).feDue = s.feDue ∧ (bootloaderPath s).readEn = s.readEn ∧
    (bootloaderPath s).rc = { s.rc with ext := false } ∧
    (bootloaderPath s).wd = { en := true, period := .medium, cnt := 0 } ∧
    (bootloaderPath s).loc = { s.loc with rx := .hunt } ∧ (bootloaderPath s).now = s.now ∧
    (bootloaderPath s).inp = s.inp ∧ (bootloaderPath s).draws = s.draws ∧ (bootloaderPath s).hist = s.hist := by
  and_intros <;> rfl

@[simp] theorem applicationPath_fields (s : State) :
    (applicationPath s).cfg = s.cfg ∧ (applicationPath s).ar = s.ar ∧ (applicationPath s).arWritten = s.arWritten ∧
    (applicationPath s).pb = s.pb ∧ (applicationPath s).ckRx = s.ckRx ∧ (applicationPath s).acc = s.acc ∧
    (applicationPath s).op = s.op ∧ (applicationPath s).ok = s.ok ∧ (applicationPath s).seq = .app ∧
    (applicationPath s).rxsr = s.rxsr ∧ (applicationPath s).txd = s.txd ∧ (applicationPath s).tcnt = s.tcnt ∧
    (applicationPath s).flash = s.flash ∧ (applicationPath s).ftb = s.ftb ∧ (applicationPath s).fe = s.fe ∧
    (applicationPath s).feDue = s.feDue ∧ (applicationPath s).readEn = s.readEn ∧
    (applicationPath s).rc = { s.rc with wdt := false } ∧ (applicationPath s).wd = { s.wd with en := false } ∧
    (applicationPath s).loc = s.loc ∧ (applicationPath s).now = s.now ∧ (applicationPath s).inp = s.inp ∧
    (applicationPath s).draws = s.draws ∧ (applicationPath s).hist = s.hist := by
  and_intros <;> rfl

/-- Sample data bit `i`: RXSR shifts and the next wait begins. -/
@[simp] theorem recvData_keeps (i : Fin 8) (s : State) :
    (recvData i s).rxsr = shiftIn (s.rxdAt s.now) s.rxsr ∧ (recvData i s).cfg = s.cfg ∧ (recvData i s).ar = s.ar ∧
    (recvData i s).arWritten = s.arWritten ∧ (recvData i s).pb = s.pb ∧ (recvData i s).ckRx = s.ckRx ∧
    (recvData i s).acc = s.acc ∧ (recvData i s).op = s.op ∧ (recvData i s).ok = s.ok ∧ (recvData i s).seq = s.seq ∧
    (recvData i s).txd = s.txd ∧ (recvData i s).tcnt = 0 ∧ (recvData i s).flash = s.flash ∧ (recvData i s).ftb = s.ftb ∧
    (recvData i s).fe = s.fe ∧ (recvData i s).feDue = s.feDue ∧ (recvData i s).readEn = s.readEn ∧
    (recvData i s).rc = s.rc ∧ (recvData i s).wd = s.wd ∧ (recvData i s).now = s.now ∧ (recvData i s).hist = s.hist := by
  and_intros <;> rfl

end Sys2Proof.Machine
end

