-- ==== Sys2Proof/Laws/Commands.lean ====
section
/-! SUPPORT. What each command's action answers at each of its positions, said once; the proofs about exec cite these
equations and unfold no meaning. -/

namespace Sys2Proof.Machine

/-! Position by position. -/

theorem identifyByte_zero (s : State) : identifyByte 0 s =
    listenAt (.ident 1) { s with loc := { s.loc with idMatch := s.loc.idMatch && s.rxsr == s.cfg.sig0 } } := rfl

theorem identifyByte_one (s : State) : identifyByte 1 s =
    listenAt (.ident 2) { s with loc := { s.loc with idMatch := s.loc.idMatch && s.rxsr == s.cfg.sig1 } } := rfl

theorem identifyByte_two (s : State) : identifyByte 2 s =
    (if s.loc.idMatch && s.rxsr == s.cfg.sig2
      then acknowledge true { s with loc := { s.loc with idMatch := s.loc.idMatch && s.rxsr == s.cfg.sig2 } }
      else failWith .signatureMismatch
        { s with loc := { s.loc with idMatch := s.loc.idMatch && s.rxsr == s.cfg.sig2 } }) := rfl

theorem exec_identify_idle {s : State} (h : s.seq = .idle) :
    exec .identify s = .next (listenAt (.ident 0) { s with loc := { s.loc with idMatch := true } }) := by
  simp only [exec, execIdentify, h]

theorem exec_identify_ident {s : State} {k : Fin 3} (h : s.seq = .ident k) :
    exec .identify s = .next (identifyByte k s) := by
  simp only [exec, execIdentify, h]

theorem exec_loadAddr_idle {s : State} (h : s.seq = .idle) : exec .loadAddr s = .next (listenAt (.addr 0) s) := by
  simp only [exec, execLoadAddr, h]

theorem exec_loadAddr_addr_zero {s : State} (h : s.seq = .addr 0) :
    exec .loadAddr s = .next (listenAt (.addr 1) { s with loc := { s.loc with aLo := s.rxsr } }) := by
  simp only [exec, execLoadAddr, h]

theorem exec_loadAddr_addr_one {s : State} (h : s.seq = .addr 1) : exec .loadAddr s = .next (loadAddrDone s) := by
  simp only [exec, execLoadAddr, h]

theorem exec_writePage_idle {s : State} (h : s.seq = .idle) : exec .writePage s = writePageStart s := by
  simp only [exec, execWritePage, h]

theorem exec_writePage_wCk {s : State} {k : Fin 2} (h : s.seq = .wCk k) :
    exec .writePage s = .next (writePageChecksum k s) := by
  simp only [exec, execWritePage, h]

theorem exec_writePage_wData {s : State} {i : Nat} (h : s.seq = .wData i) : exec .writePage s = writePageData i s := by
  simp only [exec, execWritePage, h]

theorem exec_writePage_wProg {s : State} {p : ProgPhase} (h : s.seq = .wProg p) :
    exec .writePage s = writePageProgram p s := by
  simp only [exec, execWritePage, h]

theorem exec_reset_idle {s : State} (h : s.seq = .idle) :
    exec .reset s = .next { wdtArm .short s with seq := .spin } := by
  simp only [exec, execReset, h]

theorem exec_unknown_idle {s : State} (b : Byte) (h : s.seq = .idle) :
    exec (.unknown b) s = .next (failWith .protocolError s) := by
  simp only [exec, execUnknown, h]

/-- After the acknowledgment frame every command but RESET ends its cycle. -/
theorem exec_ack {i : Instr} {s : State} (hi : i ≠ .reset) (h : s.seq = .ack) : exec i s = .next (finishCycle s) := by
  cases i <;> first | contradiction | simp only [exec, execIdentify, execLoadAddr, execWritePage, execUnknown, h]

/-! The acknowledgment. -/

theorem acknowledge_replying (s : State) (r : Bool) : Replying s (acknowledge r s) r :=
  ⟨rfl, rfl, rfl, rfl, rfl, rfl, rfl⟩

theorem failWith_replying (s : State) (l : Label) : Replying s (failWith l s) false :=
  ⟨rfl, rfl, rfl, rfl, rfl, rfl, rfl⟩

/-! Every way in which a command's action answers a next state. -/

theorem exec_identify_next {s t : State} (h : exec .identify s = .next t) :
    (s.seq = .idle ∧ t = listenAt (.ident 0) { s with loc := { s.loc with idMatch := true } }) ∨
    (∃ k, s.seq = .ident k ∧ t = identifyByte k s) ∨ (s.seq = .ack ∧ t = finishCycle s) := by
  simp only [exec, execIdentify] at h
  split at h <;> cases h <;> rename_i hs
  · exact .inl ⟨hs, rfl⟩
  · exact .inr (.inl ⟨_, hs, rfl⟩)
  · exact .inr (.inr ⟨hs, rfl⟩)

theorem exec_loadAddr_next {s t : State} (h : exec .loadAddr s = .next t) :
    (s.seq = .idle ∧ t = listenAt (.addr 0) s) ∨
    (s.seq = .addr 0 ∧ t = listenAt (.addr 1) { s with loc := { s.loc with aLo := s.rxsr } }) ∨
    (s.seq = .addr 1 ∧ t = loadAddrDone s) ∨ (s.seq = .ack ∧ t = finishCycle s) := by
  simp only [exec, execLoadAddr] at h
  split at h <;> cases h <;> rename_i hs
  · exact .inl ⟨hs, rfl⟩
  · exact .inr (.inl ⟨hs, rfl⟩)
  · exact .inr (.inr (.inl ⟨hs, rfl⟩))
  · exact .inr (.inr (.inr ⟨hs, rfl⟩))

theorem exec_reset_next {s t : State} (h : exec .reset s = .next t) :
    s.seq = .idle ∧ t = { wdtArm .short s with seq := .spin } := by
  simp only [exec, execReset] at h
  split at h <;> cases h
  exact ⟨‹_›, rfl⟩

theorem exec_unknown_next {b : Byte} {s t : State} (h : exec (.unknown b) s = .next t) :
    (s.seq = .idle ∧ t = failWith .protocolError s) ∨ (s.seq = .ack ∧ t = finishCycle s) := by
  simp only [exec, execUnknown] at h
  split at h <;> cases h
  · exact .inl ⟨‹_›, rfl⟩
  · exact .inr ⟨‹_›, rfl⟩

end Sys2Proof.Machine
end

