-- ==== Sys2Proof/Laws/Memory.lean ====
section
/-! SUPPORT. Reading after writing flash, and that every memory operation keeps the canonical form. -/

namespace Sys2Proof.Machine

theorem flashGet_flashSet (m : List Host.Cell) (a x : Nat) (v : Byte) :
    flashGet (flashSet m a v) x = if x = a then some v else flashGet m x := by
  induction m with
  | nil => simp [flashSet, flashGet, eq_comm]
  | cons c rest ih =>
    obtain ⟨k, b⟩ := c
    simp only [flashSet]
    split
    · simp only [flashGet, ih]; split <;> split <;> first | rfl | omega
    · split
      · simp only [flashGet]; split <;> split <;> first | rfl | omega | (split <;> first | rfl | omega)
      · simp only [flashGet, eq_comm]

@[simp] theorem flashGet_flashSet_same (m : List Host.Cell) (a : Nat) (v : Byte) :
    flashGet (flashSet m a v) a = some v := by simp [flashGet_flashSet]

theorem flashGet_flashSet_other (m : List Host.Cell) {a x : Nat} (v : Byte) (h : x ≠ a) :
    flashGet (flashSet m a v) x = flashGet m x := by simp [flashGet_flashSet, h]

/-- Outside the written bytes a write changes nothing. -/
theorem flashGet_flashWrite_outside (vs : List Byte) :
    ∀ (m : List Host.Cell) (a x : Nat), x < a ∨ a + vs.length ≤ x → flashGet (flashWrite m a vs) x = flashGet m x := by
  induction vs with
  | nil => intro m a x _; rfl
  | cons v rest ih =>
    intro m a x h
    simp only [List.length_cons] at h
    rw [flashWrite, ih _ _ _ (by omega), flashGet_flashSet_other _ _ (by omega)]

/-- Inside them the write's own bytes are read back. -/
theorem flashGet_flashWrite_inside (vs : List Byte) :
    ∀ (m : List Host.Cell) (a i : Nat), i < vs.length → flashGet (flashWrite m a vs) (a + i) = vs[i]? := by
  induction vs with
  | nil => intro m a i h; simp at h
  | cons v rest ih =>
    intro m a i h
    simp only [List.length_cons] at h
    rw [flashWrite]
    cases i with
    | zero => rw [flashGet_flashWrite_outside _ _ _ _ (by omega)]; simp
    | succ j => rw [show a + (j + 1) = a + 1 + j by omega, ih _ _ _ (by omega)]; simp

theorem mem_flashSet {m : List Host.Cell} {a : Nat} {v : Byte} {c : Host.Cell} (h : c ∈ flashSet m a v) :
    c ∈ m ∨ c = (a, v) := by
  induction m with
  | nil => simpa [flashSet] using h
  | cons d rest ih =>
    obtain ⟨k, b⟩ := d
    simp only [flashSet] at h
    split at h
    · rcases List.mem_cons.1 h with h | h
      · simp [h]
      · rcases ih h with h | h <;> simp [h]
    · split at h <;> simp only [List.mem_cons] at h ⊢ <;> tauto

/-- A write lists no address but those it writes and those listed before. -/
theorem mem_flashWrite (vs : List Byte) :
    ∀ {m : List Host.Cell} {a : Nat} {c : Host.Cell}, c ∈ flashWrite m a vs →
      c ∈ m ∨ (a ≤ c.1 ∧ c.1 < a + vs.length) := by
  induction vs with
  | nil => intro m a c h; exact .inl h
  | cons v rest ih =>
    intro m a c h
    rcases ih h with h | h
    · rcases mem_flashSet h with h | rfl
      · exact .inl h
      · exact .inr ⟨Nat.le_refl _, by simp⟩
    · exact .inr ⟨by omega, by simp only [List.length_cons]; omega⟩

theorem flashSet_wf {m : List Host.Cell} (a : Nat) (v : Byte) (h : Memory.wf m) : Memory.wf (flashSet m a v) := by
  induction m with
  | nil => simp [flashSet]
  | cons d rest ih =>
    obtain ⟨k, b⟩ := d
    have hr := (List.pairwise_cons.1 h).2
    have hk := (List.pairwise_cons.1 h).1
    simp only [flashSet]
    split
    · refine List.pairwise_cons.2 ⟨fun c hc => ?_, ih hr⟩
      rcases mem_flashSet hc with hc | rfl
      · exact hk c hc
      · simpa
    · split
      · exact List.pairwise_cons.2 ⟨fun c hc => by have := hk c hc; simp at this ⊢; omega, hr⟩
      · refine List.pairwise_cons.2 ⟨fun c hc => ?_, h⟩
        rcases List.mem_cons.1 hc with rfl | hc
        · simp; omega
        · have := hk c hc; simp at this ⊢; omega

theorem flashWrite_wf (vs : List Byte) : ∀ {m : List Host.Cell} (a : Nat), Memory.wf m → Memory.wf (flashWrite m a vs) := by
  induction vs with
  | nil => intro m a h; exact h
  | cons v rest ih => intro m a h; exact ih _ (flashSet_wf _ _ h)

@[simp] theorem freeBytes_length (draw n : Nat) : (freeBytes draw n).length = n := by simp [freeBytes]

theorem freeBytes_getElem? {n i : Nat} (draw : Nat) (h : i < n) :
    (freeBytes draw n)[i]? = some (Config.freeByte draw i) := by simp [freeBytes, h]

/-- The engine's completion keeps the canonical form. -/
theorem engineComplete_wf {s : State} (h : Memory.wf s.flash) : Memory.wf (engineComplete s).flash := by
  unfold engineComplete
  cases s.fe <;> first | exact h | exact flashWrite_wf _ _ h

/-- A hardware reset keeps the canonical form. -/
theorem hardwareReset_wf {s : State} (causes : ResetFlags) (h : Memory.wf s.flash) :
    Memory.wf (hardwareReset causes s).flash := by
  show Memory.wf s.flashAfterReset
  unfold State.flashAfterReset
  cases s.fe <;> first | exact h | exact flashWrite_wf _ _ h

/-- Reset memory is canonical: nothing is listed. -/
theorem reset_wf : Memory.wf State.reset.flash := List.Pairwise.nil

end Sys2Proof.Machine
end

