-- ==== Sys2Proof/Laws/Flash.lean ====
section
/-! SUPPORT. What each flash operation, the fill loop and WRITEPAGE's action answer, said once. -/

namespace Sys2Proof.Machine

theorem andThen_eq_next {r : Result} {f : State → Result} {t : State} :
    andThen r f = .next t ↔ ∃ u, r = .next u ∧ f u = .next t := by
  cases r <;> simp [andThen]

@[simp] theorem andThen_next (s : State) (f : State → Result) : andThen (.next s) f = f s := rfl
@[simp] theorem andThen_fault (e : Fault) (f : State → Result) : andThen (.fault e) f = .fault e := rfl
@[simp] theorem andThen_refused (e : Refusal) (f : State → Result) : andThen (.refused e) f = .refused e := rfl

theorem busy_eq_false {e : FlashEngine} : e.busy = false ↔ e = .idle := by cases e <;> simp [FlashEngine.busy]

theorem busy_eq_true {e : FlashEngine} :
    e.busy = true ↔ (∃ p, e = .erasing p) ∨ ∃ p snapshot clean, e = .writing p snapshot clean := by
  cases e <;> simp [FlashEngine.busy]

theorem flashFill_next {o : Nat} {w : Half} {s t : State} (h : flashFill o w s = .next t) :
    s.fe.busy = false ∧ t = { s with ftb := (s.ftb.set o (lowByte w)).set (o + 1) (highByte w) } := by
  unfold flashFill at h
  split at h
  · cases h
  · split at h
    · cases h
    · rename_i hb; cases h; exact ⟨Bool.eq_false_iff.2 hb, rfl⟩

theorem flashFill_eq {o : Nat} {w : Half} {s : State} (hb : s.fe.busy = false) (ho : o % 2 = 0)
    (hp : o + 2 ≤ s.cfg.pageSize) :
    flashFill o w s = .next { s with ftb := (s.ftb.set o (lowByte w)).set (o + 1) (highByte w) } := by
  rw [flashFill, if_neg (by omega), if_neg (by simp [hb])]

/-- The fill loop changes FTB only, and keeps its length. -/
theorem fillWords_next (ws : List Half) : ∀ {o : Nat} {s t : State}, fillWords o ws s = .next t →
    ∃ f : List Byte, t = { s with ftb := f } ∧ f.length = s.ftb.length := by
  induction ws with
  | nil => intro o s t h; cases h; exact ⟨s.ftb, rfl, rfl⟩
  | cons w rest ih =>
    intro o s t h
    rw [fillWords, andThen_eq_next] at h
    obtain ⟨u, hu, h⟩ := h
    obtain ⟨_, rfl⟩ := flashFill_next hu
    obtain ⟨f, rfl, hf⟩ := ih h
    exact ⟨f, rfl, by simpa using hf⟩

/-- Filling from an even offset with the words of a buffer that fits puts the buffer there and nothing else. -/
theorem fillWords_wordsOf (buf : List Byte) : ∀ {pre suf old : List Byte} {s : State}, buf.length % 2 = 0 →
    pre.length % 2 = 0 → old.length = buf.length → s.fe.busy = false → s.ftb = pre ++ (old ++ suf) →
    s.ftb.length = s.cfg.pageSize →
    fillWords pre.length (wordsOf buf) s = .next { s with ftb := pre ++ (buf ++ suf) } := by
  induction buf using wordsOf.induct with
  | case1 lo hi rest ih =>
    intro pre suf old s hb hpre ho hbusy hftb hlen
    obtain ⟨a, b, old, rfl⟩ : ∃ a b l, old = a :: b :: l := by
      rcases old with _ | ⟨a, _ | ⟨b, l⟩⟩
      · simp at ho
      · simp at ho
      · exact ⟨a, b, l, rfl⟩
    have h2 : pre.length + 2 ≤ s.cfg.pageSize := by rw [← hlen, hftb]; simp
    have hset : (s.ftb.set pre.length (lowByte (le16 lo hi))).set (pre.length + 1) (highByte (le16 lo hi)) =
        (pre ++ [lo, hi]) ++ (old ++ suf) := by
      rw [hftb]; simp [List.set_append_right]
    rw [wordsOf, fillWords, flashFill_eq hbusy hpre h2, andThen_next, hset]
    have := ih (pre := pre ++ [lo, hi]) (suf := suf) (old := old)
      (s := { s with ftb := (pre ++ [lo, hi]) ++ (old ++ suf) }) (by simp only [List.length_cons] at hb; omega) (by simp; omega) (by simpa using ho)
      hbusy rfl (by rw [← hlen, hftb]; simp)
    rw [List.length_append] at this
    simpa using this
  | case2 l hl =>
    intro pre suf old s hb _ ho _ hftb _
    have : l = [] := by
      rcases l with _ | ⟨a, _ | ⟨b, l⟩⟩
      · rfl
      · simp at hb
      · exact absurd rfl (hl a b l)
    subst this
    obtain rfl : old = [] := List.eq_nil_of_length_eq_zero ho
    rw [wordsOf, fillWords, ← hftb]
    · intro a b c h; cases h

/-- FTB, all of it, becomes the page's buffer. -/
theorem fillWords_page {buf : List Byte} {s : State} (hb : buf.length = s.cfg.pageSize) (he : s.cfg.pageSize % 2 = 0)
    (hf : s.ftb.length = s.cfg.pageSize) (hi : s.fe.busy = false) :
    fillWords 0 (wordsOf buf) s = .next { s with ftb := buf } := by
  have := fillWords_wordsOf buf (pre := []) (suf := []) (old := s.ftb) (s := s) (by omega) rfl (by omega) hi (by simp) hf
  simpa using this

theorem fillAndCommit_next {a : Half} {buf : List Byte} {s t : State} (h : fillAndCommit a buf s = .next t) :
    ∃ f : List Byte, f.length = s.ftb.length ∧ s.fe = .idle ∧ t = dropLatency { s with
      ftb := f, fe := .writing (s.pageOf a) f (s.pageErased (s.pageOf a)), feDue := s.now + s.nextLatency, readEn := false } := by
  rw [fillAndCommit, andThen_eq_next] at h
  obtain ⟨u, hu, h⟩ := h
  obtain ⟨f, rfl, hf⟩ := fillWords_next _ hu
  unfold flashCommit at h
  split at h
  · cases h
  · rename_i hb; cases h; exact ⟨f, hf, busy_eq_false.1 (Bool.eq_false_iff.2 hb), rfl⟩

theorem fillAndCommit_page {a : Half} {buf : List Byte} {s : State} (hb : buf.length = s.cfg.pageSize)
    (he : s.cfg.pageSize % 2 = 0) (hf : s.ftb.length = s.cfg.pageSize) (hi : s.fe.busy = false) :
    fillAndCommit a buf s = .next (dropLatency { s with
      ftb := buf, fe := .writing (s.pageOf a) buf (s.pageErased (s.pageOf a)), feDue := s.now + s.nextLatency,
      readEn := false }) := by
  rw [fillAndCommit, fillWords_page hb he hf hi, andThen_next, flashCommit, if_neg (by simp [hi])]
  rfl

/-- WRITEPAGE's dispatch answers a state exactly when AR is admitted and the engine is idle. -/
theorem writePageStart_next {s t : State} (h : writePageStart s = .next t) :
    s.admission = none ∧ s.fe = .idle ∧ t = listenAt (.wCk 0) (dropLatency { s with
      fe := .erasing (s.pageOf s.ar), feDue := s.now + s.nextLatency, readEn := false }) := by
  unfold writePageStart at h
  split at h
  · cases h
  · rw [andThen_eq_next] at h
    obtain ⟨u, hu, h⟩ := h
    unfold flashErase at hu
    split at hu
    · cases hu
    · rename_i ha hb; cases hu; cases h
      exact ⟨ha, busy_eq_false.1 (Bool.eq_false_iff.2 hb), rfl⟩

theorem writePageStart_eq {s : State} (ha : s.admission = none) (hb : s.fe.busy = false) :
    writePageStart s = .next (listenAt (.wCk 0) (dropLatency { s with
      fe := .erasing (s.pageOf s.ar), feDue := s.now + s.nextLatency, readEn := false })) := by
  simp only [writePageStart, ha, flashErase, hb, Bool.false_eq_true, if_false, andThen_next]

theorem checksumMatches_iff (s : State) (a : Acc) : s.checksumMatches a = true ↔ a.toNat % 65536 = s.ckRx.toNat := by
  rw [State.checksumMatches, beq_iff_eq, ← BitVec.toNat_inj]
  simp [BitVec.extractLsb'_toNat]

theorem writePageData_next {i : Nat} {s t : State} (h : writePageData i s = .next t) :
    (i + 1 < s.cfg.pageSize ∧ t = listenAt (.wData (i + 1)) { s with pb := s.pb.set i s.rxsr }) ∨
    (s.cfg.pageSize ≤ i + 1 ∧ ∃ a, checksum (s.pb.set i s.rxsr) = .next a ∧
      ((s.checksumMatches a = true ∧ t = { s with pb := s.pb.set i s.rxsr, acc := a, seq := .wProg .waitErase }) ∨
       (s.checksumMatches a = false ∧ t = failWith .checksumMismatch { s with pb := s.pb.set i s.rxsr, acc := a }))) := by
  unfold writePageData at h
  split at h
  · cases h; exact .inl ⟨‹_›, rfl⟩
  · unfold writePageValidate at h
    dsimp only at h
    refine .inr ⟨by omega, ?_⟩
    split at h
    · rename_i a ha
      refine ⟨a, ha, ?_⟩
      split at h
      · cases h; exact .inl ⟨‹_›, rfl⟩
      · cases h; exact .inr ⟨Bool.eq_false_iff.2 ‹_›, rfl⟩
    · cases h
    · cases h

/-- The flash wait goes on. -/
theorem writePageProgram_busy {s : State} (p : ProgPhase) (h : s.fe.busy = true) : writePageProgram p s = .next s := by
  unfold writePageProgram; rw [if_pos h]

/-- The erase is over: fill and commit. -/
theorem writePageProgram_erased {s : State} (hb : s.pb.length = s.cfg.pageSize) (he : s.cfg.pageSize % 2 = 0)
    (hf : s.ftb.length = s.cfg.pageSize) (hi : s.fe.busy = false) :
    writePageProgram .waitErase s = .next (dropLatency { s with
      ftb := s.pb, fe := .writing (s.pageOf s.ar) s.pb (s.pageErased (s.pageOf s.ar)), feDue := s.now + s.nextLatency,
      readEn := false, seq := .wProg .waitCommit }) := by
  unfold writePageProgram
  rw [if_neg (by simp [hi]), fillAndCommit_page hb he hf hi, andThen_next]
  rfl

/-- The commit is over: reads are re-enabled, AR advances, success is reported. -/
theorem writePageProgram_committed {s : State} (hi : s.fe.busy = false) :
    writePageProgram .waitCommit s =
      .next (acknowledge true { s with readEn := true, ar := s.ar + BitVec.ofNat 16 s.cfg.pageSize }) := by
  unfold writePageProgram
  rw [if_neg (by simp [hi]), writePageFinish, flashReenableReads, if_neg (by simp [hi]), andThen_next]

theorem writePageProgram_next {p : ProgPhase} {s t : State} (h : writePageProgram p s = .next t) :
    (s.fe.busy = true ∧ t = s) ∨
    (s.fe = .idle ∧ p = .waitErase ∧ ∃ f : List Byte, f.length = s.ftb.length ∧
      fillAndCommit s.ar s.pb s = .next (dropLatency { s with
        ftb := f, fe := .writing (s.pageOf s.ar) f (s.pageErased (s.pageOf s.ar)), feDue := s.now + s.nextLatency,
        readEn := false }) ∧
      t = dropLatency { s with
        ftb := f, fe := .writing (s.pageOf s.ar) f (s.pageErased (s.pageOf s.ar)), feDue := s.now + s.nextLatency,
        readEn := false, seq := .wProg .waitCommit }) ∨
    (s.fe = .idle ∧ p = .waitCommit ∧
      t = acknowledge true { s with readEn := true, ar := s.ar + BitVec.ofNat 16 s.cfg.pageSize }) := by
  unfold writePageProgram at h
  split at h
  · cases h; exact .inl ⟨‹_›, rfl⟩
  · rename_i hb
    have hi := busy_eq_false.1 (Bool.eq_false_iff.2 hb)
    split at h
    · rw [andThen_eq_next] at h
      obtain ⟨u, hu, h⟩ := h
      obtain ⟨f, hf, _, rfl⟩ := fillAndCommit_next hu
      cases h
      exact .inr (.inl ⟨hi, rfl, f, hf, hu, rfl⟩)
    · rw [writePageFinish, andThen_eq_next] at h
      obtain ⟨u, hu, h⟩ := h
      unfold flashReenableReads at hu
      split at hu
      · cases hu
      · cases hu; cases h; exact .inr (.inr ⟨hi, rfl, rfl⟩)

/-- Every way in which WRITEPAGE's action answers a next state. -/
theorem exec_writePage_next {s t : State} (h : exec .writePage s = .next t) :
    (s.seq = .idle ∧ writePageStart s = .next t) ∨ (∃ k, s.seq = .wCk k ∧ t = writePageChecksum k s) ∨
    (∃ i, s.seq = .wData i ∧ writePageData i s = .next t) ∨ (∃ p, s.seq = .wProg p ∧ writePageProgram p s = .next t) ∨
    (s.seq = .ack ∧ t = finishCycle s) := by
  simp only [exec, execWritePage] at h
  split at h
  · exact .inl ⟨‹_›, h⟩
  · cases h; exact .inr (.inl ⟨_, ‹_›, rfl⟩)
  · exact .inr (.inr (.inl ⟨_, ‹_›, h⟩))
  · exact .inr (.inr (.inr (.inl ⟨_, ‹_›, h⟩)))
  · cases h; exact .inr (.inr (.inr (.inr ⟨‹_›, rfl⟩)))
  · cases h

/-- An admitted AR is the base of its page. -/
theorem admission_none {s : State} (ha : s.admission = none) : s.pageBase (s.pageOf s.ar) = s.ar.toNat ∧ s.arWritten = true := by
  unfold State.admission at ha
  split at ha; cases ha
  split at ha; cases ha
  split at ha; cases ha
  rename_i h1 h2 h3
  exact ⟨Nat.div_mul_cancel (Nat.dvd_of_mod_eq_zero (by omega)), by simpa using h1⟩

end Sys2Proof.Machine
end

