-- ==== Sys2Proof/Laws/Step.lean ====
section
/-! SUPPORT. What a step can do, said once: which agent it is, and for the sequencer what its turn comes to. -/

namespace Sys2Proof.Machine

/-- Undisturbed up to the sequencer's own instant, the next step is the sequencer's. -/
theorem nextAgent_of_undisturbed {s : State} {q : Nat} (hq : s.seqDue = some q) (h : s.UndisturbedUntil q) :
    s.nextAgent = some (.sequencer, q) := by
  obtain ⟨hr, he⟩ := h
  unfold State.nextAgent
  rw [hq]
  rcases hc : earlier s.envDue s.wdtDue with _ | r <;> rcases hd : s.engineDue with _ | e <;>
    simp only [noLater, Bool.false_and, Bool.and_eq_true, decide_eq_true_eq, Bool.false_eq_true, if_false, Option.map_some]
  · rw [if_neg (by have := he e hd; omega)]
  · rw [if_neg (by have := hr r hc; omega)]
  · rw [if_neg (by have := hr r hc; omega), if_neg (by have := he e hd; omega)]

theorem step_eq (s : State) : step s = runTurn (turn s) := by
  unfold step runTurn
  cases turn s <;> rfl

/-- Undisturbed up to the sequencer's own instant, the step is the sequencer's turn at that instant. -/
theorem step_of_undisturbed {s : State} {q : Nat} (hv : s.cfg.valid = true) (hq : s.seqDue = some q)
    (h : s.UndisturbedUntil q) : step s = runTurn (seqTurn (advanceTo q s)) := by
  rw [step_eq, turn, if_pos hv, nextAgent_of_undisturbed hq h]

theorem noLater_iff {a b : Option Nat} : noLater a b = true ↔ ∃ x, a = some x ∧ ∀ y, b = some y → x ≤ y := by
  cases a <;> cases b <;> simp [noLater]

/-- A reset that is due no later than anything else is the next event. -/
theorem nextAgent_of_reset {s : State} {q : Nat} (hr : earlier s.envDue s.wdtDue = some q)
    (he : ∀ e, s.engineDue = some e → q ≤ e) (hs : ∀ x, s.seqDue = some x → q ≤ x) : s.nextAgent = some (.reset, q) := by
  unfold State.nextAgent
  simp only [hr]
  rw [if_pos (by rw [Bool.and_eq_true, noLater_iff, noLater_iff]; exact ⟨⟨q, rfl, he⟩, q, rfl, hs⟩)]
  rfl

/-- A completion that is due before any reset and no later than the sequencer is the next event. -/
theorem nextAgent_of_engine {s : State} {q : Nat} (he : s.engineDue = some q)
    (hr : ∀ r, earlier s.envDue s.wdtDue = some r → q < r) (hs : ∀ x, s.seqDue = some x → q ≤ x) :
    s.nextAgent = some (.engine, q) := by
  unfold State.nextAgent
  simp only [he]
  rw [if_neg, if_pos (noLater_iff.2 ⟨q, rfl, hs⟩)]
  · rfl
  · rw [Bool.and_eq_true, noLater_iff]
    rintro ⟨⟨x, hx, hle⟩, _⟩
    have := hr x hx
    have := hle q rfl
    omega

theorem noLater_false {a b : Option Nat} (h : noLater a b = false) :
    ∀ x, a = some x → ∃ y, b = some y ∧ y < x := by
  cases a <;> cases b <;> simp_all [noLater]

theorem nextAgent_cases {s : State} {a : Agent} {q : Nat} (h : s.nextAgent = some (a, q)) :
    (a = .reset ∧ earlier s.envDue s.wdtDue = some q ∧ (∀ e, s.engineDue = some e → q ≤ e) ∧ ∀ x, s.seqDue = some x → q ≤ x) ∨
    (a = .engine ∧ s.engineDue = some q ∧ (∀ r, earlier s.envDue s.wdtDue = some r → q < r) ∧ ∀ x, s.seqDue = some x → q ≤ x) ∨
    (a = .sequencer ∧ s.seqDue = some q ∧ (∀ r, earlier s.envDue s.wdtDue = some r → q < r) ∧
      ∀ e, s.engineDue = some e → q < e) := by
  unfold State.nextAgent at h
  generalize hr : earlier s.envDue s.wdtDue = r at *
  simp only at h
  split at h
  · rename_i hc
    rw [Bool.and_eq_true, noLater_iff, noLater_iff] at hc
    obtain ⟨⟨x, rfl, he⟩, y, hy, hq⟩ := hc
    cases hy
    simp only [Option.map_some, Option.some.injEq, Prod.mk.injEq] at h
    obtain ⟨rfl, rfl⟩ := h
    exact .inl ⟨rfl, rfl, he, hq⟩
  · rename_i hc
    split at h
    · rename_i hd
      rw [noLater_iff] at hd
      obtain ⟨e, he, hq⟩ := hd
      rw [he] at h hc ⊢
      simp only [Option.map_some, Option.some.injEq, Prod.mk.injEq] at h
      obtain ⟨rfl, rfl⟩ := h
      refine .inr (.inl ⟨rfl, rfl, fun r' hr' => ?_, hq⟩)
      cases hr'
      by_contra hlt
      refine hc ?_
      rw [Bool.and_eq_true, noLater_iff, noLater_iff]
      exact ⟨⟨_, rfl, fun y hy => by cases hy; omega⟩, _, rfl, fun y hy => by have := hq y hy; omega⟩
    · rename_i hd
      rcases hx : s.seqDue with _ | x
      · rw [hx] at h; simp at h
      · rw [hx] at h hc hd
        simp only [Option.map_some, Option.some.injEq, Prod.mk.injEq] at h
        obtain ⟨rfl, rfl⟩ := h
        have hd' := noLater_false (Bool.eq_false_iff.2 hd)
        have hlt : ∀ e, s.engineDue = some e → x < e := by
          intro e he; obtain ⟨y, hy, hlt⟩ := hd' e he; cases hy; exact hlt
        refine .inr (.inr ⟨rfl, rfl, fun r' hr' => ?_, hlt⟩)
        cases hr'
        by_contra hle
        refine hc ?_
        rw [Bool.and_eq_true, noLater_iff, noLater_iff]
        exact ⟨⟨_, rfl, fun y hy => by have := hlt y hy; omega⟩, _, rfl, fun y hy => by cases hy; omega⟩

/-- Where the sequencer has an event, it is neither in the application nor spinning. -/
theorem seqDue_position {s : State} {q : Nat} (h : s.seqDue = some q) : s.seq ≠ .app ∧ s.seq ≠ .spin := by
  constructor <;> intro hs <;> simp [State.seqDue, hs] at h

/-- Every way in which a step answers a next state. -/
theorem step_next_cases {s t : State} (h : step s = .next t) :
    s.cfg.valid = true ∧
    ((∃ q, s.nextAgent = some (.reset, q) ∧ t = resetAt q s) ∨
     (∃ q, s.nextAgent = some (.engine, q) ∧ t = engineComplete (advanceTo q s)) ∨
     (∃ q, s.nextAgent = some (.sequencer, q) ∧ (s.seq ≠ .app ∧ s.seq ≠ .spin) ∧
       runTurn (seqTurn (advanceTo q s)) = .next t) ∨
     (s.nextAgent = none ∧ t = s)) := by
  rw [step_eq, turn] at h
  by_cases hv : s.cfg.valid = true
  · rw [if_pos hv] at h
    refine ⟨hv, ?_⟩
    rcases hn : s.nextAgent with _ | ⟨a, q⟩ <;> rw [hn] at h
    · exact .inr (.inr (.inr ⟨rfl, by simpa [runTurn] using h.symm⟩))
    · cases a with
      | reset => exact .inl ⟨q, rfl, by simpa [runTurn] using h.symm⟩
      | engine => exact .inr (.inl ⟨q, rfl, by simpa [runTurn] using h.symm⟩)
      | sequencer =>
        obtain ⟨h1, _⟩ | ⟨h1, _⟩ | ⟨_, hd, _⟩ := nextAgent_cases hn
        · cases h1
        · cases h1
        · exact .inr (.inr (.inl ⟨q, rfl, seqDue_position hd, h⟩))
  · rw [if_neg hv] at h
    simp [runTurn] at h

theorem seqDue_listening {s : State} (h : s.seq.listening = true) : s.seqDue = s.recvDue := by
  unfold State.seqDue; split <;> simp_all [Seq.listening]

theorem seqTurn_listening {s : State} (h : s.seq.listening = true) : seqTurn s = recvTurn s := by
  unfold seqTurn; split <;> simp_all [Seq.listening]

/-- Undisturbed inside RecvByte, the step is RecvByte's next poll or sample. -/
theorem step_listening {s : State} {q : Nat} (hv : s.cfg.valid = true) (hl : s.seq.listening = true)
    (hq : s.recvDue = some q) (h : s.UndisturbedUntil q) : step s = runTurn (recvTurn (advanceTo q s)) := by
  rw [step_of_undisturbed hv ((seqDue_listening hl).trans hq) h, seqTurn_listening (s := advanceTo q s) hl]

/-- Undisturbed in S_ACK, the step is SendByte's next bit period or its return. -/
theorem step_sending {s : State} (hv : s.cfg.valid = true) (hs : s.seq = .ack)
    (h : s.UndisturbedUntil (max s.loc.due s.now)) :
    step s = runTurn (sendTurn (advanceTo (max s.loc.due s.now) s)) := by
  have hq : s.seqDue = some (max s.loc.due s.now) := by simp only [State.seqDue, hs]
  rw [step_of_undisturbed hv hq h, seqTurn, show (advanceTo (max s.loc.due s.now) s).seq = .ack from hs]

theorem seqDue_guard {s : State} (h : s.seq = .guard) : s.seqDue = some s.now := by simp only [State.seqDue, h]

/-- Every way in which the sequencer's turn answers a next state, where it has one. -/
theorem seqTurn_next {s t : State} (hp : s.seq ≠ .app ∧ s.seq ≠ .spin) (h : runTurn (seqTurn s) = .next t) :
    (s.seq = .guard ∧ t = resetGuard s) ∨
    (s.seq = .ack ∧ s.loc.txBit < 9 ∧ t = sendPeriod (s.loc.txBit + 1) s) ∨
    (s.seq = .ack ∧ 9 ≤ s.loc.txBit ∧ exec (decodeOpcode s.op) (sendDone s) = .next t) ∨
    (∃ p, s.seq = .wProg p ∧ exec (decodeOpcode s.op) s = .next t) ∨
    (s.seq.listening = true ∧
      (t = recvSeen s ∨ t = recvPoll s ∨ t = recvStart s ∨ (∃ i, t = recvData i s) ∨ t = recvFrameError s)) ∨
    (s.seq = .idle ∧ exec (decodeOpcode s.rxsr) { recvDone s with op := s.rxsr } = .next t) ∨
    (s.seq.listening = true ∧ s.seq ≠ .idle ∧ exec (decodeOpcode s.op) (recvDone s) = .next t) := by
  unfold seqTurn at h
  split at h <;> rename_i hs
  · cases h; exact .inl ⟨hs, rfl⟩
  · unfold sendTurn at h
    split at h
    · cases h; exact .inr (.inl ⟨hs, ‹_›, rfl⟩)
    · exact .inr (.inr (.inl ⟨hs, Nat.le_of_not_lt ‹_›, h⟩))
  · exact .inr (.inr (.inr (.inl ⟨_, hs, h⟩)))
  · exact absurd hs hp.1
  · exact absurd hs hp.2
  · have hl : s.seq.listening = true := by cases hq : s.seq <;> simp_all [Seq.listening]
    refine .inr (.inr (.inr (.inr ?_)))
    unfold recvTurn at h
    split at h
    · cases h; exact .inl ⟨hl, .inl rfl⟩
    · cases h; exact .inl ⟨hl, .inr (.inl rfl)⟩
    · cases h; exact .inl ⟨hl, .inr (.inr (.inl rfl))⟩
    · cases h; exact .inl ⟨hl, .inr (.inr (.inr (.inl ⟨_, rfl⟩)))⟩
    · split at h
      · cases h; exact .inl ⟨hl, .inr (.inr (.inr (.inr rfl)))⟩
      · unfold received at h
        split at h
        · exact .inr (.inl ⟨‹_›, h⟩)
        · exact .inr (.inr ⟨hl, ‹_›, h⟩)

/-- With no event to come a step changes nothing. -/
theorem step_at_rest {s : State} (hv : s.cfg.valid = true) (h : s.nextAgent = none) : step s = .next s := by
  rw [step_eq, turn, if_pos hv, h]; rfl

/-- An invalid configuration is refused. -/
theorem step_invalid {s : State} (h : s.cfg.valid = false) : step s = .refused .invalidConfiguration := by
  rw [step_eq, turn, if_neg (by simp [h])]; rfl

/-- No agent has an event to come: nothing is due. -/
theorem nextAgent_none {s : State} (h : s.nextAgent = none) :
    s.envDue = none ∧ s.wdtDue = none ∧ s.engineDue = none ∧ s.seqDue = none := by
  unfold State.nextAgent at h
  rcases h1 : s.envDue <;> rcases h2 : s.wdtDue <;> rcases h3 : s.engineDue <;> rcases h4 : s.seqDue <;>
    simp [h1, h2, h3, h4, earlier, noLater] at h ⊢ <;> (revert h; split <;> (try split) <;> simp)

theorem earlier_some_right {a b : Option Nat} {w : Nat} (h : b = some w) : ∃ r, earlier a b = some r ∧ r ≤ w := by
  subst h
  cases a with
  | none => exact ⟨w, rfl, le_rfl⟩
  | some a => exact ⟨min a w, rfl, min_le_right _ _⟩

end Sys2Proof.Machine
end

