-- ==== Sys2Proof/Laws/Frames.lean ====
section
/-! SUPPORT. What the actions of the commands and of the other agents leave alone, said once for all of them. -/

namespace Sys2Proof.Machine

/-- Fields no action of any command changes. -/
theorem exec_keeps {i : Instr} {s t : State} (h : exec i s = .next t) :
    t.cfg = s.cfg ∧ t.op = s.op ∧ t.rxsr = s.rxsr ∧ t.flash = s.flash ∧ t.rc = s.rc ∧ t.now = s.now ∧ t.hist.got = s.hist.got ∧ t.hist.out = s.hist.out ∧ t.arWritten = (if s.seq = .addr 1 ∧ i = .loadAddr then true else s.arWritten) := by
  cases i with
  | identify =>
    obtain ⟨hs, rfl⟩ | ⟨k, hs, rfl⟩ | ⟨hs, rfl⟩ := exec_identify_next h
    · simp
    · have hk : k = 0 ∨ k = 1 ∨ k = 2 := by omega
      rcases hk with rfl | rfl | rfl
      · simp [identifyByte_zero]
      · simp [identifyByte_one]
      · rw [identifyByte_two]; split <;> simp
    · simp
  | loadAddr => obtain ⟨hs, rfl⟩ | ⟨hs, rfl⟩ | ⟨hs, rfl⟩ | ⟨hs, rfl⟩ := exec_loadAddr_next h <;> simp [hs, loadAddrDone]
  | reset => obtain ⟨hs, rfl⟩ := exec_reset_next h; simp
  | unknown b => obtain ⟨hs, rfl⟩ | ⟨hs, rfl⟩ := exec_unknown_next h <;> simp
  | writePage =>
    obtain ⟨hs, h⟩ | ⟨k, hs, rfl⟩ | ⟨i, hs, h⟩ | ⟨p, hs, h⟩ | ⟨hs, rfl⟩ := exec_writePage_next h
    · obtain ⟨_, _, rfl⟩ := writePageStart_next h; simp
    · unfold writePageChecksum; split <;> simp
    · obtain ⟨_, rfl⟩ | ⟨_, a, _, ⟨_, rfl⟩ | ⟨_, rfl⟩⟩ := writePageData_next h <;> simp
    · obtain ⟨_, rfl⟩ | ⟨_, rfl, f, _, _, rfl⟩ | ⟨_, rfl, rfl⟩ := writePageProgram_next h <;> simp
    · simp

theorem resetAt_seq (q : Nat) (s : State) : (resetAt q s).seq = .guard := rfl

/-- What an engine completion leaves alone. -/
theorem engineComplete_keeps (s : State) : (engineComplete s).seq = s.seq ∧ (engineComplete s).hist = s.hist ∧ (engineComplete s).rc = s.rc ∧ (engineComplete s).ar = s.ar ∧ (engineComplete s).arWritten = s.arWritten ∧
   (engineComplete s).wd = s.wd ∧ (engineComplete s).rxsr = s.rxsr ∧ (engineComplete s).cfg = s.cfg ∧ (engineComplete s).readEn = s.readEn := by
  unfold engineComplete; cases s.fe <;> simp

theorem recvPoll_keeps_most (s : State) : (recvPoll s).seq = s.seq ∧ (recvPoll s).hist = s.hist ∧ (recvPoll s).rc = s.rc ∧ (recvPoll s).ar = s.ar ∧ (recvPoll s).arWritten = s.arWritten ∧
   (recvPoll s).wd = s.wd ∧ (recvPoll s).rxsr = s.rxsr ∧ (recvPoll s).flash = s.flash := by
  unfold recvPoll; split <;> simp
theorem recvStart_keeps_most (s : State) : (recvStart s).seq = s.seq ∧ (recvStart s).hist.got = s.hist.got ∧ (recvStart s).hist.out = s.hist.out ∧ (recvStart s).rc = s.rc ∧ (recvStart s).ar = s.ar ∧ (recvStart s).arWritten = s.arWritten ∧
   (recvStart s).wd = s.wd ∧ (recvStart s).flash = s.flash := by
  unfold recvStart; split <;> simp

/-- No action goes to S_GUARD or S_APP. -/
theorem exec_seq_ne {i : Instr} {s t : State} (h : exec i s = .next t) : t.seq ≠ .guard ∧ t.seq ≠ .app := by
  cases i with
  | identify =>
    obtain ⟨hs, rfl⟩ | ⟨k, hs, rfl⟩ | ⟨hs, rfl⟩ := exec_identify_next h
    · simp
    · have hk : k = 0 ∨ k = 1 ∨ k = 2 := by omega
      rcases hk with rfl | rfl | rfl
      · simp [identifyByte_zero]
      · simp [identifyByte_one]
      · rw [identifyByte_two]; split <;> simp
    · simp
  | loadAddr => obtain ⟨hs, rfl⟩ | ⟨hs, rfl⟩ | ⟨hs, rfl⟩ | ⟨hs, rfl⟩ := exec_loadAddr_next h <;> simp [hs, loadAddrDone]
  | reset => obtain ⟨hs, rfl⟩ := exec_reset_next h; simp
  | unknown b => obtain ⟨hs, rfl⟩ | ⟨hs, rfl⟩ := exec_unknown_next h <;> simp
  | writePage =>
    obtain ⟨hs, h⟩ | ⟨k, hs, rfl⟩ | ⟨i, hs, h⟩ | ⟨p, hs, h⟩ | ⟨hs, rfl⟩ := exec_writePage_next h
    · obtain ⟨_, _, rfl⟩ := writePageStart_next h; simp
    · unfold writePageChecksum; split <;> simp
    · obtain ⟨_, rfl⟩ | ⟨_, a, _, ⟨_, rfl⟩ | ⟨_, rfl⟩⟩ := writePageData_next h <;> simp
    · obtain ⟨_, rfl⟩ | ⟨_, rfl, f, _, _, rfl⟩ | ⟨_, rfl, rfl⟩ := writePageProgram_next h <;> simp [hs]
    · simp

/-- Only the refresh after an acknowledgment and RESET's arming lower the count. -/
theorem exec_cnt {i : Instr} {s t : State} (h : exec i s = .next t) : t.wd.cnt < s.wd.cnt →
    (s.seq = .ack ∧ t.seq = .idle ∧ t.wd.cnt = 0) ∨ (s.seq = .idle ∧ t.seq = .spin ∧ t.wd.cnt = 0) := by
  cases i with
  | identify =>
    obtain ⟨hs, rfl⟩ | ⟨k, hs, rfl⟩ | ⟨hs, rfl⟩ := exec_identify_next h
    · simp
    · have hk : k = 0 ∨ k = 1 ∨ k = 2 := by omega
      rcases hk with rfl | rfl | rfl
      · simp [identifyByte_zero]
      · simp [identifyByte_one]
      · rw [identifyByte_two]; split <;> simp
    · simp [hs]
  | loadAddr => obtain ⟨hs, rfl⟩ | ⟨hs, rfl⟩ | ⟨hs, rfl⟩ | ⟨hs, rfl⟩ := exec_loadAddr_next h <;> simp [hs, loadAddrDone]
  | reset => obtain ⟨hs, rfl⟩ := exec_reset_next h; simp [hs]
  | unknown b => obtain ⟨hs, rfl⟩ | ⟨hs, rfl⟩ := exec_unknown_next h <;> simp [hs]
  | writePage =>
    obtain ⟨hs, h⟩ | ⟨k, hs, rfl⟩ | ⟨i, hs, h⟩ | ⟨p, hs, h⟩ | ⟨hs, rfl⟩ := exec_writePage_next h
    · obtain ⟨_, _, rfl⟩ := writePageStart_next h; simp
    · unfold writePageChecksum; split <;> simp
    · obtain ⟨_, rfl⟩ | ⟨_, a, _, ⟨_, rfl⟩ | ⟨_, rfl⟩⟩ := writePageData_next h <;> simp
    · obtain ⟨_, rfl⟩ | ⟨_, rfl, f, _, _, rfl⟩ | ⟨_, rfl, rfl⟩ := writePageProgram_next h <;> simp
    · simp [hs]

/-- The count never falls as time passes. -/
theorem advance_cnt (q : Nat) (s : State) : s.wd.cnt ≤ (advanceTo q s).wd.cnt := by simp; split <;> omega

end Sys2Proof.Machine
end

