-- ==== Sys2Proof/Laws/ByteLevel.lean ====
section
/-! SUPPORT. The block without a clock. The byte level (40_serial_transceiver.md R117) one byte at a time: what receiving a
byte comes to, and how the sequencer then settles. Runs with a fair watchdog (43_reset_guard_watchdog.md R171): what an event
does to the watchdog, and that a spinning block is reset. -/

namespace Sys2Proof.Machine

/-! The byte level. -/

theorem byteRun_append (e1 e2 : List ByteEvent) : ∀ s : State, byteRun (e1 ++ e2) s = andThen (byteRun e1 s) (byteRun e2) := by
  induction e1 with
  | nil => intro s; rfl
  | cons e rest ih =>
    intro s
    simp only [List.cons_append, byteRun]
    cases byteStep e s <;> simp [ih]

theorem byteRun_host_cons (b : Byte) (rest : List Byte) (s : State) :
    byteRun (hostBytes (b :: rest)) s = andThen (byteStep (.host b) s) (byteRun (hostBytes rest)) := rfl

@[simp] theorem byteRun_nil (s : State) : byteRun (hostBytes []) s = .next s := rfl

theorem untimedStep_valid {s : State} (e : UntimedEvent) (hv : s.cfg.valid = true) : untimedStep e s = untimedEffect e s :=
  if_pos hv

/-- A step without a clock answers a next state under a valid configuration only. -/
theorem untimedStep_next {e : UntimedEvent} {s t : State} (h : untimedStep e s = .next t) :
    s.cfg.valid = true ∧ untimedEffect e s = .next t := by
  unfold untimedStep at h
  split at h
  · exact ⟨‹_›, h⟩
  · cases h

theorem byteStep_enabled {e : ByteEvent} {s : State} (hv : s.cfg.valid = true) (h : e.untimed.enabled s = true) :
    byteStep e s = andThen (untimedEffect e.untimed s) (settle 3) := by
  rw [byteStep, if_pos hv, if_pos h, untimedStep_valid _ hv]

/-- In S_IDLE the byte is an opcode. -/
theorem byteStep_host_idle {s : State} (b : Byte) (hv : s.cfg.valid = true) (h : s.seq = .idle) :
    byteStep (.host b) s = andThen (exec (decodeOpcode b) { recvDone { s with rxsr := b } with op := b }) (settle 3) := by
  rw [byteStep_enabled (e := .host b) hv (show s.seq.listening = true by rw [h]; rfl)]
  simp [ByteEvent.untimed, untimedEffect, h, received, runTurn]

/-- Inside a command's body it is an operand. -/
theorem byteStep_host_body {s : State} (b : Byte) (hv : s.cfg.valid = true) (hl : s.seq.listening = true) (hn : s.seq ≠ .idle) :
    byteStep (.host b) s = andThen (exec (decodeOpcode s.op) (recvDone { s with rxsr := b })) (settle 3) := by
  rw [byteStep_enabled (e := .host b) hv hl]
  simp [ByteEvent.untimed, untimedEffect, received, runTurn, hn]

theorem byteStep_engine {s : State} (hv : s.cfg.valid = true) (h : s.fe.busy = true) :
    byteStep .engine s = settle 3 (engineComplete s) := byteStep_enabled (e := .engine) hv h

/-- The sequencer is blocked: it settles where it is. -/
theorem settle_blocked {s : State} (n : Nat) (h : s.sequencerReady = false) : settle n s = .next s := by
  cases n with
  | zero => rfl
  | succ n => exact if_neg (by simp [h])

theorem settle_ready {s : State} (n : Nat) (h : s.sequencerReady = true) :
    settle (n + 1) s = andThen (sequencerEvent s) (settle n) := if_pos h

theorem settle_listening {s : State} (n : Nat) (h : s.seq.listening = true) : settle n s = .next s :=
  settle_blocked n (by unfold State.sequencerReady; split <;> simp_all [Seq.listening])

theorem settle_spin {s : State} (n : Nat) (h : s.seq = .spin) : settle n s = .next s :=
  settle_blocked n (by simp only [State.sequencerReady, h])

theorem settle_ack {s : State} (n : Nat) (h : s.seq = .ack) (hi : decodeOpcode s.op ≠ .reset) :
    settle (n + 1) s = .next (finishCycle (byteSent s)) := by
  rw [settle_ready n (by simp only [State.sequencerReady, h]), show sequencerEvent s = _ from by
    simp only [sequencerEvent, h]; exact exec_ack hi h]
  exact settle_listening n rfl

theorem settle_busy {s : State} (n : Nat) {p : ProgPhase} (h : s.seq = .wProg p) (hb : s.fe.busy = true) :
    settle n s = .next s := settle_blocked n (by simp [State.sequencerReady, h, hb])

theorem settle_program {s : State} (n : Nat) {p : ProgPhase} (h : s.seq = .wProg p) (hb : s.fe.busy = false) :
    settle (n + 1) s = andThen (exec (decodeOpcode s.op) s) (settle n) := by
  rw [settle_ready n (by simp [State.sequencerReady, h, hb])]
  simp only [sequencerEvent, h]

/-! The watchdog in a run without a clock. -/

/-- At a position other than S_ACK, an action of a command other than RESET leaves the watchdog alone. -/
theorem exec_keeps_watchdog {i : Instr} {s t : State} (h : exec i s = .next t) (ha : s.seq ≠ .ack)
    (hr : ¬(s.seq = .idle ∧ i = .reset)) : t.wd = s.wd := by
  cases i with
  | identify =>
    obtain ⟨_, rfl⟩ | ⟨k, _, rfl⟩ | ⟨hs, _⟩ := exec_identify_next h
    · simp
    · have hk : k = 0 ∨ k = 1 ∨ k = 2 := by omega
      rcases hk with rfl | rfl | rfl
      · simp [identifyByte_zero]
      · simp [identifyByte_one]
      · rw [identifyByte_two]; split <;> simp
    · exact absurd hs ha
  | loadAddr => obtain ⟨_, rfl⟩ | ⟨_, rfl⟩ | ⟨_, rfl⟩ | ⟨hs, _⟩ := exec_loadAddr_next h <;> simp_all [loadAddrDone]
  | reset => exact absurd ⟨(exec_reset_next h).1, rfl⟩ hr
  | unknown b => obtain ⟨_, rfl⟩ | ⟨hs, _⟩ := exec_unknown_next h <;> simp_all
  | writePage =>
    obtain ⟨_, h⟩ | ⟨k, _, rfl⟩ | ⟨i, _, h⟩ | ⟨p, _, h⟩ | ⟨hs, _⟩ := exec_writePage_next h
    · obtain ⟨_, _, rfl⟩ := writePageStart_next h; simp
    · unfold writePageChecksum; split <;> simp
    · obtain ⟨_, rfl⟩ | ⟨_, a, _, ⟨_, rfl⟩ | ⟨_, rfl⟩⟩ := writePageData_next h <;> simp
    · obtain ⟨_, rfl⟩ | ⟨_, rfl, f, _, _, rfl⟩ | ⟨_, rfl, rfl⟩ := writePageProgram_next h <;> simp
    · exact absurd hs ha

/-- Every event but a reset that does not touch the watchdog leaves it alone: `touchesWatchdog` misses none. -/
theorem untimedStep_keeps_watchdog {e : UntimedEvent} {s t : State} (he : e.enabled s = true)
    (hw : e.touchesWatchdog s = false) (hr : ∀ causes, e ≠ .reset causes) (h : untimedStep e s = .next t) :
    t.wd = s.wd := by
  replace h := (untimedStep_next h).2
  cases e with
  | reset causes => exact absurd rfl (hr causes)
  | engine =>
    have h' : engineComplete s = t := by simpa [untimedEffect] using h
    rw [← h']; exact (engineComplete_keeps s).2.2.2.2.2.1
  | sequencer =>
    simp only [UntimedEvent.touchesWatchdog, Bool.or_eq_false_iff, beq_eq_false_iff_ne, ne_eq] at hw
    rw [show untimedEffect .sequencer s = sequencerEvent s from rfl] at h
    unfold sequencerEvent at h
    split at h
    · exact absurd ‹_› hw.1
    · exact absurd ‹_› hw.2
    · refine exec_keeps_watchdog h hw.2 (fun hi => ?_)
      simp [UntimedEvent.enabled, State.sequencerReady, hi.1] at he
  | receive b =>
    have hl : s.seq.listening = true := he
    have ha : s.seq ≠ .ack := by intro ha; rw [ha] at hl; cases hl
    simp only [UntimedEvent.touchesWatchdog, Bool.and_eq_false_iff, beq_eq_false_iff_ne, ne_eq] at hw
    simp only [untimedEffect, received] at h
    split at h <;> rename_i hs <;> simp only [runTurn] at h
    · refine (exec_keeps_watchdog h ha (fun hi => ?_)).trans ?_
      · rcases hw with hw | hw
        · exact hw hs
        · exact hw hi.2
      · simp
    · exact (exec_keeps_watchdog h ha (fun hi => hs hi.1)).trans (by simp)

/-- R171 at work: in a fair run, a block that spins with its watchdog armed is reset. -/
theorem spin_is_reset {states : Nat → State} {events : Nat → Option UntimedEvent} (hrun : UntimedRun states events)
    (hfair : WatchdogFair states events) {n : Nat} (hs : (states n).seq = .spin) (hw : (states n).wd.en = true) :
    ∃ m causes, n ≤ m ∧ events m = some (.reset causes) ∧ (states (m + 1)).seq = .guard := by
  suffices ∃ m causes, n ≤ m ∧ events m = some (.reset causes) by
    obtain ⟨m, causes, hm, he⟩ := this
    refine ⟨m, causes, hm, he, ?_⟩
    have h := hrun.2 m
    rw [he] at h
    have h' : hardwareReset causes (states m) = states (m + 1) := by simpa [untimedEffect] using (untimedStep_next h.2).2
    rw [← h']; rfl
  by_contra hnot
  have hno : ∀ m causes, n ≤ m → events m ≠ some (.reset causes) := fun m causes hm he => hnot ⟨m, causes, hm, he⟩
  have stays : ∀ k, (states (n + k)).seq = .spin ∧ (states (n + k)).wd.en = true := by
    intro k
    induction k with
    | zero => exact ⟨hs, hw⟩
    | succ k ih =>
      have h := hrun.2 (n + k)
      rcases he : events (n + k) with _ | e <;> rw [he] at h
      · have h' : states (n + (k + 1)) = states (n + k) := h
        rw [h']; exact ih
      · cases e with
        | receive b => have := h.1; simp [UntimedEvent.enabled, ih.1, Seq.listening] at this
        | sequencer => have := h.1; simp [UntimedEvent.enabled, ih.1, State.sequencerReady] at this
        | reset causes => exact absurd he (hno _ causes (Nat.le_add_right n k))
        | engine =>
          have h' : engineComplete (states (n + k)) = states (n + k + 1) := by simpa [untimedEffect] using (untimedStep_next h.2).2
          have hk := engineComplete_keeps (states (n + k))
          rw [← Nat.add_assoc, ← h', hk.1, hk.2.2.2.2.2.1]; exact ih
  obtain ⟨m, causes, hm, he, _⟩ := hfair n (fun m hm => by
    obtain ⟨k, rfl⟩ := Nat.exists_eq_add_of_le hm
    refine ⟨(stays k).2, fun e he => ?_⟩
    cases e <;> simp [UntimedEvent.touchesWatchdog, (stays k).1])
  exact hno m causes hm he

end Sys2Proof.Machine
end

