-- ==== Sys2Proof/Laws/Checksum.lean ====
section
/-! SUPPORT. The checksum's steps as arithmetic on natural numbers. -/

namespace Sys2Proof.Machine

theorem wordsOf_length (buf : List Byte) : (wordsOf buf).length = buf.length / 2 := by
  induction buf using wordsOf.induct with
  | case1 lo hi rest ih => simp only [wordsOf, List.length_cons, ih]; omega
  | case2 l hl =>
    rcases l with _ | ⟨a, _ | ⟨b, l⟩⟩
    · rfl
    · simp [wordsOf]
    · exact absurd rfl (hl a b l)

theorem accumulate_toNat (acc : Acc) (w : Half) : (accumulate acc w).toNat = (acc.toNat + w.toNat) % 2 ^ 32 := by
  simp [accumulate, BitVec.toNat_add]

/-- The accumulate phase is the sum of the words modulo 2^32. -/
theorem foldl_accumulate_toNat (ws : List Half) : ∀ acc : Acc,
    (ws.foldl accumulate acc).toNat = (acc.toNat + (ws.map BitVec.toNat).sum) % 2 ^ 32 := by
  induction ws with
  | nil => intro acc; simp [Nat.mod_eq_of_lt acc.isLt]
  | cons w rest ih => intro acc; simp only [List.foldl_cons, ih, accumulate_toNat, List.map_cons, List.sum_cons]; omega

theorem sum_words_le (ws : List Half) : (ws.map BitVec.toNat).sum ≤ 65535 * ws.length := by
  induction ws with
  | nil => simp
  | cons w rest ih => have := w.isLt; simp only [List.map_cons, List.sum_cons, List.length_cons]; omega

theorem foldOnce_toNat (acc : Acc) : (foldOnce acc).toNat = acc.toNat % 65536 + acc.toNat / 65536 := by
  have h1 : acc.toNat / 65536 % 65536 = acc.toNat / 65536 := by have := acc.isLt; omega
  have h2 : acc.toNat / 65536 < 65536 := by have := acc.isLt; omega
  simp [foldOnce, BitVec.toNat_add, BitVec.extractLsb'_toNat, Nat.shiftRight_eq_div_pow, h1]
  omega

theorem highHalf_eq_zero (acc : Acc) : acc.extractLsb' 16 16 = 0 ↔ acc.toNat < 65536 := by
  have := acc.isLt
  rw [← BitVec.toNat_inj]
  simp [BitVec.extractLsb'_toNat, Nat.shiftRight_eq_div_pow]
  omega

/-- One turn of the fold loop. -/
theorem foldCarry_succ_toNat (fuel : Nat) (acc : Acc) :
    foldCarry (fuel + 1) acc = if acc.toNat < 65536 then acc else foldCarry fuel (foldOnce acc) := by
  rw [foldCarry]
  by_cases h : acc.toNat < 65536
  · rw [if_pos ((highHalf_eq_zero acc).2 h), if_pos h]
  · rw [if_neg (fun h' => h ((highHalf_eq_zero acc).1 h')), if_neg h]

/-- A page has a checksum: an even length within the bound is never refused. -/
theorem checksum_even {buf : List Byte} (h : buf.length % 2 = 0) (hl : buf.length ≤ 131072) :
    checksum buf = .next (foldCarry 2 ((wordsOf buf).foldl accumulate 0)) := by
  rw [checksum, if_neg (by omega), if_neg (by omega)]

end Sys2Proof.Machine
end

