-- ==== Sys2Proof/Laws/Invariant.lean ====
section
/-! SUPPORT. The invariant of Safety.lean, agent by agent: time, the engine, a reset, the sequencer. -/

namespace Sys2Proof.Machine

/-- What a valid configuration gives. -/
theorem cfg_facts {c : Cfg} (h : c.valid = true) : c.pageSize % 2 = 0 ∧ 2 ≤ c.pageSize ∧ c.pageSize ≤ 65536 ∧ 0 < c.timerWidth ∧
    0 < wdtTicks c .short ∧ 0 < wdtTicks c .medium ∧ c.startLevel ≠ c.stopLevel ∧ c.appLimit ≤ 65536 := by
  simp only [Cfg.valid, Bool.and_eq_true, decide_eq_true_eq] at h
  obtain ⟨h1, h2, h3, h4, h5, h6, h7, h8, h9, h10, h11, h12, h13, h14, h15, h16⟩ := h
  refine ⟨h3, h1, h2, h7, Nat.mul_pos h12 h14, Nat.mul_pos (by omega) h14, h16, h5⟩

/-- Everything the invariant looks at, but for `tcnt`. -/
structure InvSame (s t : State) : Prop where
  cfg : t.cfg = s.cfg
  seq : t.seq = s.seq
  pb : t.pb = s.pb
  ftb : t.ftb = s.ftb
  flash : t.flash = s.flash
  fe : t.fe = s.fe
  readEn : t.readEn = s.readEn
  op : t.op = s.op
  ok : t.ok = s.ok
  txd : t.txd = s.txd
  txByte : t.loc.txByte = s.loc.txByte
  txBit : t.loc.txBit = s.loc.txBit
  wd : t.wd = s.wd
  rc : t.rc = s.rc
  out : t.hist.out = s.hist.out
  ar : t.ar = s.ar
  arw : t.arWritten = s.arWritten

/-- The invariant looks at nothing else, but for the range of `tcnt`. -/
theorem Inv_same {s t : State} (h : s.Inv) (k : InvSame s t) (ht : t.tcnt < 2 ^ s.cfg.timerWidth) : t.Inv := by
  obtain ⟨⟨a1, a2, a3, a4, a5, a6⟩, ⟨b1, b2⟩, c, d, e, f, g, i, j⟩ := h
  obtain ⟨k1, k2, k3, k4, k5, k6, k7, k8, k9, k10, k11, k12, k13, k14, k15, k16, k17⟩ := k
  constructor
  · constructor <;> simp only [k1, k2, k3, k4, k12] <;> assumption
  · constructor <;> simp only [k1, k5] <;> assumption
  · simp only [State.EngineOk, State.pageBase, k1, k6, k7] at *; exact c
  · simp only [State.OpcodeOk, k2, k8] at *; exact d
  · simp only [State.TxdOk, k1, k2, k9, k10, k11, k12] at *; exact e
  · simp only [State.SupervisorOk, k1, k2, k13, k14] at *; exact f
  · simp only [State.BootOk, k2, k6, k7] at *; exact g
  · simp only [State.RepliesOk, k15] at *; exact i
  · simp only [State.WriteOk, State.admission, State.pageErased, State.pageHolds, State.pageOf, State.pageBase, k1, k2, k3, k5, k6, k7, k16, k17] at *; exact j

/-- Time passing, short of a watchdog expiry, keeps the invariant. -/
theorem advance_inv {s : State} {q : Nat} (h : s.Inv) (hw : ∀ w, s.wdtDue = some w → q < w) (hg : s.seq = .guard → q = s.now) :
    (advanceTo q s).Inv := by
  have hc := cfg_facts h.shapes.config
  obtain ⟨⟨a1, a2, a3, a4, a5, a6⟩, ⟨b1, b2⟩, c, d, e, f, g, i, j⟩ := h
  refine ⟨⟨a1, a2, a3, Nat.mod_lt _ (Nat.two_pow_pos _), a5, a6⟩, ⟨b1, b2⟩, c, d, e, ?_, g, i, j⟩
  simp only [State.SupervisorOk, State.wdtDue] at f hw ⊢
  simp only [advanceTo_fields]
  have hq : s.seq ≠ .guard → s.wd.en = true → s.wd.cnt < wdtTicks s.cfg s.wd.period → s.wd.cnt + (q - s.now) < wdtTicks s.cfg s.wd.period := by
    intro h1 h2 h3
    rw [if_neg h1, if_pos h2] at hw
    have := hw _ rfl
    omega
  split <;> rename_i hs <;> simp only [hs] at f
  · have := hg hs; simp [this, f]
  · simp [f]
  · obtain ⟨f1, f2, f3, f4⟩ := f
    refine ⟨f1, f2, ?_, f4⟩
    rw [if_pos f1]; rw [← f2] at f3 ⊢; exact hq (by simp [hs]) f1 f3
  · obtain ⟨f1, f2, f3, f4⟩ := f
    refine ⟨f1, f2, ?_, f4⟩
    rw [if_pos f1]; rw [← f2] at f3 ⊢; exact hq (by assumption) f1 f3

/-- An engine completion keeps the invariant. -/
theorem engine_inv {s : State} (h : s.Inv) : (engineComplete s).Inv := by
  have hc := cfg_facts h.shapes.config
  obtain ⟨⟨a1, a2, a3, a4, a5, a6⟩, ⟨b1, b2⟩, c, d, e, f, g, i, j1, j⟩ := h
  unfold engineComplete
  rcases hf : s.fe with _ | p | ⟨p, sn, cl⟩
  · exact ⟨⟨a1, a2, a3, a4, a5, a6⟩, ⟨b1, b2⟩, c, d, e, f, g, i, j1, j⟩
  · have hp := c
    simp only [State.EngineOk, hf] at hp
    refine ⟨⟨a1, a2, by simp, a4, a5, a6⟩, ⟨flashWrite_wf _ _ b1, ?_⟩, trivial, d, e, f, ?_, i, j1, ?_⟩
    · intro x hx
      rcases mem_flashWrite _ hx with hx | ⟨_, hx⟩
      · exact b2 x hx
      · rw [List.length_replicate] at hx; show x.1 < s.cfg.appLimit; omega
    · simp only [State.BootOk] at g ⊢
      split <;> rename_i hs <;> simp [hs, hf] at g ⊢
    · have er : ∀ q, q = p → State.pageErased
          { s with
            flash := flashWrite s.flash (s.pageBase p) (List.replicate s.cfg.pageSize s.cfg.erasedByte)
            ftb := freeBytes s.draws s.cfg.pageSize
            fe := .idle
            draws := s.draws + 2 } q = true := by
        rintro q rfl
        simp only [State.pageErased, State.pageBase, List.all_eq_true, List.mem_range, beq_iff_eq]
        intro k hk
        rw [flashGet_flashWrite_inside _ _ _ _ (by simpa using hk)]
        simp [hk]
      have aux : (s.fe = .erasing (s.pageOf s.ar) ∨ (s.fe = .idle ∧ s.pageErased (s.pageOf s.ar) = true)) → s.pageOf s.ar = p := by
        rw [hf]; rintro (h | ⟨h, _⟩) <;> cases h; rfl
      dsimp only; split <;> rename_i hs <;> simp only [hs] at j <;> try trivial
      · exact .inr ⟨rfl, er _ (aux j)⟩
      · exact .inr ⟨rfl, er _ (aux j)⟩
      · exact .inr ⟨rfl, er _ (aux j)⟩
      · rw [hf] at j; rcases j with j | ⟨j, _⟩ <;> cases j
  · have hp := c
    simp only [State.EngineOk, hf] at hp
    have hl : (if cl then sn else freeBytes (s.draws + 1) s.cfg.pageSize).length = s.cfg.pageSize := by split <;> simp [hp.2.2]
    refine ⟨⟨a1, a2, by simp, a4, a5, a6⟩, ⟨flashWrite_wf _ _ b1, ?_⟩, trivial, d, e, f, ?_, i, j1, ?_⟩
    · intro x hx
      rcases mem_flashWrite _ hx with hx | ⟨_, hx⟩
      · exact b2 x hx
      · rw [hl] at hx; show x.1 < s.cfg.appLimit; omega
    · simp only [State.BootOk] at g ⊢
      split <;> rename_i hs <;> simp [hs, hf] at g ⊢
    · dsimp only; split <;> rename_i hs <;> simp only [hs] at j <;> try trivial
      · rw [hf] at j; rcases j with j | ⟨j, _⟩ <;> cases j
      · rw [hf] at j; rcases j with j | ⟨j, _⟩ <;> cases j
      · rw [hf] at j; rcases j with j | ⟨j, _⟩ <;> cases j
      · rw [hf] at j; rcases j with j | ⟨j, _⟩ <;> cases j
        refine .inr ⟨rfl, ?_⟩
        intro k hk
        exact (flashGet_flashWrite_inside _ _ _ _ (by simpa [a2] using hk))

/-- A hardware reset keeps the invariant. -/
theorem reset_inv {s : State} (q : Nat) (h : s.Inv) : (resetAt q s).Inv := by
  have hc := cfg_facts h.shapes.config
  obtain ⟨⟨a1, a2, a3, a4, a5, a6⟩, ⟨b1, b2⟩, c, d, e, f, g, i, j1, j⟩ := h
  refine ⟨⟨a1, freeBytes_length _ _, freeBytes_length _ _, Nat.mod_lt _ (Nat.two_pow_pos _), (by intro k hk; cases hk), by show 0 ≤ 9; decide⟩,
    ⟨hardwareReset_wf _ b1, ?_⟩, trivial, trivial, rfl, rfl, ⟨rfl, rfl⟩, ?_, ⟨(by intro h; cases h), trivial⟩⟩
  · intro x hx
    simp only [resetAt, hardwareReset, State.flashAfterReset, advanceTo_fields] at hx
    rcases hf : s.fe with _ | p | ⟨p, sn, cl⟩ <;> rw [hf] at hx <;> simp only [State.EngineOk, hf] at c
    · exact b2 x hx
    · rcases mem_flashWrite _ hx with hx | ⟨_, hx⟩
      · exact b2 x hx
      · rw [freeBytes_length] at hx; exact Nat.lt_of_lt_of_le hx c.1
    · rcases mem_flashWrite _ hx with hx | ⟨_, hx⟩
      · exact b2 x hx
      · rw [freeBytes_length] at hx; exact Nat.lt_of_lt_of_le hx c.1
  · intro b hb; cases hb

/-- From one listening position to another. -/
theorem listen_inv {s t : State} (h : s.Inv) (hs : s.seq.listening = true) (ht : t.seq.listening = true)
    (k1 : t.cfg = s.cfg) (k3 : t.pb.length = s.pb.length) (k4 : t.ftb.length = s.ftb.length) (k5 : t.flash = s.flash)
    (k12 : t.loc.txBit = s.loc.txBit) (k10 : t.txd = s.txd) (k13 : t.wd = s.wd) (k14 : t.rc = s.rc) (k15 : t.hist.out = s.hist.out)
    (kt : t.tcnt < 2 ^ s.cfg.timerWidth) (kp : ∀ i, t.seq = .wData i → i < t.cfg.pageSize) (ke : t.EngineOk) (ko : t.OpcodeOk) (kw : t.WriteOk) : t.Inv := by
  obtain ⟨⟨a1, a2, a3, a4, a5, a6⟩, ⟨b1, b2⟩, c, d, e, f, g, i, j⟩ := h
  refine ⟨⟨by rw [k1]; exact a1, by rw [k1, k3]; exact a2, by rw [k1, k4]; exact a3, by rw [k1]; exact kt, kp, by rw [k12]; exact a6⟩,
    ⟨by rw [k5]; exact b1, by rw [k1, k5]; exact b2⟩, ke, ko, ?_, ?_, ?_, ?_, kw⟩
  · simp only [State.TxdOk, k1, k10] at *
    split <;> rename_i h1 <;> simp only [h1, Seq.listening] at ht <;> try cases ht
    split at e <;> rename_i h2 <;> simp only [h2, Seq.listening] at hs <;> try cases hs
    exact e
  · simp only [State.SupervisorOk, k1, k13, k14] at *
    split <;> rename_i h1 <;> simp only [h1, Seq.listening] at ht <;> try cases ht
    split at f <;> rename_i h2 <;> simp only [h2, Seq.listening] at hs <;> try cases hs
    exact f
  · simp only [State.BootOk] at *
    split <;> rename_i h1 <;> simp only [h1, Seq.listening] at ht <;> try cases ht
    trivial
  · simp only [State.RepliesOk, k15] at *; exact i

/-- In the loop, not spinning, not sending. -/
def Seq.handling : Seq → Bool
  | .guard => false | .app => false | .ack => false | .spin => false | _ => true

/-- From a position inside a command to its acknowledgment. -/
theorem ack_inv {s t : State} (h : s.Inv) (hs : s.seq.handling = true) (ht : t.seq = .ack)
    (k1 : t.cfg = s.cfg) (k3 : t.pb.length = s.pb.length) (k4 : t.ftb = s.ftb) (k5 : t.flash = s.flash)
    (k12 : t.loc.txBit = 0) (k10 : t.txd = .drive s.cfg.startLevel) (kb : t.loc.txByte = ackByte t.ok) (k13 : t.wd = s.wd) (k14 : t.rc = s.rc) (k15 : t.hist.out = s.hist.out)
    (kt : t.tcnt = 0) (ke : t.EngineOk) (ko : decodeOpcode t.op ≠ .reset) : t.Inv := by
  obtain ⟨⟨a1, a2, a3, a4, a5, a6⟩, ⟨b1, b2⟩, c, d, e, f, g, i, j⟩ := h
  refine ⟨⟨by rw [k1]; exact a1, by rw [k1, k3]; exact a2, by rw [k1, k4]; exact a3, by rw [kt]; exact Nat.two_pow_pos _, (by rw [ht]; intro i h; cases h), by rw [k12]; decide⟩,
    ⟨by rw [k5]; exact b1, by rw [k1, k5]; exact b2⟩, ke, ?_, ?_, ?_, ?_, ?_, ?_⟩
  · simp only [State.OpcodeOk, ht]; exact ko
  · simp only [State.TxdOk, ht]; exact ⟨kb, by rw [k10, k12, k1]; rfl⟩
  · simp only [State.SupervisorOk, ht, k1, k13, k14] at *
    split at f <;> rename_i h2 <;> simp only [h2, Seq.handling] at hs <;> try cases hs
    exact f
  · simp only [State.BootOk, ht]
  · simp only [State.RepliesOk, k15] at *; exact i
  · simp only [State.WriteOk, ht]; exact ⟨(by intro h; cases h), trivial⟩

/-- From the end of the acknowledgment frame back to S_IDLE. -/
theorem finish_inv {s : State} (h : s.Inv) (hs : s.seq = .ack) (h9 : s.loc.txBit = 9) : (finishCycle (sendDone s)).Inv := by
  have hc := cfg_facts h.shapes.config
  obtain ⟨⟨a1, a2, a3, a4, a5, a6⟩, ⟨b1, b2⟩, c, d, e, f, g, i, j⟩ := h
  simp only [State.TxdOk, hs] at e
  simp only [State.SupervisorOk, hs] at f
  refine ⟨⟨a1, a2, a3, a4, (by intro i h; cases h), a6⟩, ⟨b1, b2⟩, c, trivial, ?_, ?_, trivial, ?_, ⟨(by intro h; cases h), trivial⟩⟩
  · show s.txd = _
    rw [e.2, h9]; rfl
  · exact ⟨f.1, f.2.1, hc.2.2.2.2.2.1, f.2.2.2⟩
  · intro b hb
    simp only [finishCycle_fields, sendDone_fields, List.mem_append, List.mem_singleton] at hb
    rcases hb with hb | rfl
    · exact i b hb
    · rw [e.1]; unfold ackByte; split <;> simp

/-- An action of the command in hand keeps the invariant. -/
theorem exec_inv {s t : State} (h : s.Inv) (hn : s.seq ≠ .ack) (hx : exec (decodeOpcode s.op) s = .next t) : t.Inv := by
  have hc := cfg_facts h.shapes.config
  have hd := h.opcode
  generalize hi : decodeOpcode s.op = i at hx
  cases i with
  | identify =>
    obtain ⟨hs, rfl⟩ | ⟨k, hs, rfl⟩ | ⟨hs, rfl⟩ := exec_identify_next hx
    · refine listen_inv h (by rw [hs]; rfl) rfl rfl rfl rfl rfl rfl rfl rfl rfl rfl h.shapes.timer (by intro _ h; cases h) h.engine hi ⟨(by intro h; cases h), trivial⟩
    · have hk : k = 0 ∨ k = 1 ∨ k = 2 := by omega
      rcases hk with rfl | rfl | rfl
      · refine listen_inv h (by rw [hs]; rfl) rfl rfl rfl rfl rfl rfl rfl rfl rfl rfl h.shapes.timer (by intro _ h; cases h) h.engine hi ⟨(by intro h; cases h), trivial⟩
      · refine listen_inv h (by rw [hs]; rfl) rfl rfl rfl rfl rfl rfl rfl rfl rfl rfl h.shapes.timer (by intro _ h; cases h) h.engine hi ⟨(by intro h; cases h), trivial⟩
      · rw [identifyByte_two]
        split
        · exact ack_inv h (by rw [hs]; rfl) rfl rfl rfl rfl rfl rfl rfl rfl rfl rfl rfl rfl h.engine (by show decodeOpcode s.op ≠ _; rw [hi]; simp)
        · exact ack_inv h (by rw [hs]; rfl) rfl rfl rfl rfl rfl rfl rfl rfl rfl rfl rfl rfl h.engine (by show decodeOpcode s.op ≠ _; rw [hi]; simp)
    · exact absurd hs hn
  | loadAddr =>
    obtain ⟨hs, rfl⟩ | ⟨hs, rfl⟩ | ⟨hs, rfl⟩ | ⟨hs, rfl⟩ := exec_loadAddr_next hx
    · refine listen_inv h (by rw [hs]; rfl) rfl rfl rfl rfl rfl rfl rfl rfl rfl rfl h.shapes.timer (by intro _ h; cases h) h.engine hi ⟨(by intro h; cases h), trivial⟩
    · refine listen_inv h (by rw [hs]; rfl) rfl rfl rfl rfl rfl rfl rfl rfl rfl rfl h.shapes.timer (by intro _ h; cases h) h.engine hi ⟨(by intro h; cases h), trivial⟩
    · exact ack_inv h (by rw [hs]; rfl) rfl rfl rfl rfl rfl rfl rfl rfl rfl rfl rfl rfl h.engine (by show decodeOpcode s.op ≠ _; rw [hi]; simp)
    · exact absurd hs hn
  | unknown b =>
    obtain ⟨hs, rfl⟩ | ⟨hs, rfl⟩ := exec_unknown_next hx
    · exact ack_inv h (by rw [hs]; rfl) rfl rfl rfl rfl rfl rfl rfl rfl rfl rfl rfl rfl h.engine (by show decodeOpcode s.op ≠ _; rw [hi]; simp)
    · exact absurd hs hn
  | reset =>
    obtain ⟨hs, rfl⟩ := exec_reset_next hx
    obtain ⟨⟨a1, a2, a3, a4, a5, a6⟩, ⟨b1, b2⟩, c, d, e, f, g, i, j⟩ := h
    simp only [State.TxdOk, hs] at e
    simp only [State.SupervisorOk, hs] at f
    exact ⟨⟨a1, a2, a3, a4, (by intro i h; cases h), a6⟩, ⟨b1, b2⟩, c, hi, e, ⟨rfl, rfl, hc.2.2.2.2.1, f.2.2.2⟩, trivial, i, ⟨(by intro h; cases h), trivial⟩⟩
  | writePage =>
    have nr : decodeOpcode s.op ≠ .reset := by rw [hi]; simp
    obtain ⟨hs, hx⟩ | ⟨k, hs, rfl⟩ | ⟨k, hs, hx⟩ | ⟨p, hs, hx⟩ | ⟨hs, rfl⟩ := exec_writePage_next hx
    · obtain ⟨ha, hf, rfl⟩ := writePageStart_next hx
      refine listen_inv h (by rw [hs]; rfl) rfl rfl rfl rfl rfl rfl rfl rfl rfl rfl h.shapes.timer ?_ ?_ hi ⟨fun _ => ha, .inl rfl⟩
      · intro _ h; cases h
      · refine ⟨?_, rfl⟩
        show s.pageBase (s.pageOf s.ar) + s.cfg.pageSize ≤ s.cfg.appLimit
        unfold State.admission at ha
        split at ha; cases ha
        split at ha; cases ha
        split at ha; cases ha
        rename_i h1 h2 h3
        have : s.pageBase (s.pageOf s.ar) = s.ar.toNat := Nat.div_mul_cancel (Nat.dvd_of_mod_eq_zero (by omega))
        omega
    · have hw := h.write
      simp only [State.WriteOk, hs] at hw
      unfold writePageChecksum
      split
      · refine listen_inv h (by rw [hs]; rfl) rfl rfl rfl rfl rfl rfl rfl rfl rfl rfl h.shapes.timer ?_ h.engine hi ⟨fun _ => hw.1 rfl, hw.2⟩
        intro _ h; cases h
      · refine listen_inv h (by rw [hs]; rfl) rfl rfl rfl rfl rfl rfl rfl rfl rfl rfl h.shapes.timer ?_ h.engine hi ⟨fun _ => hw.1 rfl, hw.2⟩
        intro i h; cases h; show 0 < s.cfg.pageSize; omega
    · have hw := h.write
      simp only [State.WriteOk, hs] at hw
      obtain ⟨hlt, rfl⟩ | ⟨_, a, _, ⟨_, rfl⟩ | ⟨_, rfl⟩⟩ := writePageData_next hx
      · refine listen_inv h (by rw [hs]; rfl) rfl rfl (List.length_set ..) rfl rfl rfl rfl rfl rfl rfl h.shapes.timer ?_ h.engine hi ⟨fun _ => hw.1 rfl, hw.2⟩
        intro i h; cases h; exact hlt
      · obtain ⟨⟨a1, a2, a3, a4, a5, a6⟩, ⟨b1, b2⟩, c, d, e, f, g, i, j⟩ := h
        simp only [State.TxdOk, hs] at e
        simp only [State.SupervisorOk, hs] at f
        exact ⟨⟨a1, (by simpa using a2), a3, a4, (by intro i h; cases h), a6⟩, ⟨b1, b2⟩, c, hi, e, f, trivial, i, ⟨fun _ => hw.1 rfl, hw.2⟩⟩
      · exact ack_inv h (by rw [hs]; rfl) rfl rfl (List.length_set ..) rfl rfl rfl rfl rfl rfl rfl rfl rfl h.engine nr
    · obtain ⟨_, rfl⟩ | ⟨hf, rfl, f, hl, hfc, rfl⟩ | ⟨hf, rfl, rfl⟩ := writePageProgram_next hx
      · exact h
      · have hw := h.write
        simp only [State.WriteOk, hs] at hw
        have e1 := fillAndCommit_page (a := s.ar) h.shapes.pb hc.1 h.shapes.ftb (busy_eq_false.2 hf)
        rw [e1] at hfc
        have hpb : s.pb = f := congrArg (fun r => match r with | Host.Outcome.next u => u.ftb | _ => []) hfc
        have he : s.pageErased (s.pageOf s.ar) = true := by
          rcases hw.2 with h | h
          · rw [hf] at h; cases h
          · exact h.2
        have hadm := hw.1 rfl
        obtain ⟨⟨a1, a2, a3, a4, a5, a6⟩, ⟨b1, b2⟩, c, d, e, f', g, i, j⟩ := h
        simp only [State.TxdOk, hs] at e
        simp only [State.SupervisorOk, hs] at f'
        refine ⟨⟨a1, a2, ?_, a4, (by intro i h; cases h), a6⟩, ⟨b1, b2⟩, ⟨?_, rfl, ?_⟩, hi, e, f', trivial, i, ⟨fun _ => hadm, .inl ?_⟩⟩
        · show f.length = _; rw [hl]; exact a3
        · show s.pageBase (s.pageOf s.ar) + s.cfg.pageSize ≤ s.cfg.appLimit
          have ha := hadm
          unfold State.admission at ha
          split at ha; cases ha
          split at ha; cases ha
          split at ha; cases ha
          rename_i h1 h2 h3
          have : s.pageBase (s.pageOf s.ar) = s.ar.toNat := Nat.div_mul_cancel (Nat.dvd_of_mod_eq_zero (by omega))
          omega
        · show f.length = _; rw [hl]; exact a3
        · show FlashEngine.writing (s.pageOf s.ar) f (s.pageErased (s.pageOf s.ar)) = .writing (s.pageOf s.ar) s.pb true
          rw [he, hpb]
      · exact ack_inv h (by rw [hs]; rfl) rfl rfl rfl rfl rfl rfl rfl rfl rfl rfl rfl rfl (by show State.EngineOk _; simp only [State.EngineOk, acknowledge_fields, hf]) nr
    · exact absurd hs hn

/-- The application path keeps the invariant. -/
theorem appPath_inv {s : State} (h : s.Inv) (hs : s.seq = .guard) (hr : s.rc.ext = false) : (applicationPath s).Inv := by
  obtain ⟨⟨a1, a2, a3, a4, a5, a6⟩, ⟨b1, b2⟩, c, d, e, f, g, i, j⟩ := h
  simp only [State.TxdOk, hs] at e
  simp only [State.SupervisorOk, hs] at f
  simp only [State.BootOk, hs] at g
  constructor
  · constructor <;> simp only [applicationPath_fields] <;> first | assumption | (intro i h; cases h)
  · constructor <;> simp only [applicationPath_fields] <;> assumption
  · simp only [State.EngineOk, State.pageBase, applicationPath_fields] at *; exact c
  · simp only [State.OpcodeOk, applicationPath_fields]
  · simp only [State.TxdOk, applicationPath_fields]; exact e
  · simp only [State.SupervisorOk, applicationPath_fields]; exact ⟨trivial, hr, trivial⟩
  · simp only [State.BootOk, applicationPath_fields]; exact g
  · simp only [State.RepliesOk, applicationPath_fields]; exact i
  · simp only [State.WriteOk, applicationPath_fields]; exact ⟨(by intro h; cases h), trivial⟩

/-- The bootloader path establishes the invariant of the loop. -/
theorem bootPath_inv {s : State} (h : s.Inv) : (bootloaderPath s).Inv := by
  have hc := cfg_facts h.shapes.config
  obtain ⟨⟨a1, a2, a3, a4, a5, a6⟩, ⟨b1, b2⟩, c, d, e, f, g, i, j⟩ := h
  constructor
  · constructor <;> simp only [bootloaderPath_fields] <;> first | assumption | (intro i h; cases h)
  · constructor <;> simp only [bootloaderPath_fields] <;> assumption
  · simp only [State.EngineOk, State.pageBase, bootloaderPath_fields] at *; exact c
  · simp only [State.OpcodeOk, bootloaderPath_fields]
  · simp only [State.TxdOk, bootloaderPath_fields]
  · simp only [State.SupervisorOk, bootloaderPath_fields]; exact ⟨trivial, trivial, hc.2.2.2.2.2.1, trivial⟩
  · simp only [State.BootOk, bootloaderPath_fields]
  · simp only [State.RepliesOk, bootloaderPath_fields]; exact i
  · simp only [State.WriteOk, bootloaderPath_fields]; exact ⟨(by intro h; cases h), trivial⟩

/-- What the sequencer does at its instant keeps the invariant. -/
theorem seqTurn_inv {s t : State} (h : s.Inv) (hx : runTurn (seqTurn s) = .next t) : t.Inv := by
  have hc := cfg_facts h.shapes.config
  have z : (0 : Nat) < 2 ^ s.cfg.timerWidth := Nat.two_pow_pos _
  have hrecv : s.seq.listening = true → runTurn (recvTurn s) = .next t → t.Inv := by
    intro hl hx
    unfold recvTurn at hx
    split at hx
    · cases hx; exact Inv_same h ⟨rfl, rfl, rfl, rfl, rfl, rfl, rfl, rfl, rfl, rfl, rfl, rfl, rfl, rfl, rfl, rfl, rfl⟩ h.shapes.timer
    · cases hx; unfold recvPoll; split
      · exact Inv_same h ⟨rfl, rfl, rfl, rfl, rfl, rfl, rfl, rfl, rfl, rfl, rfl, rfl, rfl, rfl, rfl, rfl, rfl⟩ z
      · exact Inv_same h ⟨rfl, rfl, rfl, rfl, rfl, rfl, rfl, rfl, rfl, rfl, rfl, rfl, rfl, rfl, rfl, rfl, rfl⟩ h.shapes.timer
    · cases hx; unfold recvStart; split
      · exact Inv_same h ⟨rfl, rfl, rfl, rfl, rfl, rfl, rfl, rfl, rfl, rfl, rfl, rfl, rfl, rfl, rfl, rfl, rfl⟩ h.shapes.timer
      · exact Inv_same h ⟨rfl, rfl, rfl, rfl, rfl, rfl, rfl, rfl, rfl, rfl, rfl, rfl, rfl, rfl, rfl, rfl, rfl⟩ z
    · cases hx; exact Inv_same h ⟨rfl, rfl, rfl, rfl, rfl, rfl, rfl, rfl, rfl, rfl, rfl, rfl, rfl, rfl, rfl, rfl, rfl⟩ z
    · split at hx
      · cases hx; exact Inv_same h ⟨rfl, rfl, rfl, rfl, rfl, rfl, rfl, rfl, rfl, rfl, rfl, rfl, rfl, rfl, rfl, rfl, rfl⟩ h.shapes.timer
      · unfold received at hx
        split at hx <;> rename_i hs
        · refine exec_inv (s := { recvDone s with op := s.rxsr }) ?_ (by show s.seq ≠ _; rw [hs]; simp) hx
          obtain ⟨⟨a1, a2, a3, a4, a5, a6⟩, ⟨b1, b2⟩, c, d, e, f, g, i, j⟩ := h
          exact ⟨⟨a1, a2, a3, a4, a5, a6⟩, ⟨b1, b2⟩, c, by simp only [State.OpcodeOk, recvDone_fields, hs], e, f, g, i, j⟩
        · refine exec_inv (s := recvDone s) ?_ (by show s.seq ≠ _; intro h'; rw [h'] at hl; cases hl) hx
          exact Inv_same h ⟨rfl, rfl, rfl, rfl, rfl, rfl, rfl, rfl, rfl, rfl, rfl, rfl, rfl, rfl, rfl, rfl, rfl⟩ h.shapes.timer
  unfold seqTurn at hx
  split at hx <;> rename_i hs
  · cases hx
    unfold resetGuard
    split
    · exact bootPath_inv h
    · rename_i hr
      exact appPath_inv h hs (Bool.eq_false_iff.2 hr)
  · unfold sendTurn at hx
    have hd := h.opcode
    simp only [State.OpcodeOk, hs] at hd
    split at hx
    · cases hx
      obtain ⟨⟨a1, a2, a3, a4, a5, a6⟩, ⟨b1, b2⟩, c, d, e, f, g, i, j⟩ := h
      simp only [State.TxdOk, hs] at e
      simp only [State.SupervisorOk, hs] at f
      refine ⟨⟨a1, a2, a3, z, (by intro i h; exact a5 i h), ?_⟩, ⟨b1, b2⟩, c, by simp only [State.OpcodeOk, sendPeriod_fields, hs]; exact hd, ?_, ?_, by simp only [State.BootOk, sendPeriod_fields, hs], i, ?_⟩
      · show s.loc.txBit + 1 ≤ 9; omega
      · simp only [State.TxdOk, sendPeriod_fields, hs]; exact ⟨e.1, trivial⟩
      · simp only [State.SupervisorOk, sendPeriod_fields, hs]; exact f
      · simp only [State.WriteOk, sendPeriod_fields, hs]; exact ⟨(by intro h; cases h), trivial⟩
    · have e9 : s.loc.txBit = 9 := by have := h.shapes.txBit; omega
      have := exec_ack (s := sendDone s) hd hs
      have hx : exec (decodeOpcode s.op) (sendDone s) = .next t := hx
      rw [this] at hx
      cases hx
      exact finish_inv h hs e9
  · exact exec_inv h (by rw [hs]; simp) hx
  · cases hx; exact h
  · cases hx; exact h
  · refine hrecv ?_ hx
    cases hq : s.seq <;> simp_all [Seq.listening]

end Sys2Proof.Machine
end

