-- ==== Sys2Proof/Laws/Line.lean ====
section
/-! SUPPORT. Lines as functions of time: the first tick at a level, the levels of frames sent back to back, and the receive
shift over a frame's data bits. -/

namespace Sys2Proof.Machine

/-- The first tick from `t` on at which the line shows `want`. -/
theorem firstAt_eq {want : Bool} : ∀ (l : List (Nat × Bool)) {cur : Bool} {t u : Nat}, t ≤ u → levelAt cur l u = want →
    (∀ x, t ≤ x → x < u → levelAt cur l x ≠ want) → firstAt want cur l t = some u := by
  intro l
  induction l with
  | nil =>
    intro cur t u htu hu hx
    rcases Nat.lt_or_eq_of_le htu with h | rfl
    · exact absurd hu (hx t le_rfl h)
    · exact if_pos hu
  | cons e rest ih =>
    obtain ⟨v, b⟩ := e
    intro cur t u htu hu hx
    simp only [firstAt]
    have later : ∀ y, v ≤ y → levelAt cur ((v, b) :: rest) y = levelAt b rest y := fun y hy => if_pos hy
    have before : ∀ y, y < v → levelAt cur ((v, b) :: rest) y = cur := fun y hy => if_neg (by omega)
    by_cases hv : v ≤ t
    · rw [if_pos hv]
      exact ih htu (by rw [← later u (by omega)]; exact hu) (fun x h1 h2 => by rw [← later x (by omega)]; exact hx x h1 h2)
    · rw [if_neg hv]
      by_cases hc : cur = want
      · rw [if_pos hc]
        rcases Nat.lt_or_eq_of_le htu with h | rfl
        · exact absurd ((before t (by omega)).trans hc) (hx t le_rfl h)
        · rfl
      · rw [if_neg hc]
        have hvu : v ≤ u := by
          by_contra h; exact hc ((before u (by omega)).symm.trans hu)
        exact ih hvu (by rw [← later u hvu]; exact hu) (fun x h1 h2 => by rw [← later x h1]; exact hx x (by omega) h2)

/-- Before the first change of a line it shows the level it began with. -/
theorem levelAt_before {cur : Bool} {l : List (Nat × Bool)} {t : Nat} (h : ∀ e ∈ l.head?, t < e.1) : levelAt cur l t = cur := by
  cases l with
  | nil => rfl
  | cons e rest => exact if_neg (by have := h e rfl; omega)

theorem levelAt_append {l r : List (Nat × Bool)} : ∀ {cur : Bool} {t : Nat}, (∀ e ∈ l, e.1 ≤ t) →
    levelAt cur (l ++ r) t = levelAt (levelAt cur l t) r t := by
  induction l with
  | nil => intro cur t _; rfl
  | cons e rest ih =>
    intro cur t h
    obtain ⟨v, b⟩ := e
    have hv : v ≤ t := h (v, b) (by simp)
    simp only [List.cons_append, levelAt, if_pos hv]
    exact ih (fun e he => h e (by simp [he]))

/-- Changes that all come after `t` do not matter at `t`. -/
theorem levelAt_append_after {l r : List (Nat × Bool)} : ∀ {cur : Bool} {t : Nat}, (∀ e ∈ r.head?, t < e.1) →
    levelAt cur (l ++ r) t = levelAt cur l t := by
  induction l with
  | nil => intro cur t h; exact levelAt_before h
  | cons e rest ih =>
    intro cur t h
    obtain ⟨v, b⟩ := e
    simp only [List.cons_append, levelAt, ih h]

theorem getLsbD_shiftIn (b : Bool) (r : Byte) (i : Nat) : (shiftIn b r).getLsbD i = if i = 7 then b else r.getLsbD (i + 1) := by
  rw [shiftIn, BitVec.getLsbD_cons]
  split
  · rfl
  · rw [BitVec.getLsbD_extractLsb', Nat.add_comm 1 i]
    by_cases h : i < 7
    · simp [h]
    · rw [BitVec.getLsbD_of_ge r (i + 1) (by omega)]; simp [h]

/-- The eight data bits of a frame, shifted in first bit first, are the byte. -/
theorem shiftIn_frame (c : Cfg) (v r : Byte) : (List.range 8).foldl (fun acc i => shiftIn (frameLevel c v (i + 1)) acc) r = v := by
  apply BitVec.eq_of_getLsbD_eq
  intro i hi
  have : i = 0 ∨ i = 1 ∨ i = 2 ∨ i = 3 ∨ i = 4 ∨ i = 5 ∨ i = 6 ∨ i = 7 := by omega
  rw [show List.range 8 = [0, 1, 2, 3, 4, 5, 6, 7] from rfl]
  simp only [List.foldl_cons, List.foldl_nil, getLsbD_shiftIn]
  rcases this with rfl | rfl | rfl | rfl | rfl | rfl | rfl | rfl <;> rfl

theorem run_succ {s t : State} (n : Nat) (h : step s = .next t) : Host.Core.run core (n + 1) s = Host.Core.run core n t := by
  have h' : core.step s = .next t := h
  simp only [Host.Core.run, h']

theorem undisturbed_iff {s : State} {T : Nat} : s.UndisturbedUntil T ↔
    (∀ w, s.envDue = some w → T < w) ∧ (∀ w, s.wdtDue = some w → T < w) ∧ ∀ w, s.engineDue = some w → T < w := by
  unfold State.UndisturbedUntil
  rcases h1 : s.envDue with _ | a <;> rcases h2 : s.wdtDue with _ | b <;> simp [earlier, and_assoc]

theorem undisturbed_advance {s : State} {q T : Nat} (h : s.UndisturbedUntil T) (h1 : s.now ≤ q) (h2 : q ≤ T) :
    (advanceTo q s).UndisturbedUntil T := by
  rw [undisturbed_iff] at h ⊢
  obtain ⟨a, b, c⟩ := h
  refine ⟨fun w hw => ?_, fun w hw => ?_, fun w hw => ?_⟩
  · simp only [State.envDue, advanceTo_fields] at a hw
    rcases hr : s.inp.resets with _ | ⟨e, rest⟩
    · simp [hr] at hw
    · simp [hr] at a hw; omega
  · simp only [State.wdtDue, advanceTo_fields] at b hw
    split at hw
    · cases hw
    · rename_i hg
      split at hw
      · rename_i he
        rw [if_neg hg, if_pos he] at b
        have := b _ rfl
        cases hw; omega
      · cases hw
  · simp only [State.engineDue, advanceTo_fields] at c hw
    split at hw
    · rename_i hb
      rw [if_pos hb] at c
      have := c _ rfl
      cases hw; omega
    · cases hw

/-- The fields that decide who acts next, but for the sequencer's own. -/
theorem undisturbed_congr {s t : State} {T : Nat} (h : s.UndisturbedUntil T) (e1 : t.cfg = s.cfg) (e2 : t.seq = s.seq) (e3 : t.wd = s.wd)
    (e4 : t.inp.resets = s.inp.resets) (e5 : t.fe = s.fe) (e6 : t.feDue = s.feDue) (e7 : t.now = s.now) : t.UndisturbedUntil T := by
  rw [undisturbed_iff] at h ⊢
  simp only [State.envDue, State.wdtDue, State.engineDue, e1, e2, e3, e4, e5, e6, e7] at *
  exact h

/-- `t` is `s` at tick `n`, the transceiver alone having worked. -/
structure Along (s t : State) (n T : Nat) : Prop where
  cfg : t.cfg = s.cfg
  seq : t.seq = s.seq
  op : t.op = s.op
  flash : t.flash = s.flash
  hist : t.hist = s.hist
  rxd : t.inp.rxd = s.inp.rxd
  addr : KeepsAddress s t
  page : KeepsPageState s t
  aLo : t.loc.aLo = s.loc.aLo
  idMatch : t.loc.idMatch = s.loc.idMatch
  now : t.now = n
  free : t.UndisturbedUntil T

theorem Along.refl {s : State} {T : Nat} (h : s.UndisturbedUntil T) : Along s s s.now T :=
  ⟨rfl, rfl, rfl, rfl, rfl, rfl, ⟨rfl, rfl⟩, ⟨rfl, rfl, rfl, rfl, rfl, rfl, rfl, rfl⟩, rfl, rfl, rfl, h⟩

theorem Along.advance {s t : State} {n m T : Nat} (h : Along s t n T) (h1 : n ≤ m) (h2 : m ≤ T) : Along s (advanceTo m t) m T := by
  obtain ⟨a, b, c, d, e, f, ⟨g1, g2⟩, ⟨p1, p2, p3, p4, p5, p6, p7, p8⟩, la, lm, i, j⟩ := h
  exact ⟨a, b, c, d, e, f, ⟨g1, g2⟩, ⟨p1, p2, p3, p4, p5, p6, p7, p8⟩, la, lm, rfl, undisturbed_advance j (by omega) h2⟩

/-- An update of the transceiver's own fields only. -/
theorem Along.update {s t u : State} {n T : Nat} (h : Along s t n T) (e : u = { t with
    rxsr := u.rxsr, txd := u.txd, tcnt := u.tcnt, loc := u.loc, draws := u.draws, inp := { t.inp with slacks := u.inp.slacks } })
    (e1 : u.loc.aLo = t.loc.aLo) (e2 : u.loc.idMatch = t.loc.idMatch) : Along s u n T := by
  obtain ⟨a, b, c, d, e', f, ⟨g1, g2⟩, ⟨p1, p2, p3, p4, p5, p6, p7, p8⟩, la, lm, i, j⟩ := h
  have la := e1.trans la
  have lm := e2.trans lm
  rw [e]
  exact ⟨a, b, c, d, e', f, ⟨g1, g2⟩, ⟨p1, p2, p3, p4, p5, p6, p7, p8⟩, la, lm, i, undisturbed_congr j rfl rfl rfl rfl rfl rfl rfl⟩

theorem step_of_recv {s t : State} {n d T : Nat} (h : Along s t n T) (hv : s.cfg.valid = true) (hl : s.seq.listening = true)
    (hq : t.recvDue = some d) (h1 : d ≤ T) : step t = runTurn (recvTurn (advanceTo d t)) :=
  step_listening (by rw [h.cfg]; exact hv) (by rw [h.seq]; exact hl) hq (by
    have := undisturbed_iff.1 h.free
    exact undisturbed_iff.2 ⟨fun w hw => Nat.lt_of_le_of_lt h1 (this.1 w hw), fun w hw => Nat.lt_of_le_of_lt h1 (this.2.1 w hw), fun w hw => Nat.lt_of_le_of_lt h1 (this.2.2 w hw)⟩)

theorem nextSlack_ideal {s : State} (h : s.cfg.slackMax = 0) : s.nextSlack = 0 := by simp [State.nextSlack, h]

/-- Inside bit period `k` of a frame the line shows level `k` (to the next change, for the last period). -/
theorem frameEdges_at (c : Cfg) (ts p : Nat) (b : Byte) (hp : 0 < p) (r : List (Nat × Bool)) (cur : Bool) (k t : Nat) (hk : k < 10)
    (h1 : ts + k * p ≤ t) (h2 : k = 9 ∨ t < ts + (k + 1) * p) (hr : ∀ e ∈ r.head?, t < e.1) : levelAt cur (frameEdges c ts p b ++ r) t = frameLevel c b k := by
  rw [levelAt_append_after hr]
  have : frameEdges c ts p b = [(ts + 0 * p, frameLevel c b 0), (ts + 1 * p, frameLevel c b 1), (ts + 2 * p, frameLevel c b 2), (ts + 3 * p, frameLevel c b 3), (ts + 4 * p, frameLevel c b 4), (ts + 5 * p, frameLevel c b 5), (ts + 6 * p, frameLevel c b 6), (ts + 7 * p, frameLevel c b 7), (ts + 8 * p, frameLevel c b 8), (ts + 9 * p, frameLevel c b 9)] := rfl
  rw [this]
  have step : ∀ (q : Nat × Bool) (l : List (Nat × Bool)) (cur : Bool), q.1 ≤ t → levelAt cur (q :: l) t = levelAt q.2 l t := fun q l cur h => if_pos h
  have stop : ∀ (q : Nat × Bool) (l : List (Nat × Bool)) (cur : Bool), t < q.1 → levelAt cur (q :: l) t = cur := fun q l cur h => if_neg (by omega)
  interval_cases k
  all_goals
    repeat rw [step _ _ _ (by simp only; omega)]
    first | rfl | (rw [stop _ _ _ (by simp only; omega)])

/-- Frames change nothing before their first start bit. -/
theorem framesFrom_before (c : Cfg) (ts : Nat) (l : List Byte) (t : Nat) (h : t < ts) : ∀ e ∈ (framesFrom c ts l).head?, t < e.1 := by
  intro e he
  cases l with
  | nil => cases he
  | cons b rest =>
    simp [framesFrom, frameEdges, List.range_succ] at he
    rw [← he]; exact h

/-- A run in two parts. -/
theorem run_add : ∀ (n m : Nat) (s t : State), Host.Core.run core n s = .next t → Host.Core.run core (n + m) s = Host.Core.run core m t := by
  intro n
  induction n with
  | zero => intro m s t h; cases h; rw [Nat.zero_add]
  | succ n ih =>
    intro m s t h
    rcases hs : step s with x | x | x
    · rw [run_succ _ hs] at h; rw [show n + 1 + m = n + m + 1 by omega, run_succ _ hs]; exact ih m _ _ h
    · simp [Host.Core.run, show core.step s = _ from hs] at h
    · simp [Host.Core.run, show core.step s = _ from hs] at h

theorem undisturbed_mono {s : State} {T U : Nat} (h : s.UndisturbedUntil T) (hle : U ≤ T) : s.UndisturbedUntil U := by
  have := undisturbed_iff.1 h
  exact undisturbed_iff.2 ⟨fun w hw => by have := this.1 w hw; omega, fun w hw => by have := this.2.1 w hw; omega, fun w hw => by have := this.2.2 w hw; omega⟩

/-- Outside S_GUARD the position makes no difference to what may disturb. -/
theorem undisturbed_of_position {s t : State} {T : Nat} (h : s.UndisturbedUntil T) (e1 : t.cfg = s.cfg) (g : s.seq ≠ .guard) (g' : t.seq ≠ .guard) (e3 : t.wd = s.wd)
    (e4 : t.inp.resets = s.inp.resets) (e5 : t.fe = s.fe) (e6 : t.feDue = s.feDue) (e7 : t.now = s.now) : t.UndisturbedUntil T := by
  rw [undisturbed_iff] at h ⊢
  simp only [State.envDue, State.wdtDue, State.engineDue, e1, g, g', e3, e4, e5, e6, e7, if_false] at *
  exact h

end Sys2Proof.Machine
end

