-- ==== Sys2Proof/Laws/PerInstr.lean ====
section
/-! SUPPORT. Statements about every instruction as syntax, constructor by constructor. -/

namespace Sys2Proof.Laws.TableRow

open Sys2Proof

/-- A well-formed instruction's opcode byte finds its own row in opcode_table.json (30_encoding.md R90). -/
def Statement (i : Instr) : Prop := i.wf = true → (tableLookup (encodeOpcode i)).map OpcodeRow.mnemonic = some i.mnemonic

theorem identify : Statement .identify := fun _ => by decide

theorem loadAddr : Statement .loadAddr := fun _ => by decide

theorem writePage : Statement .writePage := fun _ => by decide

theorem reset : Statement .reset := fun _ => by decide

theorem unknown (opcode : Byte) : Statement (.unknown opcode) := by
  intro h
  have h : ∀ b : Byte, (Instr.unknown b).wf = true → (tableLookup b).map OpcodeRow.mnemonic = some "UNKNOWN" := by decide
  exact h opcode ‹_›

end Sys2Proof.Laws.TableRow
end

