-- ==== Sys2Proof/Tests/Slice0.lean ====
section
/-! SUPPORT. Tests. Expected values come from spec/95_test_vectors.md (the vector's number stands with the test) or from the
encoding tables of 30_encoding.md. After them, for every obligation with hypotheses, a concrete input that meets them. -/

namespace Sys2Proof.Tests

open Sys2Proof Sys2Proof.Machine

/-! Helpers. -/

/-- The result is a next state with a property. -/
def gives (r : Result) (f : State → Bool) : Bool :=
  match r with
  | .next s => f s
  | _ => false

/-- The result is this fault. -/
def faults (r : Result) (f : Fault) : Bool :=
  match r with
  | .fault e => e == f
  | _ => false

/-- The result is this refusal. -/
def refuses (r : Result) (f : Refusal) : Bool :=
  match r with
  | .refused e => e == f
  | _ => false

theorem gives_exists {r : Result} {f : State → Bool} (h : gives r f = true) : ∃ t, r = .next t ∧ f t = true := by
  cases r <;> simp_all [gives]

/-- No other agent's event up to tick `t`, as a Bool. -/
def quiet (s : State) (t : Nat) : Bool :=
  (earlier s.envDue s.wdtDue).all (fun r => decide (t < r)) && s.engineDue.all (fun e => decide (t < e))

theorem undisturbed_of_quiet {s : State} {t : Nat} (h : quiet s t = true) : s.UndisturbedUntil t := by
  simpa [quiet, Option.all_eq_true, State.UndisturbedUntil] using h

/-- CFG8, the bootloader running at position `p`, AR unwritten (the end state of V5.4 for S_IDLE). -/
def loop (p : Seq) : State :=
  { State.reset with seq := p, txd := .drive true, wd := { en := true, period := .medium, cnt := 0 } }

/-- The same with AR = 0x0010. -/
def at10 (p : Seq) : State := { loop p with ar := 0x0010, arWritten := true }

/-- WRITEPAGE in hand at position `p`, target page 2 erased, seven payload bytes of V6.11 received, checksum `ck`. -/
def paged (p : Seq) (ck : Half) : State :=
  { at10 p with
    op := 0x57, ckRx := ck, pb := [1, 2, 3, 4, 5, 6, 7, 0], readEn := false
    flash := flashWrite [] 0x10 (List.replicate 8 0xFF) }

/-! Well-formedness. -/

theorem test_wf_unknown_is_not_an_opcode : (Instr.unknown 0x49).wf = false ∧ (Instr.unknown 0x52).wf = false := by decide
theorem test_wf_unknown_accepts_the_rest : (Instr.unknown 0x00).wf = true ∧ (Instr.unknown 0x69).wf = true := by decide
theorem test_wf_identify_short_body : commandWf Cfg.cfg8 .identify [0xA1, 0xB2] = false := by decide
theorem test_wf_loadAddr_long_body : commandWf Cfg.cfg8 .loadAddr [0, 0x10, 0] = false := by decide
theorem test_wf_writePage_body_without_checksum : commandWf Cfg.cfg8 .writePage [1, 2, 3, 4, 5, 6, 7, 8] = false := by decide
theorem test_wf_reset_body : commandWf Cfg.cfg8 .reset [0] = false ∧ commandWf Cfg.cfg8 (.unknown 0x3F) [0] = false := by decide
theorem test_wf_configuration : Cfg.cfg8.valid = true ∧ ({ Cfg.cfg8 with pageSize := 7 } : Cfg).valid = false ∧
    ({ Cfg.cfg8 with halfBitTicks := 16 } : Cfg).valid = false ∧ ({ Cfg.cfg8 with stopLevel := false } : Cfg).valid = false := by decide

/-! Decoding: opcode bytes written out bit by bit from R81 and R82. -/

theorem test_decode_identify : decodeTableWord 8 0b01001001 = some .identify := by decide
theorem test_decode_loadAddr : decodeTableWord 24 0b000100000000000001000001 = some .loadAddr := by decide
theorem test_decode_writePage : decodeTableWord 8 0b01010111 = some .writePage := by decide
theorem test_decode_reset : decodeTableWord 8 0b01010010 = some .reset := by decide
theorem test_decode_unknown : decodeTableWord 8 0b01101001 = some (.unknown 0b01101001) := by decide
theorem test_decode_body_is_little_endian : decodeCommand Cfg.cfg8 [0x41, 0x00, 0x10, 0x57] =
    .ok (.loadAddr, [0x00, 0x10], [0x57]) ∧ le16 0x00 0x10 = 0x1000 := ⟨rfl, by decide⟩
theorem test_decode_rejects : decode [] = .error .noOpcode ∧
    decodeCommand Cfg.cfg8 [0x49, 0xA1] = .error (.bodyTooShort 3 1) := ⟨rfl, rfl⟩
theorem test_table_rows : (tableLookup 0x57).map OpcodeRow.mnemonic = some "WRITEPAGE" ∧
    (tableLookup 0x59).map OpcodeRow.mnemonic = some "UNKNOWN" := by decide

/-! The commands, one event each. -/

/-- V6.1: the third signature byte. -/
theorem test_identify_match : gives (byteStep (.host 0xC3)
      { loop (.ident 2) with op := 0x49, loc := { (loop .idle).loc with idMatch := true } })
    (fun t => t.hist.out == [0x59] && t.seq == .idle && t.wd.cnt == 0) = true := by decide
/-- V6.3: a first byte that differs is not reported at once. -/
theorem test_identify_first_byte_differs : gives (byteStep (.host 0x00)
      { loop (.ident 0) with op := 0x49, loc := { (loop .idle).loc with idMatch := true } })
    (fun t => t.seq == .ident 1 && !t.loc.idMatch && t.hist.out == []) = true := by decide
/-- V6.7: `41 49 41`. -/
theorem test_loadAddr_second_byte : gives (byteStep (.host 0x41)
      { at10 (.addr 1) with op := 0x41, loc := { (loop .idle).loc with aLo := 0x49 } })
    (fun t => t.ar == 0x4149 && t.arWritten && t.hist.out == [0x59]) = true := by decide
/-- V6.5: the first byte leaves AR as it was. -/
theorem test_loadAddr_first_byte : gives (byteStep (.host 0x34) { at10 (.addr 0) with op := 0x41 })
    (fun t => t.ar == 0x0010 && t.loc.aLo == 0x34 && t.seq == .addr 1) = true := by decide
/-- V6.11: the commit's completion ends the command. -/
theorem test_writePage_commit : gives (byteStep .engine
      { paged (.wProg .waitCommit) 0x1410 with fe := .writing 2 [1, 2, 3, 4, 5, 6, 7, 8] true })
    (fun t => t.flash == flashWrite [] 0x10 [1, 2, 3, 4, 5, 6, 7, 8] && t.ar == 0x0018 && t.readEn &&
      t.hist.out == [0x59]) = true := by decide
/-- V6.12: the last payload byte under a wrong checksum. -/
theorem test_writePage_mismatch : gives (byteStep (.host 8) (paged (.wData 7) 0x1411))
    (fun t => t.hist.out == [0x4E] && t.ar == 0x0010 && !t.readEn && t.fe == .idle && t.acc == 0x1410) = true := by decide
/-- V6.18. -/
theorem test_reset_arms_and_spins : gives (byteStep (.host 0x52) (at10 .idle))
    (fun t => t.wd == { en := true, period := .short, cnt := 0 } && t.seq == .spin && t.hist.out == []) = true := by decide
/-- V6.19: bytes after `52` are lost. -/
theorem test_reset_reads_nothing : gives (byteStep (.host 0x49) { at10 .spin with op := 0x52 })
    (fun t => t.seq == .spin && t.hist.got == []) = true := by decide
/-- V6.9: 'Y' as an opcode. -/
theorem test_unknown_reply : gives (byteStep (.host 0x59) (at10 .idle))
    (fun t => t.hist.out == [0x4E] && t.hist.got == [0x59] && t.seq == .idle && t.ar == 0x0010) = true := by decide

/-! Frames, the receive shift. -/

/-- V1.1, V1.13, V1.10. -/
theorem test_frames :
    (List.range 10).map (frameLevel Cfg.cfg8 0x59) = [false, true, false, false, true, true, false, true, false, true] ∧
    (List.range 10).map (frameLevel Cfg.cfg8 0xA1) = [false, true, false, false, false, false, true, false, true, true] ∧
    (List.range 10).map (frameLevel Cfg.cfg8 0x80) = [false, false, false, false, false, false, false, false, true, true] := by
  decide
/-- V2.4: the samples 1,0,1,0,1,1,1,1 make 0xF5. -/
theorem test_shiftIn : [true, false, true, false, true, true, true, true].foldl (fun r b => shiftIn b r) 0 = 0xF5 := by decide
/-- V2.2: the pulse to 0 on [500, 504) is a glitch at 508. -/
theorem test_glitch : gives (step { loop .idle with
      now := 500, inp := { rxd := [(500, false), (504, true)], resets := [], latencies := [], slacks := [] },
      loc := { (loop .idle).loc with rx := .start, due := 508 } })
    (fun t => t.now == 508 && t.loc.rx == .hunt && t.hist.trace == [.transportGlitch]) = true := by decide

/-! The checksum. -/

/-- The low half of a checksum's result. -/
def low16 (b : List Byte) : Option Half :=
  match checksum b with
  | .next a => some (a.extractLsb' 0 16)
  | _ => none

/-- V3.5, V3.6, V3.7: no, one and two folds. -/
theorem test_checksum_folds : low16 [0xFF, 0xFF] = some 0xFFFF ∧ low16 [0xFF, 0xFF, 0xFF, 0xFF] = some 0xFFFF ∧
    low16 [0xFF, 0xFF, 0xFF, 0xFF, 0x01, 0x00] = some 0x0001 := by decide
/-- V3.13, V3.14. -/
theorem test_checksum_words : low16 [0xDE, 0xAD, 0xBE, 0xEF, 0x00, 0x01, 0x80, 0x7F] = some 0x1E1E ∧
    low16 [0xCA, 0xFE, 0xBA, 0xBE, 0x12, 0x34, 0x56, 0x78] = some 0x69EE := by decide

/-! Flash, resets. -/

/-- V4.2. -/
theorem test_erase_completes : (engineComplete { loop .idle with
      fe := .erasing 2, readEn := false, flash := flashWrite [] 0x10 (List.replicate 8 0xAA) }).flash =
    flashWrite [] 0x10 (List.replicate 8 0xFF) := by decide
/-- R270 on CFG8, by hand: 152 for the opcode, 1600 for the body, 160 for the reply; an erase of 1600 is overlapped whole, and
one tick more is not. -/
theorem test_longest_cycle : longestCycle Cfg.cfg8 1600 0 = 1912 ∧ longestCycle Cfg.cfg8 1601 0 = 1913 ∧
    longestCycle Cfg.cfg8 0 7 = 1919 := by decide
/-- R9: an invalid configuration is refused without a clock too. -/
theorem test_untimed_invalid :
    (let s : State := { loop .idle with cfg := { Cfg.cfg8 with bitTicks := 256 } }
     refuses (untimedStep (.receive 0x49) s) .invalidConfiguration = true ∧
     refuses (byteStep (.host 0x49) s) .invalidConfiguration = true) := by decide
/-- V4.6, and the refusals of FlashFill. -/
theorem test_flash_stops : faults (flashErase 0x10 { loop .idle with fe := .erasing 2 }) .flashIssueWhileBusy = true ∧
    refuses (flashFill 7 0 (loop .idle)) .fillOffset = true ∧ refuses (flashFill 8 0 (loop .idle)) .fillOffset = true := by decide
/-- V5.5: HardwareReset(EXT) over (0,1,1,1), then ResetGuard. -/
theorem test_external_reset : gives (byteStep (.reset EnvCause.ext.flags)
      { loop .idle with rc := { ext := false, wdt := true, por := true, bor := true } })
    (fun t => t.rc == { ext := false, wdt := true, por := true, bor := true } && t.seq == .idle &&
      t.txd == .drive true && t.wd == { en := true, period := .medium, cnt := 0 }) = true := by decide
/-- V5.2: HardwareReset(WDT) over (0,0,1,0), then ResetGuard. -/
theorem test_watchdog_reset : gives (byteStep (.reset ResetFlags.watchdog) (loop .spin))
    (fun t => t.rc == { ext := false, wdt := false, por := true, bor := false } && t.seq == .app && t.txd == .z &&
      !t.wd.en) = true := by decide
/-- R171: with the clock left out, a watchdog reset is enabled in S_ACK while WD_EN, takes control, and latches its flag; with
the watchdog disabled, or for no cause, there is none. -/
theorem test_untimed_watchdog_reset :
    (let s := loop .ack
     let e : UntimedEvent := .reset ResetFlags.watchdog
     e.enabled s = true ∧ gives (untimedStep e s) (fun t => t.seq == .guard && t.rc.wdt && t.hist.out == []) = true ∧
     e.enabled { s with wd := { en := false, period := .medium, cnt := 0 } } = false ∧
     (UntimedEvent.reset ResetFlags.none).enabled s = false) := by decide
/-- R171: the run in which the watchdog's reset ends S_SPIN, ResetGuard hands control over (V5.2) and nothing follows. -/
def spinRun : Nat → State
  | 0 => loop .spin
  | 1 => hardwareReset ResetFlags.watchdog (loop .spin)
  | _ => resetGuard (hardwareReset ResetFlags.watchdog (loop .spin))
/-- Its events. -/
def spinEvents : Nat → Option UntimedEvent
  | 0 => some (.reset ResetFlags.watchdog)
  | 1 => some .sequencer
  | _ => none
/-- Fair runs exist: this one is a run, and fair to the watchdog and to the engine. -/
theorem test_untimed_fair_run : UntimedRun spinRun spinEvents ∧ WatchdogFair spinRun spinEvents ∧ EngineFair spinRun ∧
    (spinRun 0).seq = .spin ∧ (spinRun 0).wd.en = true ∧ (spinRun 2).seq = .app := by
  refine ⟨⟨by decide, fun n => ?_⟩, fun n h => ?_, fun n h => ⟨n + 2, by omega, rfl⟩, rfl, rfl, rfl⟩
  · match n with
    | 0 => exact ⟨rfl, if_pos (by decide)⟩
    | 1 => exact ⟨rfl, if_pos (by decide)⟩
    | n + 2 => rfl
  · exact absurd (h (n + 2) (by omega)).1 (by show ¬(false = true); simp)
/-- R53: the three refusals of V6.16, V6.17 and the one after V6.15. -/
theorem test_admission : refuses (exec .writePage (loop .idle)) .addressUnwritten = true ∧
    refuses (exec .writePage { at10 .idle with ar := 0x0012 }) .addressMisaligned = true ∧
    refuses (exec .writePage { at10 .idle with ar := 0x0100 }) .addressOutsideRegion = true := by decide
/-- Log 6: the state whose next step runs an opcode, from the state after reset (R209's reply begins). -/
theorem test_fetch_word : gives (step (State.reset.withFetchWord 8 0x3F))
    (fun t => t.seq == .ack && t.loc.txByte == 0x4E && t.hist.got == [0x3F]) = true := by decide

/-! Inputs that meet the hypotheses of the obligations, each named after its obligation. -/

/-- A result that is a next state, as an existence statement. -/
theorem goes {r : Result} (h : gives r (fun _ => true) = true) : ∃ t, r = .next t :=
  (gives_exists h).imp fun _ h => h.1

/-- `loop p` with an opcode in hand. -/
def hand (p : Seq) (op : Byte) : State := { at10 p with op := op }

/-- WRITEPAGE's page 2 being erased since the dispatch. -/
def erasing (p : Seq) : State := { paged p 0x1410 with fe := .erasing 2, feDue := 50, flash := [] }

/-- The environment drives this waveform and these resets. -/
def env (s : State) (rxd : List (Nat × Bool)) (resets : List EnvReset) : State :=
  { s with inp := { rxd := rxd, resets := resets, latencies := [], slacks := [] } }

/-- RecvByte stands at `rx`, its Delay ending at tick 16. -/
def receiving (s : State) (rx : RxPhase) (r : Byte) : State :=
  { s with rxsr := r, loc := { s.loc with rx := rx, due := 16 } }

/-- The acknowledgment 'Y' in its last bit period, which ends at tick 160. -/
def sending (op : Byte) : State :=
  { hand .ack op with ok := true, loc := { (loop .idle).loc with txByte := 0x59, txBit := 9, due := 160 } }

theorem loop_idle_inv : (loop .idle).Inv :=
  ⟨⟨by decide, rfl, rfl, by decide, (by intro i h; cases h), by decide⟩, ⟨List.Pairwise.nil, by decide⟩, trivial, trivial,
    rfl, ⟨rfl, rfl, by decide, rfl⟩, trivial, (by intro b h; cases h), ⟨by decide, trivial⟩⟩

theorem spin_inv : ({ loop .spin with op := 0x52, wd := { en := true, period := .short, cnt := 3 } } : State).Inv :=
  ⟨⟨by decide, rfl, rfl, by decide, (by intro i h; cases h), by decide⟩, ⟨List.Pairwise.nil, by decide⟩, trivial,
    (by decide : decodeOpcode 0x52 = .reset), rfl, ⟨rfl, rfl, by decide, rfl⟩, trivial, (by intro b h; cases h), ⟨by decide, trivial⟩⟩

/-- Spinning after a failed WRITEPAGE whose erase of page 2 ends at tick `due`. -/
def spinErasing (due : Nat) : State :=
  { loop .spin with
    op := 0x52, wd := { en := true, period := .short, cnt := 3 }, fe := .erasing 2, feDue := due, readEn := false }

theorem spinErasing_inv (due : Nat) : (spinErasing due).Inv :=
  ⟨⟨(by decide : Cfg.cfg8.valid = true), rfl, rfl, Nat.two_pow_pos _, (by intro i h; cases h), Nat.zero_le _⟩, ⟨List.Pairwise.nil, by intro c h; cases h⟩,
    ⟨show 2 * 8 + 8 ≤ 0x0100 by decide, rfl⟩, (by decide : decodeOpcode 0x52 = .reset), rfl,
    ⟨rfl, rfl, show 3 < 1000 * 1 by decide, rfl⟩, trivial, (by intro b h; cases h), ⟨(by intro h; cases h), trivial⟩⟩

/-- The commit of `paged` is over and its page holds PB. -/
def committed : State := { paged (.wProg .waitCommit) 0x1410 with flash := flashWrite [] 0x10 [1, 2, 3, 4, 5, 6, 7, 0] }

theorem committed_inv : committed.Inv :=
  ⟨⟨by decide, rfl, rfl, by decide, (by intro i h; cases h), by decide⟩, ⟨by decide, by decide⟩, trivial,
    (by decide : decodeOpcode 0x57 = .writePage), rfl, ⟨rfl, rfl, by decide, rfl⟩, trivial, (by intro b h; cases h),
    ⟨by decide, .inr ⟨rfl, by intro i hi; revert i; decide⟩⟩⟩

theorem witness_OpcodeMapIsExactMatch : (0x59 : Byte) ≠ 0x49 ∧ (0x59 : Byte) ≠ 0x41 ∧ (0x59 : Byte) ≠ 0x57 ∧ (0x59 : Byte) ≠ 0x52 := by
  decide
theorem witness_DecodeOfEncodeGivesTheCommandBack :
    commandWf Cfg.cfg8 .writePage [0x10, 0x14, 1, 2, 3, 4, 5, 6, 7, 8] = true ∧ commandWf Cfg.cfg8 (.unknown 0xFF) [] = true ∧
    commandWf Cfg.cfg8 .identify [0xA1, 0xB2, 0xC3] = true := by decide
theorem witness_OperandsSurviveTheWire : ([1, 2, 3, 4, 5, 6, 7, 8] : List Byte).length = Cfg.cfg8.pageSize := rfl
theorem witness_EveryStepKeepsTheInvariant :
    (env (loop .idle) [(1000, false)] []).Inv ∧ ∃ t, step (env (loop .idle) [(1000, false)] []) = .next t :=
  ⟨⟨⟨by decide, rfl, rfl, by decide, (by intro i h; cases h), by decide⟩, ⟨List.Pairwise.nil, by decide⟩, trivial, trivial,
    rfl, ⟨rfl, rfl, by decide, rfl⟩, trivial, (by intro b h; cases h), ⟨by decide, trivial⟩⟩, goes (by decide)⟩
/-- Each kind of stop happens in a good state: the refusal, the fault with an erase in flight, and the rest in the application. -/
theorem witness_GoodStatesStopOnlyWhereTheSpecSays :
    (receiving (loop .idle) .stop 0x57).Inv ∧ refuses (step (receiving (loop .idle) .stop 0x57)) .addressUnwritten = true ∧
    (receiving (erasing .idle) .stop 0x57).Inv ∧
    faults (step (receiving (erasing .idle) .stop 0x57)) .flashIssueWhileBusy = true ∧
    ({ State.reset with seq := .app } : State).Inv ∧ ({ State.reset with seq := .app } : State).nextAgent = none :=
  ⟨⟨⟨by decide, rfl, rfl, by decide, (by intro i h; cases h), by decide⟩, ⟨List.Pairwise.nil, by decide⟩, trivial, trivial,
    rfl, ⟨rfl, rfl, by decide, rfl⟩, trivial, (by intro b h; cases h), ⟨by decide, trivial⟩⟩, by decide,
   ⟨⟨by decide, rfl, rfl, by decide, (by intro i h; cases h), by decide⟩, ⟨List.Pairwise.nil, by decide⟩, ⟨by decide, rfl⟩,
    trivial, rfl, ⟨rfl, rfl, by decide, rfl⟩, trivial, (by intro b h; cases h), ⟨by decide, trivial⟩⟩, by decide,
   ⟨⟨by decide, rfl, rfl, by decide, (by intro i h; cases h), by decide⟩, ⟨List.Pairwise.nil, by decide⟩, trivial, trivial,
    rfl, ⟨rfl, rfl, rfl⟩, ⟨rfl, rfl⟩, (by intro b h; cases h), ⟨by decide, trivial⟩⟩, by decide⟩
theorem witness_InvalidConfigurationIsRefused :
    ({ State.reset with cfg := { Cfg.cfg8 with pageSize := 7 } } : State).cfg.valid = false := by decide

theorem witness_StepRunsTheDecodedCommand :
    let s := receiving (loop .idle) .stop 0x49
    s.cfg.valid = true ∧ s.seq = .idle ∧ s.loc.rx = .stop ∧ s.UndisturbedUntil (max s.loc.due s.now) ∧
      s.rxdAt (max s.loc.due s.now) = s.cfg.stopLevel :=
  ⟨by decide, rfl, rfl, undisturbed_of_quiet (by decide), by decide⟩
/-- Each of the three clauses. -/
theorem witness_StepGoesOnWithTheCommandInHand :
    (let s := receiving (hand (.addr 0) 0x41) .stop 0x34
     s.cfg.valid = true ∧ s.seq.listening = true ∧ s.seq ≠ .idle ∧ s.loc.rx = .stop ∧
      s.UndisturbedUntil (max s.loc.due s.now) ∧ s.rxdAt (max s.loc.due s.now) = s.cfg.stopLevel) ∧
    (let s := sending 0x41
     s.cfg.valid = true ∧ s.seq = .ack ∧ s.loc.txBit = 9 ∧ s.UndisturbedUntil (max s.loc.due s.now)) ∧
    (let s := paged (.wProg .waitErase) 0x1410
     s.cfg.valid = true ∧ s.seq = .wProg .waitErase ∧ s.fe.busy = false ∧ s.UndisturbedUntil s.now) :=
  ⟨⟨by decide, rfl, by decide, rfl, undisturbed_of_quiet (by decide), by decide⟩,
   ⟨by decide, rfl, rfl, undisturbed_of_quiet (by decide)⟩, ⟨by decide, rfl, rfl, undisturbed_of_quiet (by decide)⟩⟩
theorem witness_FetchWordIsRunByTheNextStep : State.reset.cfg.valid = true := by decide

theorem witness_IdentifyReadsAllItsBytes :
    (hand .idle 0x49).seq = .idle ∧ (hand (.ident 0) 0x49).seq = .ident 0 ∧ (hand (.ident 1) 0x49).seq = .ident 1 := ⟨rfl, rfl, rfl⟩
theorem witness_IdentifyThirdByteDecides : (hand (.ident 2) 0x49).seq = .ident 2 := rfl
theorem witness_IdentifyRepliesWhetherTheSignatureMatches : (loop .idle).cfg.valid = true ∧ (loop .idle).seq = .idle := by decide
theorem witness_IdentifyFrame : ∃ t, exec .identify (hand (.ident 2) 0x49) = .next t := goes (by decide)
theorem witness_LoadAddrWritesTheAddressWhole :
    (hand .idle 0x41).seq = .idle ∧ (hand (.addr 0) 0x41).seq = .addr 0 ∧ (hand (.addr 1) 0x41).seq = .addr 1 := ⟨rfl, rfl, rfl⟩
theorem witness_LoadAddrSetsTheAddressRegister : (at10 .idle).cfg.valid = true ∧ (at10 .idle).seq = .idle := by decide
theorem witness_LoadAddrFrame : (∃ t, exec .loadAddr (hand (.addr 1) 0x41) = .next t) ∧
    (∃ t, exec .loadAddr (hand (.addr 0) 0x41) = .next t) ∧ (hand (.addr 0) 0x41).seq ≠ .addr 1 :=
  ⟨goes (by decide), goes (by decide), by decide⟩

/-- Each of the three clauses; 0x0100 is the first address above the region. -/
theorem witness_WritePageIsRefusedAtAdmission :
    ((loop .idle).seq = .idle ∧ (loop .idle).arWritten = false) ∧
    (let s : State := { at10 .idle with ar := 0x0012 }
     s.seq = .idle ∧ s.arWritten = true ∧ s.ar.toNat % s.cfg.pageSize ≠ 0) ∧
    (let s : State := { at10 .idle with ar := 0x0100 }
     s.seq = .idle ∧ s.arWritten = true ∧ s.ar.toNat % s.cfg.pageSize = 0 ∧ s.cfg.appLimit < s.ar.toNat + s.cfg.pageSize) := by
  decide
/-- 0x00F8 is the last page of the region; the engine idle, and busy. -/
theorem witness_WritePageErasesFirst :
    (let s : State := { at10 .idle with ar := 0x00F8 }
     s.seq = .idle ∧ s.arWritten = true ∧ s.ar.toNat % s.cfg.pageSize = 0 ∧ s.ar.toNat + s.cfg.pageSize ≤ s.cfg.appLimit ∧
      s.fe.busy = false) ∧
    (let s : State := erasing .idle
     s.seq = .idle ∧ s.arWritten = true ∧ s.ar.toNat % s.cfg.pageSize = 0 ∧ s.ar.toNat + s.cfg.pageSize ≤ s.cfg.appLimit ∧
      s.fe.busy = true) := by decide
/-- The last payload byte but one is the boundary of the third clause. -/
theorem witness_WritePageStoresItsBody :
    (paged (.wCk 0) 0).seq = .wCk 0 ∧ (paged (.wCk 1) 0).seq = .wCk 1 ∧
    (let s := paged (.wData 6) 0
     s.seq = .wData 6 ∧ 6 + 1 < s.cfg.pageSize ∧ s.pb.length = s.cfg.pageSize) := by decide
/-- A match and a mismatch. -/
theorem witness_WritePageValidatesAfterTheLastByte :
    (let s : State := { paged (.wData 7) 0x1410 with rxsr := 8 }
     s.seq = .wData 7 ∧ 7 + 1 = s.cfg.pageSize ∧ checksum (s.pb.set 7 s.rxsr) = .next 0x1410 ∧
      (0x1410 : Acc).toNat % 65536 = s.ckRx.toNat) ∧
    (let s : State := { paged (.wData 7) 0x1411 with rxsr := 8 }
     s.seq = .wData 7 ∧ 7 + 1 = s.cfg.pageSize ∧ checksum (s.pb.set 7 s.rxsr) = .next 0x1410 ∧
      (0x1410 : Acc).toNat % 65536 ≠ s.ckRx.toNat) :=
  ⟨⟨rfl, rfl, rfl, by decide⟩, ⟨rfl, rfl, rfl, by decide⟩⟩
theorem witness_WritePageFillsAndCommits :
    (let s := erasing (.wProg .waitErase)
     s.cfg.valid = true ∧ s.pb.length = s.cfg.pageSize ∧ s.ftb.length = s.cfg.pageSize ∧ s.seq = .wProg .waitErase ∧
      s.fe.busy = true) ∧
    (let s := paged (.wProg .waitErase) 0x1410
     s.cfg.valid = true ∧ s.pb.length = s.cfg.pageSize ∧ s.ftb.length = s.cfg.pageSize ∧ s.seq = .wProg .waitErase ∧
      s.fe.busy = false) := by decide
theorem witness_WritePageAdvancesTheAddress : committed.seq = .wProg .waitCommit ∧ committed.fe.busy = false := by decide
theorem witness_ReportedSuccessMeansThePageHoldsThePayload :
    committed.Inv ∧ committed.seq = .wProg .waitCommit ∧ ∃ t, step committed = .next t ∧ t.seq = .ack := by
  refine ⟨committed_inv, rfl, ?_⟩
  obtain ⟨t, h, e⟩ := gives_exists (show gives (step committed) (fun t => t.seq == .ack) = true by decide)
  exact ⟨t, h, by simpa using e⟩
/-- P1's second page; the erase completes after the opcode at the earliest, after the last byte at the latest. -/
theorem witness_MatchingWritePageProgramsThePage :
    let s := at10 .idle; let d : List Byte := [1, 2, 3, 4, 5, 6, 7, 8]
    s.cfg.valid = true ∧ s.seq = .idle ∧ s.admission = none ∧ s.fe = .idle ∧ s.pb.length = s.cfg.pageSize ∧
      s.ftb.length = s.cfg.pageSize ∧ d.length = s.cfg.pageSize ∧ checksum d = .next 0x1410 ∧
      (1 ≤ 1 ∧ 1 ≤ s.cfg.pageSize + 3) ∧ (1 ≤ 11 ∧ 11 ≤ s.cfg.pageSize + 3) :=
  ⟨by decide, rfl, rfl, rfl, rfl, rfl, rfl, rfl, by decide, by decide⟩
theorem witness_MismatchingWritePageErasesThePage :
    let s := at10 .idle; let d : List Byte := [1, 2, 3, 4, 5, 6, 7, 8]
    s.cfg.valid = true ∧ s.seq = .idle ∧ s.admission = none ∧ s.fe = .idle ∧ s.pb.length = s.cfg.pageSize ∧
      d.length = s.cfg.pageSize ∧ checksum d = .next 0x1410 ∧ (0x1410 : Acc).extractLsb' 0 16 ≠ (0x1411 : Half) :=
  ⟨by decide, rfl, rfl, rfl, rfl, rfl, rfl, by decide⟩
theorem witness_WritePageFrame :
    (∃ t, exec .writePage (paged (.wData 7) 0x1411) = .next t) ∧ (paged (.wData 7) 0x1411).seq ≠ .idle ∧
    (∃ t, exec .writePage committed = .next t) ∧ (∃ t, exec .writePage (at10 .idle) = .next t) :=
  ⟨goes (by decide), by decide, goes (by decide), goes (by decide)⟩

theorem witness_ResetArmsTheShortTimeoutAndSpins : (at10 .idle).seq = .idle := rfl
/-- Nothing in flight; an erase that ends at the tick of the timeout; one that ends a tick before it. -/
theorem witness_SpinEndsInTheApplication :
    (let s : State := { loop .spin with op := 0x52, wd := { en := true, period := .short, cnt := 3 } }
     s.Inv ∧ s.seq = .spin ∧ s.inp.resets = [] ∧ s.fe = .idle ∧ s.engineDue = none) ∧
    (let s := spinErasing 997
     s.Inv ∧ s.seq = .spin ∧ s.inp.resets = [] ∧ s.engineDue = some 997 ∧ s.now + (wdtTicks s.cfg .short - s.wd.cnt) ≤ 997) ∧
    (let s := spinErasing 996
     s.Inv ∧ s.seq = .spin ∧ s.inp.resets = [] ∧ s.engineDue = some 996 ∧ 996 < s.now + (wdtTicks s.cfg .short - s.wd.cnt)) :=
  ⟨⟨spin_inv, rfl, rfl, rfl, rfl⟩, ⟨spinErasing_inv 997, rfl, rfl, rfl, by decide⟩,
   ⟨spinErasing_inv 996, rfl, rfl, rfl, by decide⟩⟩
theorem witness_UnknownFailsAtOnce : (at10 .idle).seq = .idle := rfl
theorem witness_EveryOtherByteIsAnsweredN : (at10 .idle).cfg.valid = true ∧ (at10 .idle).seq = .idle ∧ definedOpcodes.contains 0x59 = false ∧
    definedOpcodes.contains 0x00 = false ∧ definedOpcodes.contains 0xFF = false := by decide
theorem witness_UnknownAndResetFrame :
    (∃ t, exec (.unknown 0x3F) (at10 .idle) = .next t) ∧ (∃ t, exec .reset (at10 .idle) = .next t) :=
  ⟨goes (by decide), goes (by decide)⟩
theorem witness_EveryCommandEndsWithARefresh : Instr.unknown 0x3F ≠ .reset ∧ (sending 0x3F).seq = .ack := by decide
/-- Positions outside the loop, of another command, and of the command itself. -/
theorem witness_ForeignPositionsAreRefused :
    actsAt .identify State.reset.seq = false ∧ actsAt (.unknown 0x3F) (loop .app).seq = false ∧
    actsAt .writePage (loop .spin).seq = false ∧ actsAt .reset (sending 0x52).seq = false ∧
    actsAt .identify (hand (.addr 0) 0x49).seq = false ∧ actsAt .loadAddr (hand (.wCk 1) 0x41).seq = false ∧
    actsAt .reset (hand (.ident 2) 0x52).seq = false ∧ actsAt (.unknown 0x3F) (paged (.wData 7) 0).seq = false ∧
    actsAt .identify (hand (.ident 2) 0x49).seq = true ∧ actsAt .reset (loop .idle).seq = true := by decide

/-- A glitch (V2.2) and a frame error (V2.3). -/
theorem witness_GlitchesAndFrameErrorsAreDiscarded :
    (let s := receiving (loop .idle) .start 0
     s.cfg.valid = true ∧ s.seq.listening = true ∧ s.UndisturbedUntil (max s.loc.due s.now) ∧ s.loc.rx = .start ∧
      s.rxdAt (max s.loc.due s.now) ≠ s.cfg.startLevel) ∧
    (let s := env (receiving (loop .idle) .stop 0) [(0, false)] []
     s.cfg.valid = true ∧ s.seq.listening = true ∧ s.UndisturbedUntil (max s.loc.due s.now) ∧ s.loc.rx = .stop ∧
      s.rxdAt (max s.loc.due s.now) ≠ s.cfg.stopLevel) :=
  ⟨⟨by decide, rfl, undisturbed_of_quiet (by decide), rfl, by decide⟩,
   ⟨by decide, rfl, undisturbed_of_quiet (by decide), rfl, by decide⟩⟩
theorem witness_EightSamplesGiveTheByteLeastSignificantFirst : (6 : Nat) < 7 := by decide
/-- V2.1: the frame of 0x41 from tick 1000. -/
theorem witness_WellFormedFramesAreReceived :
    let s := env (loop .idle) (framesFrom Cfg.cfg8 1000 [0x41]) []
    s.cfg.valid = true ∧ idealTiming s.cfg ∧ s.seq.listening = true ∧ s.loc.rx = .hunt ∧ s.now ≤ 1000 ∧
      s.IdleOnLine s.now 1000 ∧ s.FrameOnLine 1000 16 0x41 ∧
      (∀ k, k < 10 → k * 16 ≤ s.cfg.halfBitTicks + k * s.cfg.bitTicks ∧
        s.cfg.halfBitTicks + k * s.cfg.bitTicks < (k + 1) * 16) ∧
      1000 + s.cfg.halfBitTicks + 9 * s.cfg.bitTicks ≤ 1152 ∧ s.UndisturbedUntil 1152 :=
  ⟨by decide, rfl, rfl, rfl, by decide, fun t _ h => levelAt_before (framesFrom_before Cfg.cfg8 1000 [0x41] t h),
   fun k hk t h1 h2 => frameEdges_at Cfg.cfg8 1000 16 0x41 (by decide) [] true k t hk h1 (.inr h2) (by intro e he; cases he),
   by decide, by decide, undisturbed_of_quiet (by decide)⟩
/-- V1.14: SendByte(0x59) has begun; its first bit period ends at tick 16. -/
theorem witness_ReplyFramesAreSentBitByBit :
    let s : State := { hand .ack 0x41 with txd := .drive false, loc := { (loop .idle).loc with txByte := 0x59, due := 16 } }
    s.cfg.valid = true ∧ idealTiming s.cfg ∧ s.seq = .ack ∧ s.loc.txBit = 0 ∧ 9 < 10 ∧ s.now ≤ s.loc.due ∧
      s.txd = .drive (frameLevel s.cfg s.loc.txByte 0) ∧ s.UndisturbedUntil (s.loc.due + 9 * s.cfg.bitTicks) :=
  ⟨by decide, rfl, rfl, rfl, by decide, by decide, rfl, undisturbed_of_quiet (by decide)⟩
theorem witness_DelayEndsAtTheThreshold :
    let s := loop .idle
    s.cfg.valid = true ∧ idealTiming s.cfg ∧ 16 ≤ s.cfg.bitTicks ∧ s.now ≤ 16 ∧ 16 ≤ s.now + 16 :=
  ⟨by decide, rfl, by decide, by decide, by decide⟩
theorem witness_DeafOutsideRecvByte :
    (sending 0x41).seq.listening = false ∧ ∃ t, step (sending 0x41) = .next t ∧ t.seq ≠ .guard := by
  refine ⟨rfl, ?_⟩
  obtain ⟨t, h, e⟩ := gives_exists (show gives (step (sending 0x41)) (fun t => t.seq != .guard) = true by decide)
  exact ⟨t, h, by simpa using e⟩
/-- P4 without its glitch. -/
theorem witness_LoadAddrOnTheWire :
    let s := env (loop .idle) (framesFrom Cfg.cfg8 1000 (scriptLoadAddr 0x1000)) []
    s.cfg.valid = true ∧ idealTiming s.cfg ∧ s.seq = .idle ∧ s.loc.rx = .hunt ∧ s.now ≤ 1000 ∧
      s.inp.rxd = framesFrom s.cfg 1000 (scriptLoadAddr 0x1000) ∧ s.UndisturbedUntil (1000 + 40 * s.cfg.bitTicks) :=
  ⟨by decide, rfl, rfl, rfl, by decide, rfl, undisturbed_of_quiet (by decide)⟩

/-- The last word of V3.8's buffer, and a reordering of its words. -/
theorem witness_AccumulationAddsLittleEndianWords :
    (([1, 2, 3, 4, 5, 6, 7, 8] : List Byte)[2 * 3]? = some 7 ∧ ([1, 2, 3, 4, 5, 6, 7, 8] : List Byte)[2 * 3 + 1]? = some 8) ∧
    (wordsOf [1, 2, 3, 4, 5, 6, 7, 8]).Perm [0x0807, 0x0201, 0x0605, 0x0403] := by decide
/-- V3.8; the greatest length allowed; an odd length, and an odd one above the bound; the least length refused as too long. -/
theorem witness_ChecksumClosedForm :
    (([1, 2, 3, 4, 5, 6, 7, 8] : List Byte).length % 2 = 0 ∧ ([1, 2, 3, 4, 5, 6, 7, 8] : List Byte).length ≤ 131072 ∧
      0x1410 = ((wordsOf [1, 2, 3, 4, 5, 6, 7, 8]).map BitVec.toNat).sum) ∧
    (∃ n, (List.replicate 131072 (0 : Byte)).length % 2 = 0 ∧ (List.replicate 131072 (0 : Byte)).length ≤ 131072 ∧
      n = ((wordsOf (List.replicate 131072 (0 : Byte))).map BitVec.toNat).sum) ∧
    (([1] : List Byte).length % 2 = 1 ∧ (List.replicate 131073 (0 : Byte)).length % 2 = 1) ∧
    ((List.replicate 131074 (0 : Byte)).length % 2 = 0 ∧ 131072 < (List.replicate 131074 (0 : Byte)).length) :=
  ⟨⟨rfl, by decide, by decide⟩, ⟨_, by rw [List.length_replicate], by rw [List.length_replicate], rfl⟩,
   ⟨rfl, by rw [List.length_replicate]⟩, by rw [List.length_replicate], by rw [List.length_replicate]; decide⟩
/-- V3.8 and V3.9. -/
theorem witness_ChecksumIgnoresTheOrderOfWords :
    (wordsOf [1, 2, 3, 4, 5, 6, 7, 8]).Perm (wordsOf [7, 8, 1, 2, 5, 6, 3, 4]) := by decide
theorem witness_TwoFoldsAreEnough : 65536 ≤ (0x1FFFF : Acc).toNat := by decide

theorem witness_EraseCompletionErasesThePage :
    (erasing (.wCk 0)).fe = .erasing 2 ∧ 7 < (erasing (.wCk 0)).cfg.pageSize ∧ 0x0F < 2 * (erasing (.wCk 0)).cfg.pageSize := by
  decide
/-- A page that is erased, and one that is not. -/
theorem witness_CommitCompletionProgramsTheSnapshot :
    (let s := paged (.wProg .waitErase) 0x1410
     s.ftb.length = s.cfg.pageSize ∧ (∃ t, flashCommit 0x10 s = .next t) ∧ s.pageErased (s.pageOf 0x10) = true) ∧
    (let s := loop .idle
     s.ftb.length = s.cfg.pageSize ∧ (∃ t, flashCommit 0x10 s = .next t) ∧ s.pageErased (s.pageOf 0x10) = false) :=
  ⟨⟨rfl, goes (by decide), by decide⟩, ⟨rfl, goes (by decide), by decide⟩⟩
/-- The last offset of the page is 6; 7 is odd and 8 is outside. -/
theorem witness_FlashOperationsAsIssued :
    (erasing .idle).fe.busy = true ∧ (6 % 2 = 0 ∧ 6 + 2 ≤ (erasing .idle).cfg.pageSize) ∧
    (7 % 2 = 1 ∨ (loop .idle).cfg.pageSize < 7 + 2) ∧ (8 % 2 = 1 ∨ (loop .idle).cfg.pageSize < 8 + 2) ∧
    ((loop .idle).fe.busy = false ∧ (loop .idle).ftb.length = (loop .idle).cfg.pageSize ∧ 6 + 2 ≤ (loop .idle).cfg.pageSize) := by
  decide
/-- The last byte of the page being erased. -/
theorem witness_OnlyThePageInFlightChanges :
    let s := erasing (.wProg .waitErase)
    s.EngineOk ∧ ∃ t, step s = .next t ∧ flashGet t.flash 0x17 ≠ flashGet s.flash 0x17 := by
  obtain ⟨t, h, e⟩ := gives_exists (show gives (step (erasing (.wProg .waitErase)))
    (fun t => flashGet t.flash 0x17 != flashGet (erasing (.wProg .waitErase)).flash 0x17) = true by decide)
  exact ⟨⟨by decide, rfl⟩, t, h, by simpa using e⟩
theorem witness_FlashReadsNeedReadEnable :
    flashGet committed.flash 0x10 = some 1 ∧ committed.readEn = false ∧
    (let s : State := { committed with readEn := true }
     flashGet s.flash 0x17 = some 0 ∧ s.readEn = true ∧ s.fe = .idle) := by decide

theorem witness_HardwareResetTakesControl :
    (loop .idle).fe = .idle ∧ (erasing (.wCk 0)).fe = .erasing 2 ∧ (0x18 < 2 * 8 ∨ 2 * 8 + (erasing (.wCk 0)).cfg.pageSize ≤ 0x18) := by
  decide
/-- An external reset at tick 5 inside LOADADDR. -/
theorem witness_OutsideResetPreemptsEverything :
    let e : EnvReset := { time := 5, cause := .ext, others := [] }
    let s := env (receiving (hand (.addr 0) 0x41) .stop 0) [] [e]
    s.cfg.valid = true ∧ s.inp.resets = e :: [] ∧ s.now ≤ e.time ∧ (∀ w, s.wdtDue = some w → e.time < w) ∧
      (∀ w, s.engineDue = some w → e.time ≤ w) ∧ (∀ w, s.seqDue = some w → e.time ≤ w) := by
  refine ⟨by decide, rfl, by decide, ?_, ?_, ?_⟩
  · intro w h
    rw [show State.wdtDue _ = some 100000 from by decide] at h
    cases h; decide
  · intro w h
    rw [show State.engineDue _ = none from by decide] at h
    cases h
  · intro w h
    rw [show State.seqDue _ = some 16 from by decide] at h
    cases h; decide
/-- V5.7: a silent line, with an outside reset a tick after the expiry; and a disabled watchdog while an acknowledgment goes
on. -/
theorem witness_WatchdogExpiryResetsTheDevice :
    (let s := env (loop .idle) [] [{ time := 100001, cause := .ext, others := [] }]
     s.cfg.valid = true ∧ s.seq ≠ .guard ∧ s.wd.en = true ∧ s.envDue = some 100001 ∧
      s.now + (wdtTicks s.cfg s.wd.period - s.wd.cnt) < 100001 ∧ s.engineDue = none ∧ s.seqDue = none) ∧
    (let s : State := { sending 0x41 with wd := { en := false, period := .medium, cnt := 0 } }
     s.seq ≠ .guard ∧ s.wd.en = false ∧ s.inp.resets = [] ∧ ∃ t, step s = .next t) :=
  ⟨by decide, by decide, rfl, rfl, goes (by decide)⟩
theorem witness_ResetGuardDecidesOnTheExternalFlag :
    (State.reset.cfg.valid = true ∧ State.reset.seq = .guard ∧ State.reset.UndisturbedUntil State.reset.now ∧
      State.reset.rc.ext = false) ∧
    (let s : State := { State.reset with rc := { ext := true, wdt := false, por := true, bor := false } }
     s.cfg.valid = true ∧ s.seq = .guard ∧ s.UndisturbedUntil s.now ∧ s.rc.ext = true) :=
  ⟨⟨by decide, rfl, undisturbed_of_quiet (by decide), rfl⟩, ⟨by decide, rfl, undisturbed_of_quiet (by decide), rfl⟩⟩

/-- LOADADDR's second byte, and the end of a WRITEPAGE. -/
theorem witness_OnlyThreeThingsChangeTheAddressRegister :
    (∃ t, step (receiving (hand (.addr 1) 0x41) .stop 0x34) = .next t ∧ t.seq ≠ .guard ∧ t.ar ≠ 0x0010) ∧
    ∃ t, step committed = .next t ∧ t.seq ≠ .guard ∧ t.ar ≠ 0x0010 := by
  constructor
  · obtain ⟨t, h, e⟩ := gives_exists (show gives (step (receiving (hand (.addr 1) 0x41) .stop 0x34))
      (fun t => t.seq != .guard && t.ar != 0x0010) = true by decide)
    exact ⟨t, h, by simpa using e⟩
  · obtain ⟨t, h, e⟩ := gives_exists (show gives (step committed) (fun t => t.seq != .guard && t.ar != 0x0010) = true by decide)
    exact ⟨t, h, by simpa using e⟩
/-- Into the application from reset, out of it by an external reset, and at rest in it. -/
theorem witness_TheApplicationIsEnteredOnlyByResetGuard :
    (State.reset.BootOk ∧ State.reset.seq ≠ .app ∧ ∃ t, step State.reset = .next t ∧ t.seq = .app) ∧
    (let s := env { State.reset with seq := .app } [] [{ time := 5, cause := .ext, others := [] }]
     s.BootOk ∧ s.seq = .app ∧ ∃ t, step s = .next t) ∧
    (let s : State := { State.reset with seq := .app }
     s.BootOk ∧ s.seq = .app ∧ ∃ t, step s = .next t) := by
  refine ⟨⟨⟨rfl, rfl⟩, by decide, ?_⟩, ⟨⟨rfl, rfl⟩, rfl, goes (by decide)⟩, ⟨rfl, rfl⟩, rfl, goes (by decide)⟩
  obtain ⟨t, h, e⟩ := gives_exists (show gives (step State.reset) (fun t => t.seq == .app) = true by decide)
  exact ⟨t, h, by simpa using e⟩
theorem witness_OnlyResetsSetCauseFlags : ∃ t, step State.reset = .next t ∧ t.seq ≠ .guard := by
  obtain ⟨t, h, e⟩ := gives_exists (show gives (step State.reset) (fun t => t.seq != .guard) = true by decide)
  exact ⟨t, h, by simpa using e⟩
/-- The refresh, and RESET's arming. -/
theorem witness_TheWatchdogIsRefreshedOnlyAfterAReply :
    (let s : State := { sending 0x41 with wd := { en := true, period := .medium, cnt := 5 } }
     ∃ t, step s = .next t ∧ s.seq ≠ .guard ∧ t.seq ≠ .guard ∧ t.wd.cnt < s.wd.cnt) ∧
    (let s : State := { receiving (loop .idle) .stop 0x52 with wd := { en := true, period := .medium, cnt := 5 } }
     ∃ t, step s = .next t ∧ s.seq ≠ .guard ∧ t.seq ≠ .guard ∧ t.wd.cnt < s.wd.cnt) := by
  constructor
  · obtain ⟨t, h, e⟩ := gives_exists (show gives (step { sending 0x41 with wd := { en := true, period := .medium, cnt := 5 } })
      (fun t => t.seq != .guard && decide (t.wd.cnt < 5)) = true by decide)
    exact ⟨t, h, by decide, by simpa using e⟩
  · obtain ⟨t, h, e⟩ := gives_exists (show gives (step
        { receiving (loop .idle) .stop 0x52 with wd := { en := true, period := .medium, cnt := 5 } })
      (fun t => t.seq != .guard && decide (t.wd.cnt < 5)) = true by decide)
    exact ⟨t, h, by decide, by simpa using e⟩
/-- The end of an acknowledgment, and a step that is none. -/
theorem witness_OneReplyPerCommand :
    (∃ t, step (sending 0x41) = .next t ∧ t.seq ≠ .guard ∧ (sending 0x41).seq = .ack ∧ t.seq = .idle) ∧
    ∃ t, step State.reset = .next t ∧ t.seq ≠ .guard := by
  constructor
  · obtain ⟨t, h, e⟩ := gives_exists (show gives (step (sending 0x41)) (fun t => t.seq == .idle) = true by decide)
    have e : t.seq = .idle := by simpa using e
    exact ⟨t, h, by simp [e], rfl, e⟩
  · obtain ⟨t, h, e⟩ := gives_exists (show gives (step State.reset) (fun t => t.seq != .guard) = true by decide)
    exact ⟨t, h, by simpa using e⟩

end Sys2Proof.Tests
end

section
/-! Scope: a configuration that breaks a constraint is refused at every layer (00_scope.md R9). -/

namespace Sys2Proof.Machine

/-- The layer without a clock refuses an invalid configuration before it looks at the event. -/
theorem untimedStep_invalid {s : State} (e : UntimedEvent) (h : s.cfg.valid = false) :
    untimedStep e s = .refused .invalidConfiguration := if_neg (by simp [h])

/-- The byte level refuses an invalid configuration before it asks whether the event is enabled, so that a lost byte is no
exception. -/
theorem byteStep_invalid {s : State} (e : ByteEvent) (h : s.cfg.valid = false) :
    byteStep e s = .refused .invalidConfiguration := if_neg (by simp [h])

/-- A run without a clock starts in a valid configuration. -/
theorem untimedRun_start_valid {states : Nat → State} {events : Nat → Option UntimedEvent} (h : UntimedRun states events) :
    (states 0).cfg.valid = true := h.1

/-- Settles O8: each layer's step tests the configuration first, and a run without a clock demands a valid one at its start. -/
theorem invalidConfigurationIsRefused : Obligations.InvalidConfigurationIsRefused := by
  intro s h
  refine ⟨step_invalid h, fun e => untimedStep_invalid e h, fun e => byteStep_invalid e h, ?_⟩
  rintro states events rfl run
  exact Bool.false_ne_true (h.symm.trans (untimedRun_start_valid run))

end Sys2Proof.Machine
end

section
/-! The invariant: it holds after reset and every step keeps it (10_state.md R44; 70_reset_and_hazards.md R251, R252). -/

namespace Sys2Proof.Machine

/-- Settles O4: each value is the reset table's, and flash lists no byte. -/
theorem resetStateIsThePowerOnState : Obligations.ResetStateIsThePowerOnState :=
  ⟨rfl, rfl, rfl, rfl, rfl, rfl, rfl, fun _ => rfl⟩

theorem reset_shapes : State.reset.Shapes where
  config := by decide
  pb := rfl
  ftb := rfl
  timer := by decide
  payload := nofun
  txBit := by decide

/-- Settles O5: S_GUARD with nothing in flight, nothing listed in flash and nothing sent. -/
theorem resetStateIsGood : Obligations.ResetStateIsGood where
  shapes := reset_shapes
  flash := ⟨reset_wf, nofun⟩
  engine := trivial
  opcode := trivial
  txd := rfl
  supervisor := rfl
  boot := ⟨rfl, rfl⟩
  replies := nofun
  write := ⟨nofun, trivial⟩

/-- An event that comes before every reset comes before the watchdog's expiry. -/
theorem wdtDue_later {s : State} {q : Nat} (h : ∀ r, earlier s.envDue s.wdtDue = some r → q < r) :
    ∀ w, s.wdtDue = some w → q < w := by
  intro w hw
  obtain ⟨r, hr, hle⟩ := earlier_some_right (a := s.envDue) hw
  exact Nat.lt_of_lt_of_le (h r hr) hle

/-- In S_GUARD of a good state the engine has no event: nothing is in flight there. -/
theorem engineDue_guard {s : State} (h : s.BootOk) (hs : s.seq = .guard) : s.engineDue = none := by
  simp only [State.BootOk, hs] at h
  obtain ⟨hidle, -⟩ := h
  simp only [State.engineDue, hidle, FlashEngine.busy, Bool.false_eq_true, if_false]

/-- Time passing up to the next event keeps the invariant, where that event is not a reset: the watchdog has not expired, and
S_GUARD lasts no tick. -/
theorem advance_to_event_inv {s : State} {a : Agent} {q : Nat} (h : s.Inv) (hn : s.nextAgent = some (a, q))
    (ha : a ≠ .reset) : (advanceTo q s).Inv := by
  obtain ⟨rfl, _⟩ | ⟨-, hd, hr, -⟩ | ⟨-, hd, hr, -⟩ := nextAgent_cases hn
  · exact absurd rfl ha
  · refine advance_inv h (wdtDue_later hr) fun hs => ?_
    rw [engineDue_guard h.boot hs] at hd
    cases hd
  · refine advance_inv h (wdtDue_later hr) fun hs => ?_
    rw [seqDue_guard hs] at hd
    exact (Option.some.inj hd).symm

/-- Settles O6, agent by agent: a reset establishes the invariant, and time, the engine's completion and the sequencer's turn
each keep it. -/
theorem everyStepKeepsTheInvariant : Obligations.EveryStepKeepsTheInvariant := by
  intro s t h hstep
  obtain ⟨-, ⟨q, -, rfl⟩ | ⟨q, hn, rfl⟩ | ⟨q, hn, -, hx⟩ | ⟨-, rfl⟩⟩ := step_next_cases hstep
  · exact reset_inv q h
  · exact engine_inv (advance_to_event_inv h hn nofun)
  · exact seqTurn_inv (advance_to_event_inv h hn nofun) hx
  · exact h

end Sys2Proof.Machine
end

section
/-! How the step goes on with the command in hand (44_command_dispatcher.md R191; 60_exceptions.md R228). -/

namespace Sys2Proof.Machine

/-- A byte received between the body bytes goes to the command in hand. -/
theorem seqTurn_body_byte {s : State} (hl : s.seq.listening = true) (hs : s.seq ≠ .idle) (hr : s.loc.rx = .stop)
    (hb : s.rxdAt s.now = s.cfg.stopLevel) : seqTurn s = .command (decodeOpcode s.op) (recvDone s) := by
  have hgood : s.frameErrorNow = false := by simp [State.frameErrorNow, hb]
  simp [seqTurn_listening hl, recvTurn, hr, hgood, received, hs]

/-- SendByte returns at the end of its tenth bit period. -/
theorem sendTurn_last {s : State} (h : s.loc.txBit = 9) : sendTurn s = .command (decodeOpcode s.op) (sendDone s) := by
  simp [sendTurn, h]

theorem seqTurn_wProg {s : State} {p : ProgPhase} (h : s.seq = .wProg p) : seqTurn s = .command (decodeOpcode s.op) s := by
  simp only [seqTurn, h]

theorem seqDue_wProg {s : State} {p : ProgPhase} (h : s.seq = .wProg p) (hb : s.fe.busy = false) :
    s.seqDue = some s.now := by
  simp [State.seqDue, h, hb]

/-- Settles O10: undisturbed, the step is the sequencer's turn, and at each of the three places that turn is an action of the
command in hand. -/
theorem stepGoesOnWithTheCommandInHand : Obligations.StepGoesOnWithTheCommandInHand := by
  intro s hv
  refine ⟨fun hl hs hr hu hb => ?_, fun hs h9 hu => ?_, fun p hs hb hu => ?_⟩
  · have hq : s.seqDue = some (max s.loc.due s.now) := by simp only [seqDue_listening hl, State.recvDue, hr]
    rw [step_of_undisturbed hv hq hu, seqTurn_body_byte (s := advanceTo (max s.loc.due s.now) s) hl hs hr hb]
    rfl
  · rw [step_sending hv hs hu, sendTurn_last (s := advanceTo (max s.loc.due s.now) s) h9]
    rfl
  · rw [step_of_undisturbed hv (seqDue_wProg hs hb) hu, seqTurn_wProg (s := advanceTo s.now s) hs]
    rfl

end Sys2Proof.Machine
end

section
/-! What the commands' actions leave alone (10_state.md R40). Every action is an update of the state, so what it keeps, field
by field, is what the unchanged state keeps. -/

namespace Sys2Proof.Machine

theorem KeepsMachine.refl (s : State) : KeepsMachine s s :=
  ⟨rfl, rfl, rfl, fun _ => rfl, rfl, rfl, rfl, rfl, rfl, rfl⟩

theorem KeepsAddress.refl (s : State) : KeepsAddress s s := ⟨rfl, rfl⟩

theorem KeepsPageState.refl (s : State) : KeepsPageState s s := ⟨rfl, rfl, rfl, rfl, rfl, rfl, rfl, rfl⟩

theorem KeepsWatchdog.refl (s : State) : KeepsWatchdog s s := ⟨rfl, rfl, fun _ => rfl⟩

/-- The refresh after an acknowledgment is the one action that sets the count back. -/
theorem finishCycle_keepsWatchdog {s : State} (h : s.seq = .ack) : KeepsWatchdog s (finishCycle s) :=
  ⟨rfl, rfl, fun hne => absurd h hne⟩

/-- The frame that IDENTIFY, UNKNOWN and, but for its last byte, LOADADDR share. -/
def HandlerFrame (s t : State) : Prop :=
  KeepsMachine s t ∧ KeepsAddress s t ∧ KeepsPageState s t ∧ KeepsWatchdog s t ∧ KeepsReplyUnlessBegun s t

theorem listenAt_frame (p : Seq) (l : Locals) (s : State) : HandlerFrame s (listenAt p { s with loc := l }) :=
  ⟨{ KeepsMachine.refl s with }, { KeepsAddress.refl s with }, { KeepsPageState.refl s with },
    { KeepsWatchdog.refl s with }, .inl ⟨rfl, rfl, rfl⟩⟩

theorem acknowledge_frame (r : Bool) (l : Locals) (s : State) : HandlerFrame s (acknowledge r { s with loc := l }) :=
  ⟨{ KeepsMachine.refl s with }, { KeepsAddress.refl s with }, { KeepsPageState.refl s with },
    { KeepsWatchdog.refl s with }, .inr rfl⟩

theorem failWith_frame (e : Label) (l : Locals) (s : State) : HandlerFrame s (failWith e { s with loc := l }) :=
  ⟨{ KeepsMachine.refl s with }, { KeepsAddress.refl s with }, { KeepsPageState.refl s with },
    { KeepsWatchdog.refl s with }, .inr rfl⟩

theorem finishCycle_frame {s : State} (h : s.seq = .ack) : HandlerFrame s (finishCycle s) :=
  ⟨{ KeepsMachine.refl s with }, { KeepsAddress.refl s with }, { KeepsPageState.refl s with },
    finishCycle_keepsWatchdog h, .inl ⟨rfl, rfl, rfl⟩⟩

theorem identifyByte_frame (k : Fin 3) (s : State) : HandlerFrame s (identifyByte k s) := by
  match k with
  | 0 => exact listenAt_frame _ _ s
  | 1 => exact listenAt_frame _ _ s
  | 2 =>
    rw [identifyByte_two]
    split
    · exact acknowledge_frame _ _ s
    · exact failWith_frame _ _ s

/-- LOADADDR's last byte keeps all of the frame but AR. -/
theorem loadAddrDone_frame (s : State) :
    KeepsMachine s (loadAddrDone s) ∧ KeepsPageState s (loadAddrDone s) ∧ KeepsWatchdog s (loadAddrDone s) ∧
    KeepsReplyUnlessBegun s (loadAddrDone s) :=
  ⟨{ KeepsMachine.refl s with }, { KeepsPageState.refl s with }, { KeepsWatchdog.refl s with }, .inr rfl⟩

/-- Settles O15, position by position. -/
theorem identifyFrame : Obligations.IdentifyFrame := by
  intro s t h
  obtain ⟨-, rfl⟩ | ⟨k, -, rfl⟩ | ⟨hs, rfl⟩ := exec_identify_next h
  · exact listenAt_frame _ _ s
  · exact identifyByte_frame k s
  · exact finishCycle_frame hs

/-- Settles O18: before the second body byte LOADADDR's actions have the frame IDENTIFY's have; that byte writes AR. -/
theorem loadAddrFrame : Obligations.LoadAddrFrame := by
  intro s t h
  have weaken {u : State} (hf : HandlerFrame s u) : KeepsMachine s u ∧ (s.seq ≠ .addr 1 → KeepsAddress s u) ∧
      KeepsPageState s u ∧ KeepsWatchdog s u ∧ KeepsReplyUnlessBegun s u :=
    hf.imp_right (And.imp_left fun ha _ => ha)
  obtain ⟨-, rfl⟩ | ⟨-, rfl⟩ | ⟨hs, rfl⟩ | ⟨hs, rfl⟩ := exec_loadAddr_next h
  · exact weaken (listenAt_frame _ s.loc s)
  · exact weaken (listenAt_frame _ _ s)
  · exact (loadAddrDone_frame s).imp_right fun hrest => ⟨fun hne => absurd hs hne, hrest⟩
  · exact weaken (finishCycle_frame hs)

/-- Settles O33: UNKNOWN fails at once or ends its cycle; RESET arms the watchdog and spins. -/
theorem unknownAndResetFrame : Obligations.UnknownAndResetFrame := by
  refine ⟨fun b s t h => ?_, fun s t h => ?_⟩
  · obtain ⟨-, rfl⟩ | ⟨hs, rfl⟩ := exec_unknown_next h
    · exact failWith_frame _ s.loc s
    · exact finishCycle_frame hs
  · obtain ⟨-, rfl⟩ := exec_reset_next h
    exact ⟨{ KeepsMachine.refl s with }, { KeepsAddress.refl s with }, { KeepsPageState.refl s with }, rfl, rfl, rfl⟩

end Sys2Proof.Machine
end

section
/-! What WRITEPAGE's actions leave alone (10_state.md R40; 44_command_dispatcher.md R199). -/

namespace Sys2Proof.Machine

/-- The frame of WRITEPAGE's actions, those of every position together. -/
def PageFrame (s t : State) : Prop :=
  KeepsMachine s t ∧ t.arWritten = s.arWritten ∧ (s.seq ≠ .wProg .waitCommit → t.ar = s.ar) ∧ KeepsWatchdog s t ∧
  KeepsReplyUnlessBegun s t ∧
  (s.seq ≠ .idle → s.seq ≠ .wProg .waitErase → t.fe = s.fe ∧ t.feDue = s.feDue ∧ t.ftb = s.ftb) ∧
  (s.seq ≠ .idle → (∀ p, s.seq ≠ .wProg p) → t.readEn = s.readEn) ∧
  ((∀ k, s.seq ≠ .wCk k) → t.ckRx = s.ckRx) ∧ ((∀ i, s.seq ≠ .wData i) → t.pb = s.pb ∧ t.acc = s.acc)

/-- An action of the frame that the other commands share has WRITEPAGE's too. -/
theorem HandlerFrame.pageFrame {s t : State} (h : HandlerFrame s t) : PageFrame s t := by
  obtain ⟨hm, ha, hp, hw, hr⟩ := h
  exact ⟨hm, ha.written, fun _ => ha.ar, hw, hr, fun _ _ => ⟨hp.fe, hp.feDue, hp.ftb⟩, fun _ _ => hp.readEn,
    fun _ => hp.ckRx, fun _ => ⟨hp.pb, hp.acc⟩⟩

/-- The dispatch issues the erase. -/
theorem writePageStart_frame {s t : State} (hs : s.seq = .idle) (h : writePageStart s = .next t) : PageFrame s t := by
  obtain ⟨-, -, rfl⟩ := writePageStart_next h
  exact ⟨{ KeepsMachine.refl s with }, rfl, fun _ => rfl, { KeepsWatchdog.refl s with }, .inl ⟨rfl, rfl, rfl⟩,
    fun hne => absurd hs hne, fun hne => absurd hs hne, fun _ => rfl, fun _ => ⟨rfl, rfl⟩⟩

/-- A checksum byte goes into CK_RX. -/
theorem writePageChecksum_frame {s : State} {k : Fin 2} (hs : s.seq = .wCk k) : PageFrame s (writePageChecksum k s) := by
  have frame (p : Seq) (ck : Half) : PageFrame s (listenAt p { s with ckRx := ck }) :=
    ⟨{ KeepsMachine.refl s with }, rfl, fun _ => rfl, { KeepsWatchdog.refl s with }, .inl ⟨rfl, rfl, rfl⟩,
      fun _ _ => ⟨rfl, rfl, rfl⟩, fun _ _ => rfl, fun hne => absurd hs (hne k), fun _ => ⟨rfl, rfl⟩⟩
  unfold writePageChecksum
  split
  · exact frame _ _
  · exact frame _ _

/-- A payload byte goes into PB, and the last one has the checksum computed. -/
theorem writePageData_frame {s t : State} {i : Nat} (hs : s.seq = .wData i) (h : writePageData i s = .next t) :
    PageFrame s t := by
  have other : (∀ j, s.seq ≠ .wData j) → t.pb = s.pb ∧ t.acc = s.acc := fun hne => absurd hs (hne i)
  obtain ⟨-, rfl⟩ | ⟨-, a, -, ⟨-, rfl⟩ | ⟨-, rfl⟩⟩ := writePageData_next h
  · exact ⟨{ KeepsMachine.refl s with }, rfl, fun _ => rfl, { KeepsWatchdog.refl s with }, .inl ⟨rfl, rfl, rfl⟩,
      fun _ _ => ⟨rfl, rfl, rfl⟩, fun _ _ => rfl, fun _ => rfl, other⟩
  · exact ⟨{ KeepsMachine.refl s with }, rfl, fun _ => rfl, { KeepsWatchdog.refl s with }, .inl ⟨rfl, rfl, rfl⟩,
      fun _ _ => ⟨rfl, rfl, rfl⟩, fun _ _ => rfl, fun _ => rfl, other⟩
  · exact ⟨{ KeepsMachine.refl s with }, rfl, fun _ => rfl, { KeepsWatchdog.refl s with }, .inr rfl,
      fun _ _ => ⟨rfl, rfl, rfl⟩, fun _ _ => rfl, fun _ => rfl, other⟩

/-- The flash waits: the first ends with the commit issued, the second with reads enabled, AR advanced and the reply. -/
theorem writePageProgram_frame {s t : State} {p : ProgPhase} (hs : s.seq = .wProg p)
    (h : writePageProgram p s = .next t) : PageFrame s t := by
  obtain ⟨-, rfl⟩ | ⟨-, rfl, f, -, -, rfl⟩ | ⟨-, rfl, rfl⟩ := writePageProgram_next h
  · exact ⟨.refl t, rfl, fun _ => rfl, .refl t, .inl ⟨rfl, rfl, rfl⟩, fun _ _ => ⟨rfl, rfl, rfl⟩, fun _ _ => rfl,
      fun _ => rfl, fun _ => ⟨rfl, rfl⟩⟩
  · exact ⟨{ KeepsMachine.refl s with }, rfl, fun _ => rfl, { KeepsWatchdog.refl s with }, .inl ⟨rfl, rfl, rfl⟩,
      fun _ hne => absurd hs hne, fun _ hne => absurd hs (hne _), fun _ => rfl, fun _ => ⟨rfl, rfl⟩⟩
  · exact ⟨{ KeepsMachine.refl s with }, rfl, fun hne => absurd hs hne, { KeepsWatchdog.refl s with }, .inr rfl,
      fun _ _ => ⟨rfl, rfl, rfl⟩, fun _ hne => absurd hs (hne _), fun _ => rfl, fun _ => ⟨rfl, rfl⟩⟩

/-- Settles O28, position by position. -/
theorem writePageFrame : Obligations.WritePageFrame := by
  intro s t h
  obtain ⟨hs, h⟩ | ⟨k, hs, rfl⟩ | ⟨i, hs, h⟩ | ⟨p, hs, h⟩ | ⟨hs, rfl⟩ := exec_writePage_next h
  · exact writePageStart_frame hs h
  · exact writePageChecksum_frame hs
  · exact writePageData_frame hs h
  · exact writePageProgram_frame hs h
  · exact (finishCycle_frame hs).pageFrame

end Sys2Proof.Machine
end

section
/-! Rules about every step: which bytes of flash and which values of AR it can change (10_state.md R21, R29). -/

namespace Sys2Proof.Machine

/-- The part of the sequencer's turn that runs no command keeps flash and AR, and a command is run at a state with the flash
and the AR of before, the opcode being the one in hand except in S_IDLE. -/
theorem seqTurn_keeps_or_exec {s t : State} (hp : s.seq ≠ .app ∧ s.seq ≠ .spin) (h : runTurn (seqTurn s) = .next t) :
    (t.flash = s.flash ∧ KeepsAddress s t) ∨
    ∃ u, exec (decodeOpcode u.op) u = .next t ∧ u.flash = s.flash ∧ KeepsAddress s u ∧ u.cfg = s.cfg ∧ u.seq = s.seq ∧
      (s.seq ≠ .idle → u.op = s.op) := by
  obtain ⟨-, rfl⟩ | ⟨-, -, rfl⟩ | ⟨-, -, hx⟩ | ⟨p, -, hx⟩ | ⟨-, hr⟩ | ⟨hs, hx⟩ | ⟨-, -, hx⟩ := seqTurn_next hp h
  · left
    unfold resetGuard
    split
    · exact ⟨rfl, rfl, rfl⟩
    · exact ⟨rfl, rfl, rfl⟩
  · exact .inl ⟨rfl, rfl, rfl⟩
  · exact .inr ⟨sendDone s, hx, rfl, ⟨rfl, rfl⟩, rfl, rfl, fun _ => rfl⟩
  · exact .inr ⟨s, hx, rfl, .refl s, rfl, rfl, fun _ => rfl⟩
  · left
    obtain rfl | rfl | rfl | ⟨i, rfl⟩ | rfl := hr
    · exact ⟨rfl, rfl, rfl⟩
    · obtain ⟨-, -, -, har, haw, -, -, hf⟩ := recvPoll_keeps_most s
      exact ⟨hf, har, haw⟩
    · obtain ⟨-, -, -, -, har, haw, -, hf⟩ := recvStart_keeps_most s
      exact ⟨hf, har, haw⟩
    · exact ⟨rfl, rfl, rfl⟩
    · exact ⟨rfl, rfl, rfl⟩
  · exact .inr ⟨{ recvDone s with op := s.rxsr }, hx, rfl, ⟨rfl, rfl⟩, rfl, rfl, fun hne => absurd hs hne⟩
  · exact .inr ⟨recvDone s, hx, rfl, ⟨rfl, rfl⟩, rfl, rfl, fun _ => rfl⟩

/-- The sequencer's turn changes no byte of flash. -/
theorem seqTurn_flash {s t : State} (hp : s.seq ≠ .app ∧ s.seq ≠ .spin) (h : runTurn (seqTurn s) = .next t) :
    t.flash = s.flash := by
  obtain ⟨hf, -⟩ | ⟨u, hx, hf, -⟩ := seqTurn_keeps_or_exec hp h
  · exact hf
  · obtain ⟨-, -, -, hfx, -⟩ := exec_keeps hx
    exact hfx.trans hf

/-- A byte that a write changes is one of those written. -/
theorem flashGet_flashWrite_ne {m : List Host.Cell} {a x : Nat} {vs : List Byte}
    (h : flashGet (flashWrite m a vs) x ≠ flashGet m x) : a ≤ x ∧ x < a + vs.length := by
  by_contra hout
  exact h (flashGet_flashWrite_outside vs m a x (by omega))

/-- Address `a` lies in the page whose erase or commit is in flight. -/
def State.InFlightAt (s : State) (a : Nat) : Prop :=
  ∃ p, (s.fe = .erasing p ∨ ∃ snapshot clean, s.fe = .writing p snapshot clean) ∧
    s.pageBase p ≤ a ∧ a < s.pageBase p + s.cfg.pageSize

/-- A completion changes bytes of the page in flight only, the snapshot of a commit being one page long. -/
theorem engineComplete_changes {s : State} {a : Nat} (he : s.EngineOk)
    (h : flashGet (engineComplete s).flash a ≠ flashGet s.flash a) : s.InFlightAt a := by
  unfold State.EngineOk at he
  unfold engineComplete at h
  cases hfe : s.fe <;> simp only [hfe] at h he
  case idle => exact absurd rfl h
  case erasing p =>
    have hin := flashGet_flashWrite_ne h
    rw [List.length_replicate] at hin
    exact ⟨p, .inl hfe, hin⟩
  case writing p snapshot clean =>
    obtain ⟨-, -, hlen⟩ := he
    have hin := flashGet_flashWrite_ne h
    rw [apply_ite List.length, freeBytes_length, hlen, ite_self] at hin
    exact ⟨p, .inr ⟨snapshot, clean, hfe⟩, hin⟩

/-- A reset changes bytes of the page in flight only. -/
theorem flashAfterReset_changes {s : State} {a : Nat} (h : flashGet s.flashAfterReset a ≠ flashGet s.flash a) :
    s.InFlightAt a := by
  unfold State.flashAfterReset at h
  cases hfe : s.fe <;> simp only [hfe] at h
  case idle => exact absurd rfl h
  case erasing p =>
    have hin := flashGet_flashWrite_ne h
    rw [freeBytes_length] at hin
    exact ⟨p, .inl hfe, hin⟩
  case writing p snapshot clean =>
    have hin := flashGet_flashWrite_ne h
    rw [freeBytes_length] at hin
    exact ⟨p, .inr ⟨snapshot, clean, hfe⟩, hin⟩

/-- Settles O50: a reset and a completion change bytes of the page in flight, and the sequencer changes none. -/
theorem onlyThePageInFlightChanges : Obligations.OnlyThePageInFlightChanges := by
  intro s t a he hstep hne
  obtain ⟨-, ⟨q, -, rfl⟩ | ⟨q, -, rfl⟩ | ⟨q, -, hp, hx⟩ | ⟨-, rfl⟩⟩ := step_next_cases hstep
  · exact flashAfterReset_changes (s := advanceTo q { s with inp := _ }) hne
  · exact engineComplete_changes (s := advanceTo q s) he hne
  · exact absurd (congrArg (flashGet · a) (seqTurn_flash (s := advanceTo q s) hp hx)) hne
  · exact absurd rfl hne

/-- The only actions that change AR: LOADADDR's last byte and the end of WRITEPAGE's second flash wait. -/
theorem exec_keepsAddress_or {i : Instr} {s t : State} (h : exec i s = .next t) :
    KeepsAddress s t ∨ (s.seq = .addr 1 ∧ i = .loadAddr ∧ t.arWritten = true) ∨
    (s.seq = .wProg .waitCommit ∧ t.ar = s.ar + BitVec.ofNat 16 s.cfg.pageSize ∧ t.arWritten = s.arWritten ∧
      t.ok = true) := by
  cases i with
  | identify =>
    obtain ⟨-, hk, -⟩ := identifyFrame s t h
    exact .inl hk
  | unknown b =>
    obtain ⟨-, hk, -⟩ := unknownAndResetFrame.1 b s t h
    exact .inl hk
  | reset =>
    obtain ⟨-, hk, -⟩ := unknownAndResetFrame.2 s t h
    exact .inl hk
  | loadAddr =>
    by_cases hs : s.seq = .addr 1
    · rw [exec_loadAddr_addr_one hs] at h
      cases h
      exact .inr (.inl ⟨hs, rfl, rfl⟩)
    · obtain ⟨-, hk, -⟩ := loadAddrFrame s t h
      exact .inl (hk hs)
  | writePage =>
    by_cases hs : s.seq = .wProg .waitCommit
    · rw [exec_writePage_wProg hs] at h
      obtain ⟨-, rfl⟩ | ⟨-, hp, -⟩ | ⟨-, -, rfl⟩ := writePageProgram_next h
      · exact .inl (.refl t)
      · cases hp
      · exact .inr (.inr ⟨hs, rfl, rfl, rfl⟩)
    · obtain ⟨-, hw, ha, -⟩ := writePageFrame s t h
      exact .inl ⟨ha hs, hw⟩

/-- Settles O56: neither time nor the engine nor the waits of the transceiver touch AR, and among the commands' actions only
the two of `exec_keepsAddress_or` do. -/
theorem onlyThreeThingsChangeTheAddressRegister : Obligations.OnlyThreeThingsChangeTheAddressRegister := by
  intro s t hstep hg hne
  have changed (hk : KeepsAddress s t) : False := hne.elim (fun h => h hk.ar) fun h => h hk.written
  obtain ⟨-, ⟨q, -, rfl⟩ | ⟨q, -, rfl⟩ | ⟨q, -, hp, hx⟩ | ⟨-, rfl⟩⟩ := step_next_cases hstep
  · exact absurd (resetAt_seq q s) hg
  · obtain ⟨-, -, -, har, haw, -⟩ := engineComplete_keeps (advanceTo q s)
    exact (changed ⟨har, haw⟩).elim
  · obtain ⟨-, hk⟩ | ⟨u, hx, -, ⟨har, haw⟩, hcfg, hseq, hop⟩ := seqTurn_keeps_or_exec (s := advanceTo q s) hp hx
    · exact (changed { hk with }).elim
    · simp only [advanceTo_fields] at har haw hcfg hseq hop
      obtain hk | ⟨hs, hi, hw⟩ | ⟨hs, ha, hw, hok⟩ := exec_keepsAddress_or hx
      · exact (changed ⟨hk.ar.trans har, hk.written.trans haw⟩).elim
      · have hs : s.seq = .addr 1 := hseq ▸ hs
        rw [hop (by simp [hs])] at hi
        exact .inl ⟨hs, hi, hw⟩
      · exact .inr ⟨hseq ▸ hs, by rw [ha, har, hcfg], hw.trans haw, hok⟩
  · exact (changed (.refl t)).elim

end Sys2Proof.Machine
end

section
/-! Operands on the wire (20_memory.md R54; 30_encoding.md R79, R83): decoding a whole command gives its body back. -/

namespace Sys2Proof

/-- The length of the body, known from the opcode alone (R80), is where the decoder cuts the bytes. -/
theorem decodeCommand_encodeCommand_append {c : Cfg} {i : Instr} {body : List Byte} (rest : List Byte)
    (hi : i.wf = true) (hb : body.length = i.bodyLength c) :
    decodeCommand c (encodeCommand i body ++ rest) = .ok (i, body, rest) := by
  have hdecode : decode (encodeCommand i body ++ rest) = .ok (i, body ++ rest) := by
    rw [encodeCommand, encode, List.append_assoc, List.singleton_append, decode, decodeOpcode_encodeOpcode i hi]
  have hlong : ¬(body ++ rest).length < body.length := by simp
  simp only [decodeCommand, hdecode, ← hb, if_neg hlong, List.take_left, List.drop_left]

/-- Settles O3: each script notation is the encoding of a well-formed command, and a 16-bit operand is its low byte before
its high byte. -/
theorem operandsSurviveTheWire : Obligations.OperandsSurviveTheWire := by
  intro c rest
  refine ⟨fun a => ⟨lowByte a, highByte a, ?_, le16_low_high a, lowByte_toNat a, highByte_toNat a⟩,
    fun ck d hd => ⟨lowByte ck, highByte ck, ?_, le16_low_high ck, lowByte_toNat ck, highByte_toNat ck⟩,
    fun s0 s1 s2 => ?_⟩
  · exact decodeCommand_encodeCommand_append rest rfl rfl
  · have hb : (lowByte ck :: highByte ck :: d).length = Instr.writePage.bodyLength c := by
      simp only [List.length_cons, hd, Instr.bodyLength]
      omega
    exact decodeCommand_encodeCommand_append rest rfl hb
  · exact decodeCommand_encodeCommand_append rest rfl rfl

end Sys2Proof
end

section
/-! WRITEPAGE's admission (20_memory.md R53). -/

namespace Sys2Proof.Machine

theorem admission_unwritten {s : State} (h : s.arWritten = false) : s.admission = some .addressUnwritten := if_pos h

theorem admission_misaligned {s : State} (hw : s.arWritten = true) (hm : s.ar.toNat % s.cfg.pageSize ≠ 0) :
    s.admission = some .addressMisaligned := by
  rw [State.admission, if_neg (by simp [hw]), if_pos hm]

theorem admission_outside {s : State} (hw : s.arWritten = true) (ha : s.ar.toNat % s.cfg.pageSize = 0)
    (hl : s.cfg.appLimit < s.ar.toNat + s.cfg.pageSize) : s.admission = some .addressOutsideRegion := by
  rw [State.admission, if_neg (by simp [hw]), if_neg (not_not_intro ha), if_pos hl]

/-- A failed admission is the outcome of the dispatch: nothing is issued to the engine before it. -/
theorem exec_writePage_refused {s : State} {r : Refusal} (hs : s.seq = .idle) (hr : s.admission = some r) :
    exec .writePage s = .refused r := by
  rw [exec_writePage_idle hs, writePageStart, hr]

/-- Settles O19: each premise makes the admission fail under its own name. -/
theorem writePageIsRefusedAtAdmission : Obligations.WritePageIsRefusedAtAdmission := by
  intro s hs
  exact ⟨fun hw => exec_writePage_refused hs (admission_unwritten hw),
    fun hw hm => exec_writePage_refused hs (admission_misaligned hw hm),
    fun hw ha hl => exec_writePage_refused hs (admission_outside hw ha hl)⟩

end Sys2Proof.Machine
end

section
/-! The opcode map and the whole command (30_encoding.md R79 to R82, R90). -/

namespace Sys2Proof

theorem commandWf_iff {c : Cfg} {i : Instr} {body : List Byte} :
    commandWf c i body = true ↔ i.wf = true ∧ body.length = i.bodyLength c := by
  rw [commandWf, Bool.and_eq_true, decide_eq_true_iff]

/-- Settles O2: well-formedness is what the decoder's cut of the bytes needs. -/
theorem decodeOfEncodeGivesTheCommandBack : Obligations.DecodeOfEncodeGivesTheCommandBack := by
  intro c i body rest h
  obtain ⟨hi, hb⟩ := commandWf_iff.1 h
  exact decodeCommand_encodeCommand_append rest hi hb

/-- Settles O1: the four opcodes and the lower-case letter by evaluation, every other byte by failing the four tests. -/
theorem opcodeMapIsExactMatch : Obligations.OpcodeMapIsExactMatch :=
  ⟨rfl, rfl, rfl, rfl, rfl, fun _ => decodeOpcode_of_ne⟩

end Sys2Proof
end

section
/-! OUT and the end of an acknowledgment (30_encoding.md R85; 44_command_dispatcher.md R193, R194). -/

namespace Sys2Proof.Machine

/-- In S_ACK the only action of a command is the end of its cycle: RESET, which is never there, has none. -/
theorem exec_next_of_ack {i : Instr} {s t : State} (hs : s.seq = .ack) (h : exec i s = .next t) : t = finishCycle s := by
  have hi : i ≠ .reset := by
    rintro rfl
    obtain ⟨hidle, -⟩ := exec_reset_next h
    rw [hs] at hidle
    cases hidle
  rw [exec_ack hi hs] at h
  cases h
  rfl

theorem exec_keeps_out {i : Instr} {s t : State} (h : exec i s = .next t) : t.hist.out = s.hist.out := by
  obtain ⟨-, -, -, -, -, -, -, hout, -⟩ := exec_keeps h
  exact hout

theorem resetGuard_keeps_out (s : State) : (resetGuard s).hist.out = s.hist.out := by
  unfold resetGuard
  split
  · rfl
  · rfl

/-- The sequencer's turn ends an acknowledgment, or it keeps OUT. -/
theorem seqTurn_acknowledges_or_keeps_out {s t : State} (hp : s.seq ≠ .app ∧ s.seq ≠ .spin)
    (h : runTurn (seqTurn s) = .next t) :
    (s.seq = .ack ∧ t = finishCycle (sendDone s)) ∨
    (¬(s.seq = .ack ∧ t.seq = .idle) ∧ t.hist.out = s.hist.out) := by
  have elsewhere (hne : s.seq ≠ .ack) (hout : t.hist.out = s.hist.out) :
      ¬(s.seq = .ack ∧ t.seq = .idle) ∧ t.hist.out = s.hist.out := ⟨fun hack => hne hack.1, hout⟩
  have listening (hl : s.seq.listening = true) : s.seq ≠ .ack := fun hs => by simp [hs, Seq.listening] at hl
  obtain ⟨hs, rfl⟩ | ⟨hs, -, rfl⟩ | ⟨hs, -, hx⟩ | ⟨p, hs, hx⟩ | ⟨hl, hr⟩ | ⟨hs, hx⟩ | ⟨hl, -, hx⟩ := seqTurn_next hp h
  · exact .inr (elsewhere (by simp [hs]) (resetGuard_keeps_out s))
  · exact .inr ⟨by simp [hs], rfl⟩
  · exact .inl ⟨hs, exec_next_of_ack (s := sendDone s) hs hx⟩
  · exact .inr (elsewhere (by simp [hs]) (exec_keeps_out hx))
  · refine .inr (elsewhere (listening hl) ?_)
    obtain rfl | rfl | rfl | ⟨i, rfl⟩ | rfl := hr
    · rfl
    · obtain ⟨-, hhist, -⟩ := recvPoll_keeps_most s
      exact congrArg History.out hhist
    · obtain ⟨-, -, hout, -⟩ := recvStart_keeps_most s
      exact hout
    · rfl
    · rfl
  · exact .inr (elsewhere (by simp [hs]) (exec_keeps_out (s := { recvDone s with op := s.rxsr }) hx))
  · exact .inr (elsewhere (listening hl) (exec_keeps_out (s := recvDone s) hx))

/-- Settles O60, agent by agent: a completion and rest keep the position and OUT, and the end of an acknowledgment is the
only turn of the sequencer that adds to OUT. -/
theorem oneReplyPerCommand : Obligations.OneReplyPerCommand := by
  intro s t hstep hg
  have samePosition (hseq : t.seq = s.seq) : ¬(s.seq = .ack ∧ t.seq = .idle) := by
    rintro ⟨hack, hidle⟩
    rw [hseq, hack] at hidle
    cases hidle
  obtain ⟨-, ⟨q, -, rfl⟩ | ⟨q, -, rfl⟩ | ⟨q, -, hp, hx⟩ | ⟨-, rfl⟩⟩ := step_next_cases hstep
  · exact absurd (resetAt_seq q s) hg
  · obtain ⟨hseq, hhist, -⟩ := engineComplete_keeps (advanceTo q s)
    exact .inr ⟨samePosition hseq, congrArg History.out hhist⟩
  · obtain ⟨hs, rfl⟩ | hkeeps := seqTurn_acknowledges_or_keeps_out (s := advanceTo q s) hp hx
    · exact .inl ⟨hs, rfl, rfl⟩
    · exact .inr hkeeps
  · exact .inr ⟨samePosition rfl, rfl⟩

end Sys2Proof.Machine
end

section
/-! The bit timer and SendByte (40_serial_transceiver.md R102 to R105). -/

namespace Sys2Proof.Machine

/-- With SLACK_MAX = 0 a Delay ends exactly `n` ticks after it begins. -/
theorem delay_due_ideal {n : Nat} {s : State} (h : idealTiming s.cfg) : (delay n s).loc.due = s.now + n := by
  simp [nextSlack_ideal h]

/-- The counter has room for a bit period. -/
theorem bitTicks_lt_timer {c : Cfg} (h : c.valid = true) : c.bitTicks < 2 ^ c.timerWidth := by
  have hpow : 0 < 2 ^ c.timerWidth := Nat.two_pow_pos _
  simp only [Cfg.valid, Bool.and_eq_true, decide_eq_true_eq] at h
  omega

/-- Settles O40: no slack is added, and the counter, started from 0, has room for `n` ticks. -/
theorem delayEndsAtTheThreshold : Obligations.DelayEndsAtTheThreshold := by
  intro s n hv hideal hn
  refine ⟨delay_due_ideal hideal, rfl, fun t _ ht => ?_⟩
  have hroom : t - s.now < 2 ^ s.cfg.timerWidth := by
    have := bitTicks_lt_timer hv
    omega
  simp [Nat.mod_eq_of_lt hroom]

/-- A run one step longer. -/
theorem run_snoc {n : Nat} {s t u : State} (h : Host.Core.run core n s = .next t) (hstep : step t = .next u) :
    Host.Core.run core (n + 1) s = .next u := by
  rw [run_add n 1 s t h, run_succ 0 hstep]
  rfl

/-- SendByte, in its first bit period in `s`, is in period `k` of its frame in `t`, which began `k - 1` bit periods after the
end of the first. -/
structure SendingPeriod (s t : State) (k T : Nat) : Prop where
  along : Along s t (if k = 0 then s.now else s.loc.due + (k - 1) * s.cfg.bitTicks) T
  byte : t.loc.txByte = s.loc.txByte
  bit : t.loc.txBit = k
  line : t.txd = .drive (frameLevel s.cfg s.loc.txByte k)
  due : t.loc.due = s.loc.due + k * s.cfg.bitTicks

/-- A bit period ends after it began. -/
theorem SendingPeriod.now_le_due {s t : State} {k T : Nat} (h : SendingPeriod s t k T) (hd : s.now ≤ s.loc.due) :
    t.now ≤ t.loc.due := by
  rw [h.along.now, h.due]
  split
  · omega
  · have : (k - 1) * s.cfg.bitTicks ≤ k * s.cfg.bitTicks := Nat.mul_le_mul_right _ (Nat.sub_le k 1)
    omega

/-- Undisturbed until the end of a bit period, the step is SendByte's turn at that end. -/
theorem SendingPeriod.step_at_due {s t : State} {k T : Nat} (h : SendingPeriod s t k T) (hv : s.cfg.valid = true)
    (hs : s.seq = .ack) (hd : s.now ≤ s.loc.due) (hT : t.loc.due ≤ T) :
    step t = runTurn (sendTurn (advanceTo t.loc.due t)) := by
  have hmax : max t.loc.due t.now = t.loc.due := max_eq_left (h.now_le_due hd)
  have hu : t.UndisturbedUntil (max t.loc.due t.now) := by
    rw [hmax]
    exact undisturbed_mono h.along.free hT
  rw [step_sending (by rw [h.along.cfg]; exact hv) (h.along.seq.trans hs) hu, hmax]

theorem sendTurn_next {s : State} {k : Nat} (h : s.loc.txBit = k) (hk : k < 9) :
    sendTurn s = .done (sendPeriod (k + 1) s) := by
  simp [sendTurn, h, hk]

/-- Before the tenth period has ended the step leads to the next period. -/
theorem SendingPeriod.next {s t : State} {k T : Nat} (h : SendingPeriod s t k T) (hv : s.cfg.valid = true)
    (hideal : idealTiming s.cfg) (hs : s.seq = .ack) (hd : s.now ≤ s.loc.due) (hT : t.loc.due ≤ T) (hk : k < 9) :
    ∃ u, step t = .next u ∧ SendingPeriod s u (k + 1) T := by
  refine ⟨sendPeriod (k + 1) (advanceTo t.loc.due t), ?_, ?_, h.byte, rfl, ?_, ?_⟩
  · rw [h.step_at_due hv hs hd hT, sendTurn_next (s := advanceTo t.loc.due t) h.bit hk]
    rfl
  · have hstart : t.loc.due = s.loc.due + (k + 1 - 1) * s.cfg.bitTicks := h.due
    rw [if_neg (Nat.succ_ne_zero k), ← hstart]
    exact (h.along.advance (h.along.now ▸ h.now_le_due hd) hT).update rfl rfl rfl
  · simp [h.along.cfg, h.byte]
  · have ht : idealTiming t.cfg := by
      rw [h.along.cfg]
      exact hideal
    have hend : (sendPeriod (k + 1) (advanceTo t.loc.due t)).loc.due = t.loc.due + t.cfg.bitTicks := delay_due_ideal ht
    rw [hend, h.due, h.along.cfg, Nat.succ_mul, Nat.add_assoc]

/-- SendByte gets to every period of its frame, one step for each. -/
theorem run_to_period {s : State} (hv : s.cfg.valid = true) (hideal : idealTiming s.cfg) (hs : s.seq = .ack)
    (h0 : s.loc.txBit = 0) (hd : s.now ≤ s.loc.due) (hline : s.txd = .drive (frameLevel s.cfg s.loc.txByte 0))
    (hu : s.UndisturbedUntil (s.loc.due + 9 * s.cfg.bitTicks)) {k : Nat} (hk : k < 10) :
    ∃ t, Host.Core.run core k s = .next t ∧ SendingPeriod s t k (s.loc.due + 9 * s.cfg.bitTicks) := by
  induction k with
  | zero => exact ⟨s, rfl, .refl hu, rfl, h0, hline, by simp⟩
  | succ k ih =>
    obtain ⟨t, hrun, ht⟩ := ih (by omega)
    have hT : t.loc.due ≤ s.loc.due + 9 * s.cfg.bitTicks := by
      rw [ht.due]
      exact Nat.add_le_add_left (Nat.mul_le_mul_right _ (by omega)) _
    obtain ⟨u, hstep, hnext⟩ := ht.next hv hideal hs hd hT (by omega)
    exact ⟨u, run_snoc hrun hstep, hnext⟩

/-- Settles O39, by induction on the period: each lasts one Delay of a bit period, and after the tenth SendByte returns. -/
theorem replyFramesAreSentBitByBit : Obligations.ReplyFramesAreSentBitByBit := by
  intro s k hv hideal hs h0 hk hd hline hu
  obtain ⟨t, hrun, ht⟩ := run_to_period hv hideal hs h0 hd hline hu hk
  refine ⟨t, hrun, ht.line, ht.along.now, ht.due, ht.along.seq.trans hs, ht.along.hist, ?_⟩
  rintro rfl
  rw [ht.step_at_due hv hs hd ht.due.le, sendTurn_last (s := advanceTo t.loc.due t) ht.bit, ← ht.along.op]
  rfl

end Sys2Proof.Machine
end

section
/-! RecvByte (40_serial_transceiver.md R107 to R116). -/

namespace Sys2Proof.Machine

/-- Undisturbed, a step at one of RecvByte's timed waits is its poll or sample at the end of that wait. -/
theorem step_at_sample {s : State} (hv : s.cfg.valid = true) (hl : s.seq.listening = true) (hr : s.loc.rx ≠ .hunt)
    (hu : s.UndisturbedUntil (max s.loc.due s.now)) :
    step s = runTurn (recvTurn (advanceTo (max s.loc.due s.now) s)) := by
  have hq : s.recvDue = some (max s.loc.due s.now) := by
    unfold State.recvDue
    split
    · exact absurd ‹_› hr
    · rfl
  exact step_listening hv hl hq hu

theorem recvTurn_hunt {s : State} (h : s.loc.rx = .hunt) : recvTurn s = .done (recvSeen s) := by simp only [recvTurn, h]

theorem recvTurn_poll {s : State} (h : s.loc.rx = .poll) : recvTurn s = .done (recvPoll s) := by simp only [recvTurn, h]

theorem recvTurn_start {s : State} (h : s.loc.rx = .start) : recvTurn s = .done (recvStart s) := by simp only [recvTurn, h]

theorem recvTurn_data {s : State} {i : Fin 8} (h : s.loc.rx = .data i) : recvTurn s = .done (recvData i s) := by
  simp only [recvTurn, h]

/-- Sample 0 off the start level. -/
theorem recvTurn_glitch {s : State} (hr : s.loc.rx = .start) (hb : s.rxdAt s.now ≠ s.cfg.startLevel) :
    recvTurn s = .done (recvByte (note .transportGlitch s)) := by
  have hglitch : s.glitchNow = true := by simp [State.glitchNow, hb]
  rw [recvTurn_start hr, recvStart, if_pos hglitch]

/-- Sample 9 off the stop level. -/
theorem recvTurn_frameError {s : State} (hr : s.loc.rx = .stop) (hb : s.rxdAt s.now ≠ s.cfg.stopLevel) :
    recvTurn s = .done (recvFrameError s) := by
  have herror : s.frameErrorNow = true := by simp [State.frameErrorNow, hb]
  simp only [recvTurn, hr, herror, if_true]

/-- Settles O36: undisturbed, the step is RecvByte's sample, and a wrong level there ends its turn. -/
theorem glitchesAndFrameErrorsAreDiscarded : Obligations.GlitchesAndFrameErrorsAreDiscarded := by
  intro s hv hl hu
  refine ⟨fun hr hb => ?_, fun hr hb => ?_⟩
  · rw [step_at_sample hv hl (by simp [hr]) hu, recvTurn_glitch (s := advanceTo _ s) hr hb]
    rfl
  · rw [step_at_sample hv hl (by simp [hr]) hu, recvTurn_frameError (s := advanceTo _ s) hr hb]
    rfl

/-- Settles O37: eight shifts put data bit `i` at place `i`, each shift moving every bit one place down. -/
theorem eightSamplesGiveTheByteLeastSignificantFirst : Obligations.EightSamplesGiveTheByteLeastSignificantFirst := by
  intro c v r
  refine ⟨shiftIn_frame c v r, fun b i => ⟨fun hi => ?_, ?_⟩⟩
  · rw [getLsbD_shiftIn, if_neg (by omega)]
  · rw [getLsbD_shiftIn, if_pos rfl]

theorem resetGuard_keeps_received (s : State) : (resetGuard s).hist = s.hist ∧ (resetGuard s).rxsr = s.rxsr := by
  unfold resetGuard
  split
  · exact ⟨rfl, rfl⟩
  · exact ⟨rfl, rfl⟩

/-- Outside RecvByte the sequencer's turn takes no byte. -/
theorem seqTurn_deaf {s t : State} (hl : s.seq.listening = false) (hp : s.seq ≠ .app ∧ s.seq ≠ .spin)
    (h : runTurn (seqTurn s) = .next t) : t.hist.got = s.hist.got ∧ t.rxsr = s.rxsr := by
  have command {i : Instr} {u : State} (hx : exec i u = .next t) : t.hist.got = u.hist.got ∧ t.rxsr = u.rxsr := by
    obtain ⟨-, -, hrxsr, -, -, -, hgot, -⟩ := exec_keeps hx
    exact ⟨hgot, hrxsr⟩
  have hidle : s.seq ≠ .idle := fun hs => by simp [hs, Seq.listening] at hl
  obtain ⟨-, rfl⟩ | ⟨-, -, rfl⟩ | ⟨-, -, hx⟩ | ⟨p, -, hx⟩ | ⟨hlis, -⟩ | ⟨hs, -⟩ | ⟨hlis, -⟩ := seqTurn_next hp h
  · obtain ⟨hhist, hrxsr⟩ := resetGuard_keeps_received s
    exact ⟨congrArg History.got hhist, hrxsr⟩
  · exact ⟨rfl, rfl⟩
  · exact command (u := sendDone s) hx
  · exact command hx
  · exact absurd hlis (by simp [hl])
  · exact absurd hs hidle
  · exact absurd hlis (by simp [hl])

/-- Settles O41, agent by agent: only RecvByte's own turn takes a byte or shifts. -/
theorem deafOutsideRecvByte : Obligations.DeafOutsideRecvByte := by
  intro s t hl hstep hg
  obtain ⟨-, ⟨q, -, rfl⟩ | ⟨q, -, rfl⟩ | ⟨q, -, hp, hx⟩ | ⟨-, rfl⟩⟩ := step_next_cases hstep
  · exact absurd (resetAt_seq q s) hg
  · obtain ⟨-, hhist, -, -, -, -, hrxsr, -⟩ := engineComplete_keeps (advanceTo q s)
    exact ⟨congrArg History.got hhist, hrxsr⟩
  · exact seqTurn_deaf (s := advanceTo q s) hl hp hx
  · exact ⟨rfl, rfl⟩

/-! A whole frame, sample by sample, with SLACK_MAX = 0 (R112). -/

/-- RecvByte, in its outer wait in `s`, is in `t` in the timed wait `rx` since tick `n` and until tick `d`. -/
structure Awaiting (s t : State) (n d T : Nat) (rx : RxPhase) : Prop where
  along : Along s t n T
  rx : t.loc.rx = rx
  due : t.loc.due = d
  order : n ≤ d

/-- RecvByte before sample `i + 1` of a frame: data bit `i`, and after the eight data bits the stop bit (R107). -/
def dataPhase (i : Nat) : RxPhase := if h : i < 8 then .data ⟨i, h⟩ else .stop

theorem recvData_rx (i : Fin 8) (s : State) : (recvData i s).loc.rx = dataPhase (i + 1) := by
  unfold recvData dataPhase
  by_cases h : i.val < 7
  · simp [h]
  · simp [h, Nat.le_of_not_lt h]

/-- RXSR after the first `i` data bits of the frame for `v` have been shifted into `r`. -/
def shiftedBits (c : Cfg) (v r : Byte) (i : Nat) : Byte :=
  (List.range i).foldl (fun acc j => shiftIn (frameLevel c v (j + 1)) acc) r

theorem shiftedBits_succ (c : Cfg) (v r : Byte) (i : Nat) :
    shiftedBits c v r (i + 1) = shiftIn (frameLevel c v (i + 1)) (shiftedBits c v r i) := by
  simp [shiftedBits, List.range_succ]

section
variable {s t : State} {n d T : Nat} (hv : s.cfg.valid = true) (hideal : idealTiming s.cfg) (hl : s.seq.listening = true)

/-- What the transceiver alone has done leaves the line as it is. -/
theorem Along.rxdAt_eq (h : Along s t n T) (x : Nat) : t.rxdAt x = s.rxdAt x := by
  simp only [State.rxdAt, h.cfg, h.rxd]

/-- Time passes up to the end of a timed wait. -/
theorem Awaiting.at_due {rx : RxPhase} (h : Awaiting s t n d T rx) (hT : d ≤ T) : Along s (advanceTo d t) d T :=
  h.along.advance h.order hT

include hv hl in
/-- The step at the end of a timed wait is RecvByte's poll or sample there. -/
theorem Awaiting.step_at_due {rx : RxPhase} (h : Awaiting s t n d T rx) (hrx : rx ≠ .hunt) (hT : d ≤ T) :
    step t = runTurn (recvTurn (advanceTo d t)) := by
  have hmax : max t.loc.due t.now = d := by
    rw [h.due, h.along.now]
    exact max_eq_left h.order
  have hu : t.UndisturbedUntil (max t.loc.due t.now) := by
    rw [hmax]
    exact undisturbed_mono h.along.free hT
  rw [step_at_sample (by rw [h.along.cfg]; exact hv) (by rw [h.along.seq]; exact hl) (by rw [h.rx]; exact hrx) hu, hmax]

include hideal in
/-- A Delay that RecvByte begins at tick `d` is awaited `m` ticks. -/
theorem Awaiting.delay {u : State} (m : Nat) (h : Along s u d T) : Awaiting s (delay m u) d (d + m) T u.loc.rx :=
  ⟨h.update rfl rfl rfl, rfl, by rw [delay_due_ideal (by rw [h.cfg]; exact hideal), h.now], Nat.le_add_right d m⟩

include hv hideal hl

/-- The outer wait ends when the line first shows the start level. -/
theorem step_hunt {ts : Nat} (hrx : s.loc.rx = .hunt) (hts : s.now ≤ ts) (hidle : s.IdleOnLine s.now ts)
    (hstart : s.rxdAt ts = s.cfg.startLevel) (hT : ts ≤ T) (hu : s.UndisturbedUntil T) :
    ∃ u, step s = .next u ∧ Awaiting s u ts ts T .poll := by
  obtain ⟨-, -, -, -, -, -, hlevels, -⟩ := cfg_facts hv
  have hq : s.recvDue = some ts := by
    simp only [State.recvDue, hrx]
    exact firstAt_eq _ hts hstart fun x h1 h2 => (hidle x h1 h2).trans_ne hlevels.symm
  refine ⟨recvSeen (advanceTo ts s), ?_, ((Along.refl hu).advance hts hT).update rfl rfl rfl, rfl, ?_, le_rfl⟩
  · rw [step_listening hv hl hq (undisturbed_mono hu hT), recvTurn_hunt (s := advanceTo ts s) hrx]
    rfl
  · have hslack : (advanceTo ts s).nextSlack = 0 := nextSlack_ideal hideal
    simp [hslack]

/-- The poll at the start level begins the half bit period. -/
theorem Awaiting.step_poll (h : Awaiting s t n d T .poll) (hT : d ≤ T) (hb : s.rxdAt d = s.cfg.startLevel) :
    ∃ u, step t = .next u ∧ Awaiting s u d (d + s.cfg.halfBitTicks) T .start := by
  have hlevel : (advanceTo d t).rxdAt (advanceTo d t).now = (advanceTo d t).cfg.startLevel := by
    rw [(h.at_due hT).rxdAt_eq]
    simpa [h.along.cfg] using hb
  refine ⟨recvPoll (advanceTo d t), ?_, ?_⟩
  · rw [h.step_at_due hv hl nofun hT, recvTurn_poll (s := advanceTo d t) h.rx]
    rfl
  · rw [recvPoll, if_pos hlevel, ← h.along.cfg]
    exact .delay hideal _ ((h.at_due hT).update rfl rfl rfl)

/-- Sample 0 at the start level begins the data bits. -/
theorem Awaiting.step_start (h : Awaiting s t n d T .start) (hT : d ≤ T) (hb : s.rxdAt d = s.cfg.startLevel) :
    ∃ u, step t = .next u ∧ Awaiting s u d (d + s.cfg.bitTicks) T (.data 0) := by
  have hgood : (advanceTo d t).glitchNow ≠ true := by
    rw [State.glitchNow, (h.at_due hT).rxdAt_eq]
    simpa [h.along.cfg] using hb
  refine ⟨recvStart (advanceTo d t), ?_, ?_⟩
  · rw [h.step_at_due hv hl nofun hT, recvTurn_start (s := advanceTo d t) h.rx]
    rfl
  · rw [recvStart, if_neg hgood, ← h.along.cfg]
    exact .delay hideal _ ((h.at_due hT).update rfl rfl rfl)

/-- A data sample is shifted into RXSR, and the next bit is awaited. -/
theorem Awaiting.step_data {i : Fin 8} (h : Awaiting s t n d T (.data i)) (hT : d ≤ T) :
    ∃ u, step t = .next u ∧ Awaiting s u d (d + s.cfg.bitTicks) T (dataPhase (i + 1)) ∧
      u.rxsr = shiftIn (s.rxdAt d) t.rxsr := by
  refine ⟨recvData i (advanceTo d t), ?_, ?_, ?_⟩
  · rw [h.step_at_due hv hl nofun hT, recvTurn_data (s := advanceTo d t) h.rx]
    rfl
  · rw [← recvData_rx i (advanceTo d t), ← h.along.cfg]
    exact .delay hideal _ ((h.at_due hT).update rfl rfl rfl)
  · simp [(h.at_due hT).rxdAt_eq]

end

/-- The tick of RecvByte's sample `k` of a frame that begins at tick `ts` (R111). -/
def sampleTick (c : Cfg) (ts k : Nat) : Nat := ts + c.halfBitTicks + k * c.bitTicks

theorem sampleTick_zero (c : Cfg) (ts : Nat) : sampleTick c ts 0 = ts + c.halfBitTicks := by simp [sampleTick]

theorem sampleTick_succ (c : Cfg) (ts k : Nat) : sampleTick c ts (k + 1) = sampleTick c ts k + c.bitTicks := by
  simp only [sampleTick]
  ring

theorem sampleTick_mono (c : Cfg) (ts : Nat) {j k : Nat} (h : j ≤ k) : sampleTick c ts j ≤ sampleTick c ts k :=
  Nat.add_le_add_left (Nat.mul_le_mul_right _ h) _

/-- R112's sampling inequalities: every sample falls into its own bit period of the frame. -/
def samplingMeets (c : Cfg) (p : Nat) : Prop :=
  ∀ k, k < 10 → k * p ≤ c.halfBitTicks + k * c.bitTicks ∧ c.halfBitTicks + k * c.bitTicks < (k + 1) * p

section
variable {s : State} {ts p T : Nat} {v : Byte} (hf : s.FrameOnLine ts p v) (hm : samplingMeets s.cfg p)
include hf hm

/-- Sample `k` sees level `k` of the frame. -/
theorem rxdAt_sampleTick {k : Nat} (hk : k < 10) : s.rxdAt (sampleTick s.cfg ts k) = frameLevel s.cfg v k := by
  obtain ⟨h1, h2⟩ := hm k hk
  exact hf k hk _ (by rw [sampleTick]; omega) (by rw [sampleTick]; omega)

/-- The line is at the start level from the beginning of the frame. -/
theorem rxdAt_frame_start : s.rxdAt ts = s.cfg.startLevel := by
  obtain ⟨-, h2⟩ := hm 0 (by omega)
  exact hf 0 (by omega) ts (by omega) (by omega)

variable (hv : s.cfg.valid = true) (hideal : idealTiming s.cfg) (hl : s.seq.listening = true)
  (hT : sampleTick s.cfg ts 9 ≤ T)
include hv hideal hl hT

/-- Three steps from the outer wait RecvByte awaits the first data bit. -/
theorem run_to_first_bit (hrx : s.loc.rx = .hunt) (hts : s.now ≤ ts) (hidle : s.IdleOnLine s.now ts)
    (hu : s.UndisturbedUntil T) :
    ∃ t, Host.Core.run core 3 s = .next t ∧
      Awaiting s t (sampleTick s.cfg ts 0) (sampleTick s.cfg ts 1) T (.data 0) := by
  have h09 : sampleTick s.cfg ts 0 ≤ sampleTick s.cfg ts 9 := sampleTick_mono s.cfg ts (Nat.zero_le 9)
  have hstart : s.rxdAt ts = s.cfg.startLevel := rxdAt_frame_start hf hm
  have hsample : s.rxdAt (ts + s.cfg.halfBitTicks) = s.cfg.startLevel := by
    rw [← sampleTick_zero, rxdAt_sampleTick hf hm (by omega)]
    rfl
  rw [sampleTick_succ, sampleTick_zero]
  rw [sampleTick_zero] at h09
  obtain ⟨t1, hstep1, h1⟩ := step_hunt hv hideal hl hrx hts hidle hstart (by omega) hu
  obtain ⟨t2, hstep2, h2⟩ := h1.step_poll hv hideal hl (by omega) hstart
  obtain ⟨t3, hstep3, h3⟩ := h2.step_start hv hideal hl (by omega) hsample
  exact ⟨t3, run_snoc (run_snoc (run_snoc rfl hstep1) hstep2) hstep3, h3⟩

/-- From there each step samples one data bit. -/
theorem run_data_bits {t : State}
    (h0 : Awaiting s t (sampleTick s.cfg ts 0) (sampleTick s.cfg ts 1) T (.data 0)) {i : Nat} (hi : i ≤ 8) :
    ∃ u, Host.Core.run core i t = .next u ∧
      Awaiting s u (sampleTick s.cfg ts i) (sampleTick s.cfg ts (i + 1)) T (dataPhase i) ∧
      u.rxsr = shiftedBits s.cfg v t.rxsr i := by
  induction i with
  | zero => exact ⟨t, rfl, h0, rfl⟩
  | succ i ih =>
    obtain ⟨u, hrun, hawait, hbits⟩ := ih (by omega)
    have hphase : dataPhase i = .data ⟨i, hi⟩ := dif_pos hi
    rw [hphase] at hawait
    have hbefore : sampleTick s.cfg ts (i + 1) ≤ T := (sampleTick_mono s.cfg ts (by omega)).trans hT
    obtain ⟨u', hstep, hnext, hshift⟩ := hawait.step_data hv hideal hl hbefore
    refine ⟨u', run_snoc hrun hstep, ?_, ?_⟩
    · rw [sampleTick_succ s.cfg ts (i + 1)]
      exact hnext
    · rw [hshift, hbits, rxdAt_sampleTick hf hm (by omega), shiftedBits_succ]

end

/-- Settles O38: three steps to the first data bit, eight samples, and RecvByte stands before the stop bit. -/
theorem wellFormedFramesAreReceived : Obligations.WellFormedFramesAreReceived := by
  intro s ts p T v hv hideal hl hrx hts hidle hf hm hT hu
  obtain ⟨t, hrun3, h3⟩ := run_to_first_bit hf hm hv hideal hl hT hrx hts hidle hu
  obtain ⟨u, hrun8, h, hbits⟩ := run_data_bits hf hm hv hideal hl hT h3 le_rfl
  have hrun : Host.Core.run core 11 s = .next u := by rw [run_add 3 8 s t hrun3, hrun8]
  have hbyte : u.rxsr = v := hbits.trans (shiftIn_frame s.cfg v t.rxsr)
  have hstop : u.rxdAt u.loc.due = u.cfg.stopLevel := by
    rw [h.along.rxdAt_eq, h.due, rxdAt_sampleTick hf hm (by omega), h.along.cfg]
    rfl
  have hnow : u.now ≤ u.loc.due := by
    rw [h.along.now, h.due]
    exact h.order
  obtain ⟨hcfg, hseq, hop, hflash, hhist, hrxd, haddr, hpage, haLo, hmatch, -, hfree⟩ := h.along
  exact ⟨u, hrun, h.rx, hbyte, hseq, hop, h.due, hnow, hstop, hfree, hcfg, hrxd, hhist, hflash, haLo, hmatch, haddr, hpage⟩

end Sys2Proof.Machine
end

section
/-! The checksum (41_checksum.md R126 to R134). -/

namespace Sys2Proof.Machine

/-- A byte pair of the buffer is the word at half its place, the lower byte first (R127, R55). -/
theorem wordsOf_getElem? (buf : List Byte) : ∀ {j : Nat} {lo hi : Byte}, buf[2 * j]? = some lo → buf[2 * j + 1]? = some hi →
    (wordsOf buf)[j]? = some (le16 lo hi) := by
  induction buf using wordsOf.induct with
  | case1 a b rest ih =>
    intro j lo hi hlo hhi
    cases j with
    | zero => cases hlo; cases hhi; rfl
    | succ j => exact ih (j := j) hlo hhi
  | case2 l hl =>
    intro j lo hi _ hhi
    have hlen := (List.getElem?_eq_some_iff.1 hhi).1
    rcases l with _ | ⟨a, _ | ⟨b, l⟩⟩
    · cases hhi
    · simp at hlen
    · exact absurd rfl (hl a b l)

/-- Two words may be added in either order. -/
theorem accumulate_right_comm (acc : Acc) (v w : Half) :
    accumulate (accumulate acc v) w = accumulate (accumulate acc w) v := add_right_comm _ _ _

theorem foldl_accumulate_perm {vs ws : List Half} (h : vs.Perm ws) (acc : Acc) :
    vs.foldl accumulate acc = ws.foldl accumulate acc :=
  have : RightCommutative accumulate := ⟨accumulate_right_comm⟩
  h.foldl_eq acc

/-- Settles O43: the word at `j` is the byte pair there, and additions commute. -/
theorem accumulationAddsLittleEndianWords : Obligations.AccumulationAddsLittleEndianWords := by
  intro buf acc
  refine ⟨wordsOf_length buf, fun j lo hi hlo hhi => ?_, fun ws h => (foldl_accumulate_perm h acc).symm⟩
  exact ⟨le16 lo hi, wordsOf_getElem? buf hlo hhi, le16_toNat lo hi, accumulate_toNat acc _⟩

/-- Permuted words come from buffers of one length, where the length is even. -/
theorem length_eq_of_wordsOf_perm {b1 b2 : List Byte} (h1 : b1.length % 2 = 0) (h2 : b2.length % 2 = 0)
    (h : (wordsOf b1).Perm (wordsOf b2)) : b1.length = b2.length := by
  have hwords := h.length_eq
  rw [wordsOf_length, wordsOf_length] at hwords
  omega

/-- Settles O45: the checksum reads only the buffer's length and the accumulated words; `{01, 00}` sums to 1 and `{00, 01}` to
256. -/
theorem checksumIgnoresTheOrderOfWords : Obligations.ChecksumIgnoresTheOrderOfWords := by
  constructor
  · intro b1 b2 h1 h2 h
    rw [checksum, checksum, length_eq_of_wordsOf_perm h1 h2 h, foldl_accumulate_perm h]
  · have h10 : checksum [1, 0] = .next 1 := rfl
    have h01 : checksum [0, 1] = .next 256 := rfl
    refine ⟨1, 0, fun h => ?_⟩
    rw [h10, h01] at h
    exact absurd (Host.Outcome.next.inj h) (by decide)

/-! The fold phase: 65536 is 1 modulo 65535. -/

/-- A fold keeps the value modulo 65535 (R129). -/
theorem foldOnce_mod (acc : Acc) : (foldOnce acc).toNat % 65535 = acc.toNat % 65535 := by
  rw [foldOnce_toNat]
  omega

theorem foldOnce_lt {acc : Acc} (h : 65536 ≤ acc.toNat) : (foldOnce acc).toNat < acc.toNat := by
  rw [foldOnce_toNat]
  omega

/-- A fold makes nothing zero that was not. -/
theorem foldOnce_eq_zero_iff (acc : Acc) : (foldOnce acc).toNat = 0 ↔ acc.toNat = 0 := by
  rw [foldOnce_toNat]
  omega

theorem foldCarry_mod (fuel : Nat) (acc : Acc) : (foldCarry fuel acc).toNat % 65535 = acc.toNat % 65535 := by
  induction fuel generalizing acc with
  | zero => rfl
  | succ fuel ih =>
    rw [foldCarry_succ_toNat]
    split
    · rfl
    · exact (ih (foldOnce acc)).trans (foldOnce_mod acc)

theorem foldCarry_eq_zero_iff (fuel : Nat) (acc : Acc) : (foldCarry fuel acc).toNat = 0 ↔ acc.toNat = 0 := by
  induction fuel generalizing acc with
  | zero => rfl
  | succ fuel ih =>
    rw [foldCarry_succ_toNat]
    split
    · rfl
    · exact (ih (foldOnce acc)).trans (foldOnce_eq_zero_iff acc)

/-- The first fold leaves at most 0x1FFFE; of what then has a high half, the second leaves at most 0xFFFF (R128). -/
theorem foldCarry_two_lt (acc : Acc) : (foldCarry 2 acc).toNat < 65536 := by
  have hfirst : (foldOnce acc).toNat ≤ 0x1FFFE := by
    have := acc.isLt
    rw [foldOnce_toNat]
    omega
  rw [foldCarry_succ_toNat]
  split
  · assumption
  · rw [foldCarry_succ_toNat]
    split
    · assumption
    · rw [foldCarry, foldOnce_toNat (foldOnce acc)]
      omega

/-- Settles O46: bound, descent and residue of the fold. -/
theorem twoFoldsAreEnough : Obligations.TwoFoldsAreEnough :=
  fun acc => ⟨foldCarry_two_lt acc, foldOnce_lt, foldOnce_mod acc⟩

/-- The residue modulo 65535 in 1 to 65535, zero only of zero: the folds' closed form (R129). -/
theorem foldCarry_two_toNat (acc : Acc) :
    (foldCarry 2 acc).toNat = if acc.toNat = 0 then 0 else (acc.toNat - 1) % 65535 + 1 := by
  have hlt := foldCarry_two_lt acc
  have hmod := foldCarry_mod 2 acc
  have hzero := foldCarry_eq_zero_iff 2 acc
  split
  · exact hzero.2 ‹_›
  · omega

/-- Up to the bound of R130 the accumulator holds the exact sum of the words. -/
theorem foldl_accumulate_exact {buf : List Byte} (h : buf.length ≤ 131072) :
    ((wordsOf buf).foldl accumulate 0).toNat = ((wordsOf buf).map BitVec.toNat).sum := by
  have hsum := sum_words_le (wordsOf buf)
  rw [wordsOf_length] at hsum
  have hclear : (0 : Acc).toNat = 0 := rfl
  rw [foldl_accumulate_toNat, hclear, Nat.zero_add, Nat.mod_eq_of_lt (by omega)]

theorem checksum_odd {buf : List Byte} (h : buf.length % 2 = 1) : checksum buf = .refused .checksumOddLength :=
  if_pos (by omega)

theorem checksum_tooLong {buf : List Byte} (h : buf.length % 2 = 0) (hl : 131072 < buf.length) :
    checksum buf = .refused .checksumTooLong := by
  rw [checksum, if_neg (by omega), if_pos hl]

/-- Settles O44: the accumulator holds the exact sum, and two folds bring it to its closed form. -/
theorem checksumClosedForm : Obligations.ChecksumClosedForm := by
  refine ⟨?_, fun _ => checksum_odd, fun _ => checksum_tooLong⟩
  rintro buf _ heven hl rfl
  refine ⟨_, checksum_even heven hl, ?_, foldCarry_two_lt _⟩
  rw [foldCarry_two_toNat, foldl_accumulate_exact hl]

end Sys2Proof.Machine
end

section
/-! The flash page programmer: its operations, the engine's completions, ProgramPage's fill and commit, reads
(42_flash_programmer.md R143 to R153). -/

namespace Sys2Proof.Machine

/-! What each operation answers while the engine is busy and while it is not (R144, R146, R147, R150). -/

theorem flashErase_busy {s : State} (a : Half) (h : s.fe.busy = true) : flashErase a s = .fault .flashIssueWhileBusy :=
  if_pos h

theorem flashCommit_busy {s : State} (a : Half) (h : s.fe.busy = true) : flashCommit a s = .fault .flashIssueWhileBusy :=
  if_pos h

theorem flashReenableReads_busy {s : State} (h : s.fe.busy = true) :
    flashReenableReads s = .fault .flashIssueWhileBusy := if_pos h

theorem flashReenableReads_idle {s : State} (h : s.fe.busy = false) :
    flashReenableReads s = .next { s with readEn := true } := if_neg (by simp [h])

theorem flashFill_busy {s : State} {o : Nat} (w : Half) (ho : o % 2 = 0) (hp : o + 2 ≤ s.cfg.pageSize)
    (h : s.fe.busy = true) : flashFill o w s = .fault .flashIssueWhileBusy := by
  rw [flashFill, if_neg (by omega), if_pos h]

theorem flashFill_badOffset {s : State} {o : Nat} (w : Half) (h : o % 2 = 1 ∨ s.cfg.pageSize < o + 2) :
    flashFill o w s = .refused .fillOffset := if_pos (by omega)

/-- A commit that is issued takes FTB as its snapshot and notes whether its page is erased (R147, R148). -/
theorem flashCommit_next {a : Half} {s t : State} (h : flashCommit a s = .next t) :
    t.fe = .writing (s.pageOf a) s.ftb (s.pageErased (s.pageOf a)) ∧ t.readEn = false ∧ t.flash = s.flash ∧
    t.cfg = s.cfg := by
  unfold flashCommit at h
  split at h
  · cases h
  · cases h
    exact ⟨rfl, rfl, rfl, rfl⟩

/-! The engine's completions. -/

theorem engineComplete_erasing {s : State} {p : Nat} (h : s.fe = .erasing p) :
    (engineComplete s).flash = flashWrite s.flash (s.pageBase p) (List.replicate s.cfg.pageSize s.cfg.erasedByte) ∧
    (engineComplete s).fe = .idle ∧ (engineComplete s).readEn = s.readEn := by
  simp only [engineComplete, h, and_self]

theorem engineComplete_writing {s : State} {p : Nat} {snapshot : List Byte} {clean : Bool}
    (h : s.fe = .writing p snapshot clean) :
    (engineComplete s).flash = flashWrite s.flash (s.pageBase p)
      (if clean then snapshot else freeBytes (s.draws + 1) s.cfg.pageSize) ∧
    (engineComplete s).fe = .idle ∧ (engineComplete s).readEn = s.readEn := by
  simp only [engineComplete, h, and_self]

/-- Settles O47: the completion writes one page of ERASED_BYTE at the page's base. -/
theorem eraseCompletionErasesThePage : Obligations.EraseCompletionErasesThePage := by
  intro s p hfe
  obtain ⟨hflash, hidle, hread⟩ := engineComplete_erasing hfe
  refine ⟨fun i hi => ?_, fun a ha => ?_, hidle, hread⟩
  · have hin : i < (List.replicate s.cfg.pageSize s.cfg.erasedByte).length := by rwa [List.length_replicate]
    rw [hflash, State.pageBase, flashGet_flashWrite_inside _ _ _ _ hin, List.getElem?_replicate_of_lt hi]
  · rw [hflash, State.pageBase, flashGet_flashWrite_outside]
    rwa [List.length_replicate]

/-- Settles O48: the completion writes the snapshot, or as many free bytes, at the page's base. -/
theorem commitCompletionProgramsTheSnapshot : Obligations.CommitCompletionProgramsTheSnapshot := by
  intro s t a hftb hcommit
  obtain ⟨hfe, hdisabled, hkept, hcfg⟩ := flashCommit_next hcommit
  obtain ⟨hflash, hidle, hread⟩ := engineComplete_writing hfe
  rw [State.pageBase, hkept, hcfg] at hflash
  refine ⟨hkept, fun hclean i hi => ?_, fun hdirty i hi => ?_, fun x hx => ?_, hidle, hread.trans hdisabled⟩
  · rw [hflash, if_pos hclean]
    exact flashGet_flashWrite_inside _ _ _ _ (hi.trans_eq hftb.symm)
  · rw [hflash, if_neg (Bool.eq_false_iff.1 hdirty), ← freeBytes_getElem? _ hi]
    exact flashGet_flashWrite_inside _ _ _ _ (hi.trans_eq (freeBytes_length _ _).symm)
  · rw [hflash]
    refine flashGet_flashWrite_outside _ _ _ _ ?_
    rwa [apply_ite List.length, freeBytes_length, hftb, ite_self]

/-- Settles O49, operation by operation. -/
theorem flashOperationsAsIssued : Obligations.FlashOperationsAsIssued := by
  refine ⟨fun s a w o hb => ?_, fun s w o => flashFill_badOffset w, fun s w o hb hftb ho hp => ?_, fun s hb => ?_⟩
  · exact ⟨flashErase_busy a hb, flashCommit_busy a hb, flashReenableReads_busy hb, fun ho hp => flashFill_busy w ho hp hb⟩
  · refine ⟨_, flashFill_eq hb ho hp, ?_, ?_, fun j hlo hhi => ?_, rfl⟩
    · rw [List.getElem?_set_ne (by omega), List.getElem?_set_self (by omega)]
    · rw [List.getElem?_set_self (by rw [List.length_set]; omega)]
    · rw [List.getElem?_set_ne (Ne.symm hhi), List.getElem?_set_ne (Ne.symm hlo)]
  · exact ⟨_, flashReenableReads_idle hb, rfl, rfl⟩

/-- Settles O23: a poll while busy answers the state itself, and after the erase PAGE_SIZE, being even, lets the fill cover all
of FTB before the commit. -/
theorem writePageFillsAndCommits : Obligations.WritePageFillsAndCommits := by
  intro s hv hpb hftb
  obtain ⟨heven, -⟩ := cfg_facts hv
  constructor
  · intro p hs hb
    rw [exec_writePage_wProg hs, writePageProgram_busy p hb]
  · intro hs hb
    exact ⟨_, (exec_writePage_wProg hs).trans (writePageProgram_erased hpb heven hftb hb), rfl, rfl, rfl, rfl, rfl, rfl, rfl,
      rfl, rfl⟩

/-! Reads (R152). -/

theorem flashLoad_readable {s : State} {a : Nat} {b : Byte} (hb : flashGet s.flash a = some b) (hr : s.readEn = true)
    (hi : s.fe = .idle) : s.flashLoad a = b := by
  rw [State.flashLoad, if_pos (by simp [hr, busy_eq_false.2 hi]), hb, Option.getD_some]

theorem flashLoad_unreadable {s : State} (a : Nat) (h : s.readEn = false ∨ s.fe.busy = true) :
    s.flashLoad a = Config.unreadableByte s.draws a := by
  rw [State.flashLoad, if_neg]
  rcases h with h | h
  · simp [h]
  · simp [h]

/-- Settles O51: both cases of a byte's read, and the two bytes of a value, the lower address first. -/
theorem flashReadsNeedReadEnable : Obligations.FlashReadsNeedReadEnable :=
  fun _ a _ hb => ⟨flashLoad_readable hb, flashLoad_unreadable a, rfl⟩

end Sys2Proof.Machine
end

section
/-! Resets and the reset-cause flags (43_reset_guard_watchdog.md R168, R170, R178; 10_state.md R33): what a step that is the
watchdog's expiry does, and what every other step does to the flags. -/

namespace Sys2Proof.Machine

/-! The watchdog's expiry (R170, R218). -/

/-- A reset that is due no later than anything else is the step. -/
theorem step_of_reset {s : State} {q : Nat} (hv : s.cfg.valid = true) (hr : earlier s.envDue s.wdtDue = some q)
    (he : ∀ e, s.engineDue = some e → q ≤ e) (hs : ∀ x, s.seqDue = some x → q ≤ x) : step s = .next (resetAt q s) := by
  rw [step_eq, turn, if_pos hv, nextAgent_of_reset hr he hs]
  rfl

/-- Outside S_GUARD an armed watchdog expires when what is left of its timeout has passed. -/
theorem wdtDue_armed {s : State} (hg : s.seq ≠ .guard) (hen : s.wd.en = true) :
    s.wdtDue = some (s.now + (wdtTicks s.cfg s.wd.period - s.wd.cnt)) := by
  rw [State.wdtDue, if_neg hg, if_pos hen]

theorem wdtDue_disabled {s : State} (hen : s.wd.en = false) : s.wdtDue = none := by
  simp [State.wdtDue, hen]

theorem envDue_of_no_resets {s : State} (h : s.inp.resets = []) : s.envDue = none := by simp [State.envDue, h]

/-- An instant before which nothing else is due is the earlier one. -/
theorem earlier_eq_right {a : Option Nat} {q : Nat} (h : ∀ w, a = some w → q < w) : earlier a (some q) = some q := by
  cases a with
  | none => rfl
  | some w => exact congrArg some (Nat.min_eq_right (h w rfl).le)

/-- An expiry before the environment's next reset has the watchdog as its one cause. -/
theorem causesAt_expiry {s : State} {q : Nat} (hw : s.wdtDue = some q) (he : s.envDue ≠ some q) :
    s.causesAt q = ResetFlags.watchdog := by
  rw [State.causesAt, if_neg he, if_pos hw]
  rfl

/-- The watchdog's cause sets RC.WDT and leaves the other flags as they are (60_exceptions.md R221(a)). -/
theorem latch_watchdog (rc : ResetFlags) : rc.latch ResetFlags.watchdog = { rc with wdt := true } := by
  simp [ResetFlags.latch, ResetFlags.union, ResetFlags.watchdog]

theorem resetAt_rc (q : Nat) (s : State) : (resetAt q s).rc = s.rc.latch (s.causesAt q) := rfl

/-! Steps that are no reset (R178, R33). -/

theorem Seq.listening_ne_guard {p : Seq} (h : p.listening = true) : p ≠ .guard := by
  rintro rfl
  cases h

theorem exec_ne_guard_keeps_rc {i : Instr} {s t : State} (h : exec i s = .next t) : t.seq ≠ .guard ∧ t.rc = s.rc := by
  obtain ⟨-, -, -, -, hrc, -⟩ := exec_keeps h
  exact ⟨(exec_seq_ne h).1, hrc⟩

/-- The sequencer's turn is ResetGuard, or it does not go to S_GUARD and keeps the flags. -/
theorem seqTurn_resetGuard_or_keeps_rc {s t : State} (hp : s.seq ≠ .app ∧ s.seq ≠ .spin)
    (h : runTurn (seqTurn s) = .next t) :
    (s.seq = .guard ∧ t = resetGuard s) ∨ (t.seq ≠ .guard ∧ t.rc = s.rc) := by
  obtain hguard | ⟨hs, -, rfl⟩ | ⟨-, -, hx⟩ | ⟨p, -, hx⟩ | ⟨hl, hr⟩ | ⟨-, hx⟩ | ⟨-, -, hx⟩ := seqTurn_next hp h
  · exact .inl hguard
  · exact .inr ⟨by simp [hs], rfl⟩
  · exact .inr (exec_ne_guard_keeps_rc (s := sendDone s) hx)
  · exact .inr (exec_ne_guard_keeps_rc hx)
  · have hne := Seq.listening_ne_guard hl
    right
    obtain rfl | rfl | rfl | ⟨i, rfl⟩ | rfl := hr
    · exact ⟨hne, rfl⟩
    · obtain ⟨hseq, -, hrc, -⟩ := recvPoll_keeps_most s
      exact ⟨hseq ▸ hne, hrc⟩
    · obtain ⟨hseq, -, -, hrc, -⟩ := recvStart_keeps_most s
      exact ⟨hseq ▸ hne, hrc⟩
    · exact ⟨hne, rfl⟩
    · exact ⟨hne, rfl⟩
  · exact .inr (exec_ne_guard_keeps_rc (s := { recvDone s with op := s.rxsr }) hx)
  · exact .inr (exec_ne_guard_keeps_rc (s := recvDone s) hx)

/-- The flags `b` are those of `a`, but that RC.EXT and RC.WDT may have been cleared. -/
def ResetFlags.ClearedFrom (a b : ResetFlags) : Prop :=
  b.por = a.por ∧ b.bor = a.bor ∧ (b.ext = true → a.ext = true) ∧ (b.wdt = true → a.wdt = true)

theorem ResetFlags.ClearedFrom.of_eq {a b : ResetFlags} (h : b = a) : a.ClearedFrom b := by
  subst h
  exact ⟨rfl, rfl, id, id⟩

/-- ResetGuard clears RC.EXT on the one path and RC.WDT on the other (43 R176, R177). -/
theorem resetGuard_clears (s : State) : s.rc.ClearedFrom (resetGuard s).rc := by
  unfold resetGuard
  split
  · exact ⟨rfl, rfl, nofun, id⟩
  · exact ⟨rfl, rfl, id, nofun⟩

/-- Settles O54: nothing else being due before it, the expiry is the step, and its one cause is latched; with the watchdog
disabled and no reset from outside no reset is due, and the other agents do not go to S_GUARD. -/
theorem watchdogExpiryResetsTheDevice : Obligations.WatchdogExpiryResetsTheDevice := by
  constructor
  · intro s hv hg hen henv heng hseq
    have hw := wdtDue_armed hg hen
    have hstep := step_of_reset hv ((congrArg (earlier s.envDue) hw).trans (earlier_eq_right henv)) heng hseq
    refine ⟨_, hstep, resetAt_seq _ s, rfl, ?_, rfl⟩
    rw [resetAt_rc, causesAt_expiry hw fun he => (henv _ he).false, latch_watchdog]
  · intro s t hg hen hres hstep
    obtain ⟨-, ⟨q, hn, -⟩ | ⟨q, -, rfl⟩ | ⟨q, -, hp, hx⟩ | ⟨-, rfl⟩⟩ := step_next_cases hstep
    · obtain ⟨-, hr, -⟩ | ⟨ha, -⟩ | ⟨ha, -⟩ := nextAgent_cases hn
      · rw [envDue_of_no_resets hres, wdtDue_disabled hen] at hr
        cases hr
      · cases ha
      · cases ha
    · obtain ⟨hseq, -⟩ := engineComplete_keeps (advanceTo q s)
      exact hseq ▸ hg
    · obtain ⟨hs, -⟩ | ⟨hne, -⟩ := seqTurn_resetGuard_or_keeps_rc (s := advanceTo q s) hp hx
      · exact absurd hs hg
      · exact hne
    · exact hg

/-- Settles O58: of the agents other than a reset, only the sequencer's ResetGuard changes a flag, and it clears RC.EXT or
RC.WDT. -/
theorem onlyResetsSetCauseFlags : Obligations.OnlyResetsSetCauseFlags := by
  intro s t hstep hg
  suffices h : s.rc.ClearedFrom t.rc from h
  obtain ⟨-, ⟨q, -, rfl⟩ | ⟨q, -, rfl⟩ | ⟨q, -, hp, hx⟩ | ⟨-, rfl⟩⟩ := step_next_cases hstep
  · exact absurd (resetAt_seq q s) hg
  · obtain ⟨-, -, hrc, -⟩ := engineComplete_keeps (advanceTo q s)
    exact .of_eq hrc
  · obtain ⟨-, rfl⟩ | ⟨-, hrc⟩ := seqTurn_resetGuard_or_keeps_rc (s := advanceTo q s) hp hx
    · exact resetGuard_clears (advanceTo q s)
    · exact .of_eq hrc
  · exact .of_eq rfl

end Sys2Proof.Machine
end

section
/-! Where RecvByte of S_IDLE returns, the step runs the command of the byte (44_command_dispatcher.md R191; log 6). -/

namespace Sys2Proof.Machine

/-- RecvByte at a good stop sample returns. -/
theorem recvTurn_stop {s : State} (hr : s.loc.rx = .stop) (hb : s.rxdAt s.now = s.cfg.stopLevel) :
    recvTurn s = received s := by
  have hgood : s.frameErrorNow = false := by simp [State.frameErrorNow, hb]
  simp [recvTurn, hr, hgood]

/-- A byte received in S_IDLE is the next command's opcode. -/
theorem seqTurn_opcode_byte {s : State} (hs : s.seq = .idle) (hr : s.loc.rx = .stop)
    (hb : s.rxdAt s.now = s.cfg.stopLevel) :
    seqTurn s = .command (decodeOpcode s.rxsr) { recvDone s with op := s.rxsr } := by
  have hl : s.seq.listening = true := by rw [hs]; rfl
  rw [seqTurn_listening hl, recvTurn_stop hr hb, received, if_pos hs]

/-- Settles O9: undisturbed, the step is RecvByte's good stop sample, and in S_IDLE that dispatches the byte. -/
theorem stepRunsTheDecodedCommand : Obligations.StepRunsTheDecodedCommand := by
  intro s hv hs hr hu hb
  have hl : s.seq.listening = true := by rw [hs]; rfl
  rw [step_at_sample hv hl (by simp [hr]) hu, ← seqTurn_listening (s := advanceTo _ s) hl,
    seqTurn_opcode_byte (s := advanceTo _ s) hs hr hb]
  rfl

/-! The state that `withCommandBytes` prepares: nothing but the stop sample is due in its tick. -/

/-- Entering the loop makes no difference to what a command finds. -/
theorem inLoop_keeps (s : State) :
    s.inLoop.cfg = s.cfg ∧ s.inLoop.flash = s.flash ∧ s.inLoop.ar = s.ar ∧ s.inLoop.arWritten = s.arWritten ∧
    s.inLoop.fe = s.fe := by
  unfold State.inLoop
  split <;> exact ⟨rfl, rfl, rfl, rfl, rfl⟩

theorem wdtTicks_pos {c : Cfg} (h : c.valid = true) (p : WdtPeriod) : 0 < wdtTicks c p := by
  obtain ⟨-, -, -, -, hshort, hmedium, -⟩ := cfg_facts h
  cases p
  · exact hshort
  · exact hmedium

theorem halfBitTicks_lt {c : Cfg} (h : c.valid = true) : c.halfBitTicks < c.bitTicks := by
  simp only [Cfg.valid, Bool.and_eq_true, decide_eq_true_eq] at h
  omega

/-- Resets due at once are removed, the watchdog's count is zero and a completion is at least one tick off. -/
theorem withCommandBytes_undisturbed {s : State} (bytes : List Byte) (hv : s.cfg.valid = true) :
    (s.withCommandBytes bytes).UndisturbedUntil (s.withCommandBytes bytes).now := by
  have hcfg : s.inLoop.cfg.valid = true := by
    obtain ⟨hcfg, -⟩ := inLoop_keeps s
    rwa [hcfg]
  have hpos := wdtTicks_pos hcfg s.inLoop.wd.period
  rw [undisturbed_iff]
  refine ⟨fun w hw => ?_, fun w hw => ?_, fun w hw => ?_⟩
  · obtain ⟨e, he, rfl⟩ := Option.map_eq_some_iff.1 hw
    have hlater := (List.mem_filter.1 (List.mem_of_mem_head? he)).2
    exact lt_max_of_lt_left (of_decide_eq_true hlater)
  · obtain ⟨-, hw⟩ : s.inLoop.wd.en = true ∧ s.inLoop.now + (wdtTicks s.inLoop.cfg s.inLoop.wd.period - 0) = w := by
      simpa [State.withCommandBytes, State.wdtDue] using hw
    show s.inLoop.now < w
    omega
  · obtain ⟨hb, hw⟩ : s.inLoop.fe.busy = true ∧
        max (if s.inLoop.fe.busy then max s.inLoop.feDue (s.inLoop.now + 1) else s.inLoop.feDue) s.inLoop.now = w := by
      simpa [State.withCommandBytes, State.engineDue] using hw
    rw [if_pos hb] at hw
    show s.inLoop.now < w
    omega

theorem levelAt_zero_cons (cur b : Bool) (r : List (Nat × Bool)) (t : Nat) :
    levelAt cur ((0, b) :: r) t = levelAt b r t := if_pos (Nat.zero_le t)

/-- The body's frames begin half a bit period later: the stop sample finds the line idle. -/
theorem withCommandBytes_line {s : State} (bytes : List Byte) (hv : s.cfg.valid = true) :
    (s.withCommandBytes bytes).rxdAt (s.withCommandBytes bytes).now = (s.withCommandBytes bytes).cfg.stopLevel := by
  obtain ⟨hcfg, -⟩ := inLoop_keeps s
  have hhalf := halfBitTicks_lt hv
  have hlater : s.inLoop.now < s.inLoop.now + (s.inLoop.cfg.bitTicks - s.inLoop.cfg.halfBitTicks) := by
    rw [hcfg]
    omega
  exact (levelAt_zero_cons _ _ _ _).trans (levelAt_before (framesFrom_before _ _ (bytes.drop 1) _ hlater))

/-- The prepared state meets the premises of `stepRunsTheDecodedCommand`, its stop sample being due now. -/
theorem step_withCommandBytes {s : State} (bytes : List Byte) (hv : s.cfg.valid = true) :
    step (s.withCommandBytes bytes) = exec (decodeOpcode (bytes.headD 0))
      { recvDone (advanceTo (s.withCommandBytes bytes).now (s.withCommandBytes bytes)) with op := bytes.headD 0 } := by
  obtain ⟨hcfg, -⟩ := inLoop_keeps s
  have hcfg : (s.withCommandBytes bytes).cfg = s.cfg := hcfg
  have hdue : max (s.withCommandBytes bytes).loc.due (s.withCommandBytes bytes).now = (s.withCommandBytes bytes).now :=
    max_self _
  have hstep := stepRunsTheDecodedCommand (s.withCommandBytes bytes)
  rw [hcfg, hdue] at hstep
  exact hstep hv rfl rfl (withCommandBytes_undisturbed bytes hv) (hcfg ▸ withCommandBytes_line bytes hv)

/-- The bytes on the line begin with the word's first. -/
theorem commandBytes_head (c : Cfg) (nbits w : Nat) : (commandBytes c nbits w).headD 0 = byteOf w 0 := by
  obtain ⟨n, hn⟩ : ∃ n, max (nbits / 8) (1 + (decodeOpcode (byteOf w 0)).bodyLength c) = n + 1 :=
    Nat.exists_eq_succ_of_ne_zero (by omega)
  rw [commandBytes, hn, List.range_succ_eq_map]
  rfl

/-- Settles O11: the next step runs the word's first byte at the prepared state, which differs from `s` in nothing the
statement names. -/
theorem fetchWordIsRunByTheNextStep : Obligations.FetchWordIsRunByTheNextStep := by
  intro s nbits w hv
  obtain ⟨hcfg, hflash, har, hwritten, hfe⟩ := inLoop_keeps s
  have hstep := step_withCommandBytes (commandBytes s.cfg nbits w) hv
  rw [commandBytes_head] at hstep
  exact ⟨_, hstep, rfl, rfl, hflash, har, hwritten, hcfg, hfe⟩

end Sys2Proof.Machine
end

section
/-! What the commands' actions do, position by position (44_command_dispatcher.md R191 to R209). -/

namespace Sys2Proof.Machine

/-! IDENTIFY (R195). -/

/-- Settles O12: the dispatch and the first two bytes each answer the state that listens for the next byte. -/
theorem identifyReadsAllItsBytes : Obligations.IdentifyReadsAllItsBytes := fun _ =>
  ⟨fun hs => ⟨_, exec_identify_idle hs, rfl, rfl, rfl⟩, fun hs => ⟨_, exec_identify_ident hs, rfl, rfl, rfl⟩,
    fun hs => ⟨_, exec_identify_ident hs, rfl, rfl, rfl⟩⟩

/-- Whether the signature bytes up to the third, which stands in RXSR, all match. -/
def State.signatureMatches (s : State) : Bool := s.loc.idMatch && s.rxsr == s.cfg.sig2

/-- The trace after the third signature byte. -/
def State.traceAfterSignature (s : State) : List Label :=
  if s.signatureMatches then s.hist.trace else s.hist.trace ++ [.signatureMismatch]

/-- The third byte begins the reply, matching or not; only the flag and the trace depend on the comparison. -/
theorem identifyByte_two_eq_acknowledge (s : State) :
    identifyByte 2 s = acknowledge s.signatureMatches { s with
      loc := { s.loc with idMatch := s.signatureMatches }
      hist := { s.hist with trace := s.traceAfterSignature } } := by
  unfold State.traceAfterSignature State.signatureMatches
  rw [identifyByte_two]
  cases s.loc.idMatch && s.rxsr == s.cfg.sig2
  · rfl
  · rfl

/-- Settles O13: both outcomes of the third byte are one acknowledgment. -/
theorem identifyThirdByteDecides : Obligations.IdentifyThirdByteDecides := by
  intro s hs
  refine ⟨_, exec_identify_ident hs, ?_⟩
  rw [identifyByte_two_eq_acknowledge]
  exact ⟨{ acknowledge_replying _ _ with }, rfl⟩

/-! LOADADDR (R197, R198). -/

/-- Settles O16: the first byte is kept aside, and the second completes the little-endian operand. -/
theorem loadAddrWritesTheAddressWhole : Obligations.LoadAddrWritesTheAddressWhole := fun s =>
  ⟨fun hs => ⟨_, exec_loadAddr_idle hs, rfl, rfl, rfl, rfl⟩,
    fun hs => ⟨_, exec_loadAddr_addr_zero hs, rfl, rfl, rfl, rfl, rfl⟩,
    fun hs => ⟨_, exec_loadAddr_addr_one hs, { acknowledge_replying _ _ with }, rfl, le16_toNat s.loc.aLo s.rxsr⟩⟩

/-! WRITEPAGE (R199 to R206). -/

theorem admission_granted {s : State} (hw : s.arWritten = true) (ha : s.ar.toNat % s.cfg.pageSize = 0)
    (hl : s.ar.toNat + s.cfg.pageSize ≤ s.cfg.appLimit) : s.admission = none := by
  rw [State.admission, if_neg (by simp [hw]), if_neg (not_not_intro ha), if_neg (by omega)]

/-- The dispatch of an admitted WRITEPAGE faults while the engine is busy. -/
theorem writePageStart_busy {s : State} (ha : s.admission = none) (hb : s.fe.busy = true) :
    writePageStart s = .fault .flashIssueWhileBusy := by
  simp only [writePageStart, ha, flashErase_busy _ hb, andThen_fault]

/-- Settles O20: with the admission granted, the erase is issued or faults. -/
theorem writePageErasesFirst : Obligations.WritePageErasesFirst := by
  intro s hs hw ha hl
  have hgranted := admission_granted hw ha hl
  refine ⟨fun hb => ⟨_, (exec_writePage_idle hs).trans (writePageStart_eq hgranted hb), ?_⟩, fun hb => ?_⟩
  · exact ⟨rfl, rfl, rfl, rfl, rfl, rfl, rfl, rfl⟩
  · rw [exec_writePage_idle hs, writePageStart_busy hgranted hb]

theorem writePageChecksum_zero (s : State) :
    writePageChecksum 0 s = listenAt (.wCk 1) { s with ckRx := le16 s.rxsr (highByte s.ckRx) } := rfl

theorem writePageChecksum_one (s : State) :
    writePageChecksum 1 s = listenAt (.wData 0) { s with ckRx := le16 (lowByte s.ckRx) s.rxsr } := rfl

/-- A payload byte before the last is stored, and the next one is awaited. -/
theorem writePageData_more {s : State} {i : Nat} (h : i + 1 < s.cfg.pageSize) :
    writePageData i s = .next (listenAt (.wData (i + 1)) { s with pb := s.pb.set i s.rxsr }) := if_pos h

/-- Settles O21: each body byte before the last goes to its place. -/
theorem writePageStoresItsBody : Obligations.WritePageStoresItsBody := by
  intro s
  refine ⟨fun hs => ⟨_, exec_writePage_wCk hs, rfl, rfl, ?_, rfl⟩,
    fun hs => ⟨_, exec_writePage_wCk hs, rfl, rfl, ?_, rfl⟩,
    fun i hs hi hpb => ⟨_, (exec_writePage_wData hs).trans (writePageData_more hi), rfl, rfl, rfl, ?_⟩⟩
  · rw [← lowByte_toNat, writePageChecksum_zero]
    simp
  · rw [writePageChecksum_one, ← lowByte_toNat]
    exact le16_toNat _ _
  · exact ⟨List.getElem?_set_self (by omega), fun j hj => List.getElem?_set_ne hj.symm, List.length_set⟩

/-- After the last payload byte the checksum over PB decides. -/
theorem writePageData_last {s : State} {i : Nat} {a : Acc} (hi : i + 1 = s.cfg.pageSize)
    (ha : checksum (s.pb.set i s.rxsr) = .next a) :
    writePageData i s = if s.checksumMatches a
      then .next { s with pb := s.pb.set i s.rxsr, acc := a, seq := .wProg .waitErase }
      else .next (failWith .checksumMismatch { s with pb := s.pb.set i s.rxsr, acc := a }) := by
  rw [writePageData, if_neg (by omega), writePageValidate]
  simp only [ha]
  rfl

theorem writePageData_match {s : State} {i : Nat} {a : Acc} (hi : i + 1 = s.cfg.pageSize)
    (ha : checksum (s.pb.set i s.rxsr) = .next a) (hm : a.toNat % 65536 = s.ckRx.toNat) :
    writePageData i s = .next { s with pb := s.pb.set i s.rxsr, acc := a, seq := .wProg .waitErase } := by
  rw [writePageData_last hi ha, if_pos ((checksumMatches_iff s a).2 hm)]

theorem writePageData_mismatch {s : State} {i : Nat} {a : Acc} (hi : i + 1 = s.cfg.pageSize)
    (ha : checksum (s.pb.set i s.rxsr) = .next a) (hm : a.toNat % 65536 ≠ s.ckRx.toNat) :
    writePageData i s = .next (failWith .checksumMismatch { s with pb := s.pb.set i s.rxsr, acc := a }) := by
  rw [writePageData_last hi ha, if_neg (mt (checksumMatches_iff s a).1 hm)]

/-- Settles O22: the comparison of all 16 bits is that of `checksumMatches_iff`. -/
theorem writePageValidatesAfterTheLastByte : Obligations.WritePageValidatesAfterTheLastByte := by
  intro s i a hs hi ha
  rw [exec_writePage_wData hs]
  refine ⟨fun hm => ⟨_, writePageData_match hi ha hm, rfl, rfl, rfl, rfl, rfl, rfl⟩,
    fun hm => ⟨_, writePageData_mismatch hi ha hm, { failWith_replying _ _ with }, ?_⟩⟩
  exact ⟨rfl, rfl, rfl, rfl, rfl, rfl, rfl, rfl, rfl, rfl⟩

/-- The address one page further on, modulo 2^16 (20_memory.md R60). -/
theorem toNat_add_page (a : Half) (n : Nat) : (a + BitVec.ofNat 16 n).toNat = (a.toNat + n) % 65536 := by
  simp

/-- Settles O24: the end of the second flash wait. -/
theorem writePageAdvancesTheAddress : Obligations.WritePageAdvancesTheAddress := by
  intro s hs hb
  exact ⟨_, (exec_writePage_wProg hs).trans (writePageProgram_committed hb), rfl, rfl, toNat_add_page _ _, rfl,
    { acknowledge_replying _ _ with }, rfl⟩

/-! RESET and UNKNOWN, and the end of a command cycle (R193, R207, R209). -/

/-- Settles O29: RESET's frame is `unknownAndResetFrame`'s, and it keeps the variables of the operations in progress. -/
theorem resetArmsTheShortTimeoutAndSpins : Obligations.ResetArmsTheShortTimeoutAndSpins := by
  intro s hs
  have hexec := exec_reset_idle hs
  obtain ⟨hm, ha, hp, hok, htxd, htcnt⟩ := unknownAndResetFrame.2 s _ hexec
  exact ⟨_, hexec, rfl, rfl, hm, ha, hp, hok, htxd, htcnt, rfl⟩

/-- Settles O31: an unknown opcode fails at once, within the frame the handlers share. -/
theorem unknownFailsAtOnce : Obligations.UnknownFailsAtOnce := by
  intro b s hs
  obtain ⟨hm, ha, hp, -⟩ := failWith_frame .protocolError s.loc s
  exact ⟨_, exec_unknown_idle b hs, failWith_replying s _, rfl, hm.got, ha, hp, rfl, rfl⟩

/-- Settles O34: after the acknowledgment every command but RESET does the same. -/
theorem everyCommandEndsWithARefresh : Obligations.EveryCommandEndsWithARefresh := fun _ _ hi hs =>
  ⟨_, exec_ack hi hs, rfl, rfl, rfl, rfl, rfl⟩

end Sys2Proof.Machine
end

section
/-! The watchdog in the loop (43_reset_guard_watchdog.md R165; 44_command_dispatcher.md R193, R207). -/

namespace Sys2Proof.Machine

/-- After S_GUARD the sequencer's turn leaves the watchdog alone but for an action of a command. -/
theorem seqTurn_keeps_watchdog_or_exec {s t : State} (hg : s.seq ≠ .guard) (hp : s.seq ≠ .app ∧ s.seq ≠ .spin)
    (h : runTurn (seqTurn s) = .next t) : t.wd = s.wd ∨ ∃ i u, exec i u = .next t ∧ u.wd = s.wd ∧ u.seq = s.seq := by
  obtain ⟨hs, -⟩ | ⟨-, -, rfl⟩ | ⟨-, -, hx⟩ | ⟨p, -, hx⟩ | ⟨-, hr⟩ | ⟨-, hx⟩ | ⟨-, -, hx⟩ := seqTurn_next hp h
  · exact absurd hs hg
  · exact .inl rfl
  · exact .inr ⟨_, sendDone s, hx, rfl, rfl⟩
  · exact .inr ⟨_, s, hx, rfl, rfl⟩
  · left
    obtain rfl | rfl | rfl | ⟨i, rfl⟩ | rfl := hr
    · rfl
    · obtain ⟨-, -, -, -, -, hwd, -⟩ := recvPoll_keeps_most s
      exact hwd
    · obtain ⟨-, -, -, -, -, -, hwd, -⟩ := recvStart_keeps_most s
      exact hwd
    · rfl
    · rfl
  · exact .inr ⟨_, { recvDone s with op := s.rxsr }, hx, rfl, rfl⟩
  · exact .inr ⟨_, recvDone s, hx, rfl, rfl⟩

/-- Settles O59: time never lowers the count, neither do the engine and the transceiver, and of the commands' actions
only the two of `exec_cnt` do. -/
theorem theWatchdogIsRefreshedOnlyAfterAReply : Obligations.TheWatchdogIsRefreshedOnlyAfterAReply := by
  intro s t hstep hs ht hlt
  have notFallen (q : Nat) (hwd : t.wd = (advanceTo q s).wd) : False := by
    rw [hwd] at hlt
    exact (advance_cnt q s).not_gt hlt
  obtain ⟨-, ⟨q, -, rfl⟩ | ⟨q, -, rfl⟩ | ⟨q, -, hp, hx⟩ | ⟨-, rfl⟩⟩ := step_next_cases hstep
  · exact absurd (resetAt_seq q s) ht
  · obtain ⟨-, -, -, -, -, hwd, -⟩ := engineComplete_keeps (advanceTo q s)
    exact (notFallen q hwd).elim
  · obtain hwd | ⟨i, u, hexec, hwd, hseq⟩ := seqTurn_keeps_watchdog_or_exec (s := advanceTo q s) hs hp hx
    · exact (notFallen q hwd).elim
    · have hu : t.wd.cnt < u.wd.cnt := by
        rw [hwd]
        exact hlt.trans_le (advance_cnt q s)
      have hfall := exec_cnt hexec hu
      rwa [hseq] at hfall
  · exact absurd hlt (lt_irrefl _)

end Sys2Proof.Machine
end

section
/-! A reported success in a good state (44_command_dispatcher.md R203). -/

namespace Sys2Proof.Machine

/-- From a flash wait a step gets to S_ACK by an action of WRITEPAGE only. -/
theorem step_wProg_to_ack {s t : State} {p : ProgPhase} (ho : s.OpcodeOk) (hs : s.seq = .wProg p)
    (hstep : step s = .next t) (ht : t.seq = .ack) : ∃ q, writePageProgram p (advanceTo q s) = .next t := by
  have stays (hseq : t.seq = s.seq) : False := by
    rw [hseq, hs] at ht
    cases ht
  obtain ⟨-, ⟨q, -, rfl⟩ | ⟨q, -, rfl⟩ | ⟨q, -, -, hx⟩ | ⟨-, rfl⟩⟩ := step_next_cases hstep
  · rw [resetAt_seq] at ht
    cases ht
  · obtain ⟨hseq, -⟩ := engineComplete_keeps (advanceTo q s)
    exact (stays hseq).elim
  · have hop : decodeOpcode s.op = .writePage := by simpa only [State.OpcodeOk, hs] using ho
    have hq : (advanceTo q s).seq = .wProg p := hs
    rw [seqTurn_wProg hq] at hx
    refine ⟨q, ?_⟩
    rw [← exec_writePage_wProg hq, ← hop]
    exact hx
  · exact (stays rfl).elim

/-- Settles O25: the success is reported with the engine idle, and then the invariant has the page at AR hold PB. -/
theorem reportedSuccessMeansThePageHoldsThePayload : Obligations.ReportedSuccessMeansThePageHoldsThePayload := by
  intro s t hinv hs hstep ht
  obtain ⟨q, hx⟩ := step_wProg_to_ack hinv.opcode hs hstep ht
  obtain ⟨-, rfl⟩ | ⟨-, hp, -⟩ | ⟨hidle, -, rfl⟩ := writePageProgram_next hx
  · rw [show (advanceTo q s).seq = .wProg .waitCommit from hs] at ht
    cases ht
  · cases hp
  · have hidle : s.fe = .idle := hidle
    have hwrite := hinv.write
    simp only [State.WriteOk, hs, hidle, reduceCtorEq, true_and, false_or] at hwrite
    obtain ⟨hadmitted, hholds⟩ := hwrite
    obtain ⟨hbase, -⟩ := admission_none (hadmitted rfl)
    refine ⟨rfl, rfl, hidle, fun i hi => ⟨?_, ?_⟩⟩
    · rw [← hbase]
      exact hholds i hi
    · rw [List.getElem?_eq_getElem (hi.trans_eq hinv.shapes.pb.symm)]
      rfl

end Sys2Proof.Machine
end

section
/-! RESET's busy loop and what follows it (44_command_dispatcher.md R207, R208; 43_reset_guard_watchdog.md
R170, R180). -/

namespace Sys2Proof.Machine

/-- A completion that comes before any reset is the step of a block whose sequencer waits. -/
theorem step_of_engine {s : State} {q : Nat} (hv : s.cfg.valid = true) (he : s.engineDue = some q)
    (hr : ∀ r, earlier s.envDue s.wdtDue = some r → q < r) (hs : ∀ x, s.seqDue = some x → q ≤ x) :
    step s = .next (engineComplete (advanceTo q s)) := by
  rw [step_eq, turn, if_pos hv, nextAgent_of_engine he hr hs]
  rfl

theorem engineComplete_keeps_clock (s : State) : (engineComplete s).now = s.now ∧ (engineComplete s).inp = s.inp := by
  unfold engineComplete
  cases s.fe <;> exact ⟨rfl, rfl⟩

theorem engineComplete_idle (s : State) : (engineComplete s).fe = .idle := by
  unfold engineComplete
  cases hfe : s.fe
  · exact hfe
  · rfl
  · rfl

theorem engineDue_idle {s : State} (h : s.fe = .idle) : s.engineDue = none := by
  simp [State.engineDue, h, FlashEngine.busy]

/-- A completion is never due in the past. -/
theorem now_le_engineDue {s : State} {w : Nat} (h : s.engineDue = some w) : s.now ≤ w := by
  unfold State.engineDue at h
  split at h
  · cases h
    exact le_max_right _ _
  · cases h

theorem seqDue_spin {s : State} (h : s.seq = .spin) : s.seqDue = none := by simp only [State.seqDue, h]

/-- With nothing else to come, a block in S_GUARD with RC.EXT clear hands control over. -/
theorem step_guard_applicationPath {s : State} (hv : s.cfg.valid = true) (hs : s.seq = .guard) (hidle : s.fe = .idle)
    (hres : s.inp.resets = []) (hext : s.rc.ext = false) : step s = .next (applicationPath (advanceTo s.now s)) := by
  have hwdt : s.wdtDue = none := if_pos hs
  have hu : s.UndisturbedUntil s.now :=
    undisturbed_iff.2 ⟨by simp [envDue_of_no_resets hres], by simp [hwdt], by simp [engineDue_idle hidle]⟩
  have hguard : resetGuard (advanceTo s.now s) = applicationPath (advanceTo s.now s) := if_neg (by simp [rcRead, hext])
  have hturn : seqTurn (advanceTo s.now s) = .done (resetGuard (advanceTo s.now s)) := by simp [seqTurn, hs]
  rw [step_of_undisturbed hv (seqDue_guard hs) hu, hturn, hguard]
  rfl

theorem flashAfterReset_idle {s : State} (h : s.fe = .idle) : s.flashAfterReset = s.flash := by
  simp only [State.flashAfterReset, h]

/-- A good block that spins is reset when what is left of the short timeout has passed. -/
theorem wdtDue_spin {s : State} (h : s.SupervisorOk) (hs : s.seq = .spin) :
    s.wdtDue = some (s.now + (wdtTicks s.cfg .short - s.wd.cnt)) := by
  simp only [State.SupervisorOk, hs] at h
  obtain ⟨hen, hperiod, -⟩ := h
  rw [wdtDue_armed (by simp [hs]) hen, hperiod]

/-- The expiry is the step, and after it RC.EXT is still clear: ResetGuard hands control over. -/
theorem step_spin_expiry {s : State} {q : Nat} (hv : s.cfg.valid = true) (hs : s.seq = .spin) (hres : s.inp.resets = [])
    (hext : s.rc.ext = false) (hw : s.wdtDue = some q) (hfirst : ∀ w, s.engineDue = some w → q ≤ w) :
    step s = .next (resetAt q s) ∧ (resetAt q s).rc = { s.rc with wdt := true } ∧
    step (resetAt q s) = .next (applicationPath (advanceTo q (resetAt q s))) := by
  have hnext : earlier s.envDue s.wdtDue = some q := by
    rw [envDue_of_no_resets hres, hw]
    rfl
  have hrc : (resetAt q s).rc = { s.rc with wdt := true } := by
    rw [resetAt_rc, causesAt_expiry hw (by simp [envDue_of_no_resets hres]), latch_watchdog]
  have hnone : (resetAt q s).inp.resets = [] := by simp [resetAt, hardwareReset, hres]
  refine ⟨step_of_reset hv hnext hfirst (by simp [seqDue_spin hs]), hrc, ?_⟩
  exact step_guard_applicationPath (s := resetAt q s) hv rfl rfl hnone (by rw [hrc]; exact hext)

/-- Settles O30: in S_SPIN the sequencer has no event, so the expiry or a completion before it is next. -/
theorem spinEndsInTheApplication : Obligations.SpinEndsInTheApplication := by
  intro s hinv hs hres
  have hv := hinv.shapes.config
  have hw := wdtDue_spin hinv.supervisor hs
  have hsup := hinv.supervisor
  simp only [State.SupervisorOk, hs] at hsup
  obtain ⟨hen, -, -, hext⟩ := hsup
  refine ⟨fun hfirst => ?_, fun w hengine hbefore => ?_⟩
  · obtain ⟨hstep, hrc, hguard⟩ := step_spin_expiry hv hs hres hext hw hfirst
    refine ⟨_, _, hstep, rfl, rfl, hrc, fun hidle => flashAfterReset_idle hidle, hguard, rfl, rfl, ?_, rfl, rfl⟩
    simp [hrc]
  · have hreset : ∀ r, earlier s.envDue s.wdtDue = some r → w < r := by
      rw [envDue_of_no_resets hres, hw]
      rintro r ⟨⟩
      exact hbefore
    have hstep := step_of_engine hv hengine hreset (by simp [seqDue_spin hs])
    obtain ⟨hseq, -, hrc, -, -, hwd, -, hcfg, -⟩ := engineComplete_keeps (advanceTo w s)
    obtain ⟨hnow, hinp⟩ := engineComplete_keeps_clock (advanceTo w s)
    refine ⟨_, hstep, hseq.trans hs, engineComplete_idle _, hnow, (congrArg Inputs.resets hinp).trans hres, hrc, ?_⟩
    have := now_le_engineDue hengine
    rw [hnow, hcfg, hwd]
    simp only [advanceTo_fields, hen, if_true]
    omega

end Sys2Proof.Machine
end

section
/-! Whole commands at byte level (40_serial_transceiver.md R117; 44_command_dispatcher.md R210). -/

namespace Sys2Proof.Machine

/-- The state in which the command of opcode `b`, received in S_IDLE, is dispatched. -/
def opcodeReceived (b : Byte) (s : State) : State := { recvDone { s with rxsr := b } with op := b }

/-- The state in which the command in hand acts on body byte `b`. -/
def operandReceived (b : Byte) (s : State) : State := recvDone { s with rxsr := b }

@[simp] theorem opcodeReceived_fields (b : Byte) (s : State) :
    (opcodeReceived b s).cfg = s.cfg ∧ (opcodeReceived b s).ar = s.ar ∧ (opcodeReceived b s).arWritten = s.arWritten ∧
    (opcodeReceived b s).pb = s.pb ∧ (opcodeReceived b s).ckRx = s.ckRx ∧ (opcodeReceived b s).acc = s.acc ∧
    (opcodeReceived b s).op = b ∧ (opcodeReceived b s).ok = s.ok ∧ (opcodeReceived b s).seq = s.seq ∧
    (opcodeReceived b s).rxsr = b ∧ (opcodeReceived b s).txd = s.txd ∧ (opcodeReceived b s).tcnt = s.tcnt ∧
    (opcodeReceived b s).flash = s.flash ∧ (opcodeReceived b s).ftb = s.ftb ∧ (opcodeReceived b s).fe = s.fe ∧
    (opcodeReceived b s).feDue = s.feDue ∧ (opcodeReceived b s).readEn = s.readEn ∧ (opcodeReceived b s).rc = s.rc ∧
    (opcodeReceived b s).wd = s.wd ∧ (opcodeReceived b s).loc = s.loc ∧ (opcodeReceived b s).now = s.now ∧
    (opcodeReceived b s).inp = s.inp ∧ (opcodeReceived b s).draws = s.draws ∧
    (opcodeReceived b s).hist = { s.hist with got := s.hist.got ++ [b] } := by
  and_intros <;> rfl

@[simp] theorem operandReceived_fields (b : Byte) (s : State) :
    (operandReceived b s).cfg = s.cfg ∧ (operandReceived b s).ar = s.ar ∧
    (operandReceived b s).arWritten = s.arWritten ∧ (operandReceived b s).pb = s.pb ∧
    (operandReceived b s).ckRx = s.ckRx ∧ (operandReceived b s).acc = s.acc ∧ (operandReceived b s).op = s.op ∧
    (operandReceived b s).ok = s.ok ∧ (operandReceived b s).seq = s.seq ∧ (operandReceived b s).rxsr = b ∧
    (operandReceived b s).txd = s.txd ∧ (operandReceived b s).tcnt = s.tcnt ∧ (operandReceived b s).flash = s.flash ∧
    (operandReceived b s).ftb = s.ftb ∧ (operandReceived b s).fe = s.fe ∧ (operandReceived b s).feDue = s.feDue ∧
    (operandReceived b s).readEn = s.readEn ∧ (operandReceived b s).rc = s.rc ∧ (operandReceived b s).wd = s.wd ∧
    (operandReceived b s).loc = s.loc ∧ (operandReceived b s).now = s.now ∧ (operandReceived b s).inp = s.inp ∧
    (operandReceived b s).draws = s.draws ∧
    (operandReceived b s).hist = { s.hist with got := s.hist.got ++ [b] } := by
  and_intros <;> rfl

theorem byteRun_host_next {b : Byte} {s t : State} (rest : List Byte) (h : byteStep (.host b) s = .next t) :
    byteRun (hostBytes (b :: rest)) s = byteRun (hostBytes rest) t := by
  rw [byteRun_host_cons, h, andThen_next]

section
variable {s t : State} {b : Byte} (hv : s.cfg.valid = true)
include hv

/-- A dispatch after which the command waits for its body. -/
theorem byteStep_opcode_listens (hs : s.seq = .idle) (hx : exec (decodeOpcode b) (opcodeReceived b s) = .next t)
    (hl : t.seq.listening = true) : byteStep (.host b) s = .next t :=
  (byteStep_host_idle b hv hs).trans ((congrArg (andThen · (settle 3)) hx).trans (settle_listening 3 hl))

/-- A dispatch that begins the reply, which then goes out and ends the cycle. -/
theorem byteStep_opcode_replies (hs : s.seq = .idle) (hx : exec (decodeOpcode b) (opcodeReceived b s) = .next t)
    (ht : t.seq = .ack) (hop : decodeOpcode t.op ≠ .reset) :
    byteStep (.host b) s = .next (finishCycle (byteSent t)) :=
  (byteStep_host_idle b hv hs).trans ((congrArg (andThen · (settle 3)) hx).trans (settle_ack 2 ht hop))

variable {i : Instr} (hl : s.seq.listening = true) (hs : s.seq ≠ .idle) (hi : decodeOpcode s.op = i)
  (hx : exec i (operandReceived b s) = .next t)
include hl hs hi hx

/-- A body byte, and then the sequencer as far as it gets. -/
theorem byteStep_operand : byteStep (.host b) s = settle 3 t := by
  rw [← hi] at hx
  exact (byteStep_host_body b hv hl hs).trans (congrArg (andThen · (settle 3)) hx)

/-- A body byte after which the command waits for the next one. -/
theorem byteStep_operand_listens (ht : t.seq.listening = true) : byteStep (.host b) s = .next t :=
  (byteStep_operand hv hl hs hi hx).trans (settle_listening 3 ht)

/-- A body byte that begins the reply, which then goes out and ends the cycle. -/
theorem byteStep_operand_replies (ht : t.seq = .ack) (hop : decodeOpcode t.op ≠ .reset) :
    byteStep (.host b) s = .next (finishCycle (byteSent t)) :=
  (byteStep_operand hv hl hs hi hx).trans (settle_ack 2 ht hop)

end

/-! UNKNOWN. -/

/-- Settles O32: the byte decodes to UNKNOWN, whose dispatch begins the reply 'N'. -/
theorem everyOtherByteIsAnsweredN : Obligations.EveryOtherByteIsAnsweredN := by
  intro b s hv hs hb
  obtain ⟨h1, h2, h3, h4⟩ := definedOpcodes_not_contains hb
  have hdecode := decodeOpcode_of_ne h1 h2 h3 h4
  have hx : exec (decodeOpcode b) (opcodeReceived b s) = .next (failWith .protocolError (opcodeReceived b s)) := by
    rw [hdecode]
    exact exec_unknown_idle b hs
  have hop : decodeOpcode (failWith .protocolError (opcodeReceived b s)).op ≠ .reset := by simp [hdecode]
  refine ⟨_, byteRun_host_next [] (byteStep_opcode_replies hv hs hx (by simp) hop), ?_⟩
  refine ⟨by simp, by simp, by simp [ackByte], by simp, ?_, ?_, by simp, by simp⟩
  · constructor <;> simp
  · constructor <;> simp

/-! LOADADDR. -/

/-- LOADADDR, dispatched in `s`, waits for the low byte of its operand. -/
def addrBegun (s : State) : State := listenAt (.addr 0) (opcodeReceived 0x41 s)

/-- It has kept the low byte and waits for the high one. -/
def addrLow (lo : Byte) (s : State) : State :=
  listenAt (.addr 1) { operandReceived lo (addrBegun s) with loc := { (addrBegun s).loc with aLo := lo } }

/-- It has written AR and replies. -/
def addrLoaded (lo hi : Byte) (s : State) : State := loadAddrDone (operandReceived hi (addrLow lo s))

theorem byteRun_loadAddr {s : State} (lo hi : Byte) (hv : s.cfg.valid = true) (hs : s.seq = .idle) :
    byteRun (hostBytes [0x41, lo, hi]) s = .next (finishCycle (byteSent (addrLoaded lo hi s))) := by
  have h0 : byteStep (.host 0x41) s = .next (addrBegun s) :=
    byteStep_opcode_listens hv hs (exec_loadAddr_idle (s := opcodeReceived 0x41 s) hs) rfl
  have h1 : byteStep (.host lo) (addrBegun s) = .next (addrLow lo s) :=
    byteStep_operand_listens hv rfl nofun rfl (exec_loadAddr_addr_zero rfl) rfl
  have h2 : byteStep (.host hi) (addrLow lo s) = .next (finishCycle (byteSent (addrLoaded lo hi s))) :=
    byteStep_operand_replies hv rfl nofun rfl (exec_loadAddr_addr_one rfl) rfl nofun
  rw [byteRun_host_next _ h0, byteRun_host_next _ h1, byteRun_host_next _ h2, byteRun_nil]

/-- Settles O17: the operand's bytes are its low and its high byte, and `le16` puts them together again. -/
theorem loadAddrSetsTheAddressRegister : Obligations.LoadAddrSetsTheAddressRegister := by
  intro s a hv hs
  refine ⟨_, byteRun_loadAddr (lowByte a) (highByte a) hv hs, ?_⟩
  simp only [addrLoaded, loadAddrDone, addrLow, addrBegun]
  refine ⟨by simp, by simp, by simp, by simp, by simp [ackByte], by simp, ?_, by simp, by simp, by simp⟩
  constructor <;> simp

/-! IDENTIFY. -/

/-- IDENTIFY, dispatched in `s`, waits for the first signature byte. -/
def identBegun (s : State) : State :=
  listenAt (.ident 0) { opcodeReceived 0x49 s with loc := { s.loc with idMatch := true } }

/-- It has compared one byte and waits for the second. -/
def identFirst (s0 : Byte) (s : State) : State := identifyByte 0 (operandReceived s0 (identBegun s))

/-- It has compared two bytes and waits for the third. -/
def identSecond (s0 s1 : Byte) (s : State) : State := identifyByte 1 (operandReceived s1 (identFirst s0 s))

theorem byteStep_ident {s : State} {k : Fin 3} (b : Byte) (hv : s.cfg.valid = true) (hs : s.seq = .ident k)
    (hop : s.op = 0x49) : byteStep (.host b) s = settle 3 (identifyByte k (operandReceived b s)) :=
  byteStep_operand hv (by rw [hs]; rfl) (by simp [hs]) (by rw [hop]; rfl) (exec_identify_ident (by simp [hs]))

theorem identFirst_stage (s0 : Byte) (s : State) :
    (identFirst s0 s).cfg = s.cfg ∧ (identFirst s0 s).seq = .ident 1 ∧ (identFirst s0 s).op = 0x49 := by
  simp [identFirst, identifyByte_zero, identBegun]

theorem identSecond_stage (s0 s1 : Byte) (s : State) :
    (identSecond s0 s1 s).cfg = s.cfg ∧ (identSecond s0 s1 s).seq = .ident 2 ∧ (identSecond s0 s1 s).op = 0x49 := by
  simp [identSecond, identFirst, identifyByte_one, identifyByte_zero, identBegun]

theorem byteRun_identify {s : State} (s0 s1 s2 : Byte) (hv : s.cfg.valid = true) (hs : s.seq = .idle) :
    byteRun (hostBytes [0x49, s0, s1, s2]) s =
      .next (finishCycle (byteSent (identifyByte 2 (operandReceived s2 (identSecond s0 s1 s))))) := by
  obtain ⟨hcfg1, hseq1, hop1⟩ := identFirst_stage s0 s
  obtain ⟨hcfg2, hseq2, hop2⟩ := identSecond_stage s0 s1 s
  have h0 : byteStep (.host 0x49) s = .next (identBegun s) :=
    byteStep_opcode_listens hv hs (exec_identify_idle (s := opcodeReceived 0x49 s) hs) rfl
  have h1 : byteStep (.host s0) (identBegun s) = .next (identFirst s0 s) :=
    (byteStep_ident (s := identBegun s) s0 hv rfl rfl).trans (settle_listening 3 rfl)
  have h2 : byteStep (.host s1) (identFirst s0 s) = .next (identSecond s0 s1 s) :=
    (byteStep_ident s1 (by rw [hcfg1]; exact hv) hseq1 hop1).trans (settle_listening 3 rfl)
  have h3 : byteStep (.host s2) (identSecond s0 s1 s) =
      .next (finishCycle (byteSent (identifyByte 2 (operandReceived s2 (identSecond s0 s1 s))))) := by
    refine (byteStep_ident s2 (by rw [hcfg2]; exact hv) hseq2 hop2).trans (settle_ack 2 ?_ ?_)
    · simp [identifyByte_two_eq_acknowledge]
    · simp [identifyByte_two_eq_acknowledge, hop2, decodeOpcode]
  rw [byteRun_host_next _ h0, byteRun_host_next _ h1, byteRun_host_next _ h2, byteRun_host_next _ h3, byteRun_nil]

/-- Settles O14: the third byte's acknowledgment carries the outcome of the three comparisons, made in order. -/
theorem identifyRepliesWhetherTheSignatureMatches : Obligations.IdentifyRepliesWhetherTheSignatureMatches := by
  intro s s0 s1 s2 hv hs
  refine ⟨_, byteRun_identify s0 s1 s2 hv hs, ?_⟩
  rw [identifyByte_two_eq_acknowledge]
  simp only [State.signatureMatches, identSecond, identFirst, identifyByte_one, identifyByte_zero, identBegun]
  refine ⟨by simp, by simp, by simp [ackByte, and_assoc], by simp, ?_, ?_, by simp, by simp, by simp⟩
  · constructor <;> simp
  · constructor <;> simp

end Sys2Proof.Machine
end

section
/-! WRITEPAGE at byte level (44_command_dispatcher.md R199 to R206): what has arrived of its body says where it stands
and what CK_RX and PB hold; the engine goes its own way beside it. -/

namespace Sys2Proof.Machine

/-! What the body bytes received so far come to (R201). -/

/-- The position that waits for the byte after these. -/
def bodyPosition : List Byte → Seq
  | [] => .wCk 0
  | [_] => .wCk 1
  | _ :: _ :: d => .wData d.length

/-- CK_RX, which held `old` before them. -/
def ckReceived (old : Half) : List Byte → Half
  | [] => old
  | [lo] => le16 lo (highByte old)
  | lo :: hi :: _ => le16 lo hi

/-- PB, which held `old` before them. -/
def pbReceived (old : List Byte) : List Byte → List Byte
  | _ :: _ :: d => d ++ old.drop d.length
  | _ => old

/-- A payload byte goes to the first place of PB that is still old. -/
theorem pbReceived_set {old d : List Byte} (lo hi b : Byte) (h : d.length < old.length) :
    (pbReceived old (lo :: hi :: d)).set d.length b = pbReceived old (lo :: hi :: (d ++ [b])) := by
  simp only [pbReceived, List.length_append, List.length_singleton, List.append_assoc]
  rw [List.set_append_right _ _ le_rfl, Nat.sub_self, List.drop_eq_getElem_cons h]
  rfl

/-- A whole payload is all of PB. -/
theorem pbReceived_page {old d : List Byte} (lo hi : Byte) (h : d.length = old.length) :
    pbReceived old (lo :: hi :: d) = d := by
  simp [pbReceived, h]

theorem bodyPosition_listening (got : List Byte) : (bodyPosition got).listening = true ∧ bodyPosition got ≠ .idle := by
  unfold bodyPosition
  split <;> exact ⟨rfl, nofun⟩

/-- WRITEPAGE, dispatched in `s`, is in hand in `t`, where its opcode and then `body` have been received. -/
structure Writing (s t : State) (body : List Byte) : Prop where
  cfg : t.cfg = s.cfg
  op : t.op = 0x57
  ar : t.ar = s.ar
  written : t.arWritten = s.arWritten
  readEn : t.readEn = false
  got : t.hist.got = s.hist.got ++ 0x57 :: body
  out : t.hist.out = s.hist.out
  ftb : s.ftb.length = s.cfg.pageSize → t.ftb.length = s.cfg.pageSize

/-- It waits for the next byte of its body. -/
structure InBody (s t : State) (body : List Byte) : Prop extends Writing s t body where
  position : t.seq = bodyPosition body
  ckRx : t.ckRx = ckReceived s.ckRx body
  pb : t.pb = pbReceived s.pb body

/-- Its payload `d` is in PB and has matched its checksum. -/
structure Validated (s t : State) (body d : List Byte) : Prop extends Writing s t body where
  position : t.seq = .wProg .waitErase
  pb : t.pb = d

/-! The engine beside it. -/

/-- `t` has the engine and the flash of `s`. -/
structure KeepsEngine (s t : State) : Prop where
  engine : t.fe = s.fe
  flash : t.flash = s.flash

/-- The page of `s` is being erased. -/
structure Erasing (s t : State) : Prop where
  engine : t.fe = .erasing (s.pageOf s.ar)
  flash : t.flash = s.flash

/-- Flash with the page that begins at AR erased. -/
def State.erasedAtAr (s : State) : List Host.Cell :=
  flashWrite s.flash s.ar.toNat (List.replicate s.cfg.pageSize s.cfg.erasedByte)

/-- The page of `s` has been erased. -/
structure Erased (s t : State) : Prop where
  engine : t.fe = .idle
  flash : t.flash = s.erasedAtAr

theorem Erasing.of_keeps {s t u : State} (h : Erasing s t) (k : KeepsEngine t u) : Erasing s u :=
  ⟨k.engine.trans h.engine, k.flash.trans h.flash⟩

theorem Erased.of_keeps {s t u : State} (h : Erased s t) (k : KeepsEngine t u) : Erased s u :=
  ⟨k.engine.trans h.engine, k.flash.trans h.flash⟩

theorem Erasing.busy {s t : State} (h : Erasing s t) : t.fe.busy = true := by
  rw [h.engine]
  rfl

theorem engineComplete_of_erasing {s : State} {p : Nat} (h : s.fe = .erasing p) :
    engineComplete s = { s with
      flash := flashWrite s.flash (s.pageBase p) (List.replicate s.cfg.pageSize s.cfg.erasedByte)
      ftb := freeBytes s.draws s.cfg.pageSize, fe := .idle, draws := s.draws + 2 } := by
  simp only [engineComplete, h]

theorem Erasing.completes {s t : State} (h : Erasing s t) (hcfg : t.cfg = s.cfg) (ha : s.admission = none) :
    Erased s (engineComplete t) := by
  obtain ⟨hbase, -⟩ := admission_none ha
  rw [engineComplete_of_erasing h.engine]
  refine ⟨rfl, ?_⟩
  rw [State.erasedAtAr, ← hbase, ← h.flash]
  simp only [State.pageBase, hcfg]

/-- The completion of the erase touches nothing of the command but FTB. -/
theorem Writing.completes {s t : State} {body : List Byte} (h : Writing s t body) (he : Erasing s t) :
    Writing s (engineComplete t) body := by
  rw [engineComplete_of_erasing he.engine]
  exact { h with ftb := fun _ => by simp [h.cfg] }

theorem InBody.completes {s t : State} {body : List Byte} (h : InBody s t body) (he : Erasing s t) :
    InBody s (engineComplete t) body := by
  have hw := h.toWriting.completes he
  rw [engineComplete_of_erasing he.engine] at hw ⊢
  exact { hw with position := h.position, ckRx := h.ckRx, pb := h.pb }

theorem Validated.completes {s t : State} {body d : List Byte} (h : Validated s t body d) (he : Erasing s t) :
    Validated s (engineComplete t) body d := by
  have hw := h.toWriting.completes he
  rw [engineComplete_of_erasing he.engine] at hw ⊢
  exact { hw with position := h.position, pb := h.pb }

section
variable {s : State} (hv : s.cfg.valid = true)
include hv

/-! Byte by byte. -/

/-- The dispatch issues the erase and waits for the first byte. -/
theorem byteStep_writePage (hs : s.seq = .idle) (ha : s.admission = none) (hi : s.fe = .idle) :
    ∃ t, byteStep (.host 0x57) s = .next t ∧ InBody s t [] ∧ Erasing s t := by
  have hx := (exec_writePage_idle (s := opcodeReceived 0x57 s) hs).trans (writePageStart_eq ha (busy_eq_false.2 hi))
  refine ⟨_, byteStep_opcode_listens hv hs hx rfl, ?_, rfl, rfl⟩
  exact { cfg := rfl, op := rfl, ar := rfl, written := rfl, readEn := rfl, got := rfl, out := rfl, ftb := id,
          position := rfl, ckRx := rfl, pb := rfl }

/-- A body byte, whatever it is, is an operand of WRITEPAGE. -/
theorem InBody.byteStep_eq {t u : State} {body : List Byte} {b : Byte} (h : InBody s t body)
    (hx : exec .writePage (operandReceived b t) = .next u) : byteStep (.host b) t = settle 3 u := by
  obtain ⟨hl, hne⟩ := bodyPosition_listening body
  rw [← h.position] at hl hne
  exact byteStep_operand (by rw [h.cfg]; exact hv) hl hne (by rw [h.op]; rfl) hx

omit hv in
theorem Writing.receives {t : State} {body : List Byte} (h : Writing s t body) (b : Byte) :
    Writing s (operandReceived b t) (body ++ [b]) :=
  { h with got := by simp [h.got] }

/-- A body byte before the last is stored in its place, and the next one is awaited. -/
theorem InBody.next {t : State} {body : List Byte} (h : InBody s t body) (b : Byte) (hpb : s.pb.length = s.cfg.pageSize)
    (hmore : body.length + 1 < s.cfg.pageSize + 2) :
    ∃ u, byteStep (.host b) t = .next u ∧ InBody s u (body ++ [b]) ∧ KeepsEngine t u := by
  have hw := h.toWriting.receives b
  have hpos := h.position
  rcases body with _ | ⟨lo, _ | ⟨hi, d⟩⟩
  · have hx := exec_writePage_wCk (s := operandReceived b t) hpos
    rw [writePageChecksum_zero] at hx
    refine ⟨_, (h.byteStep_eq hv hx).trans (settle_listening 3 rfl), ?_, rfl, rfl⟩
    exact { hw with position := rfl, ckRx := by simp [h.ckRx, ckReceived], pb := h.pb }
  · have hx := exec_writePage_wCk (s := operandReceived b t) hpos
    rw [writePageChecksum_one] at hx
    refine ⟨_, (h.byteStep_eq hv hx).trans (settle_listening 3 rfl), ?_, rfl, rfl⟩
    exact { hw with position := rfl, ckRx := by simp [h.ckRx, ckReceived], pb := h.pb }
  · have hd : d.length + 1 < s.cfg.pageSize := by simpa using hmore
    have hx := (exec_writePage_wData (s := operandReceived b t) hpos).trans
      (writePageData_more (by simpa [h.cfg] using hd))
    refine ⟨_, (h.byteStep_eq hv hx).trans (settle_listening 3 rfl), ?_, rfl, rfl⟩
    refine { hw with position := ?_, ckRx := h.ckRx, pb := ?_ }
    · simp [bodyPosition]
    · rw [List.cons_append, List.cons_append, ← pbReceived_set lo hi b (by omega), ← h.pb]
      simp

/-- Any number of body bytes before the last. -/
theorem InBody.run {body : List Byte} {t : State} (h : InBody s t body) (hpb : s.pb.length = s.cfg.pageSize)
    (bs : List Byte) (hmore : body.length + bs.length < s.cfg.pageSize + 2) :
    ∃ u, byteRun (hostBytes bs) t = .next u ∧ InBody s u (body ++ bs) ∧ KeepsEngine t u := by
  induction bs generalizing body t with
  | nil => exact ⟨t, rfl, by simpa using h, rfl, rfl⟩
  | cons b bs ih =>
    rw [List.length_cons] at hmore
    obtain ⟨u, hstep, hu, hfe, hflash⟩ := h.next hv b hpb (by omega)
    obtain ⟨u', hrun, hu', hfe', hflash'⟩ := ih hu (by rw [List.length_append, List.length_singleton]; omega)
    refine ⟨u', (byteRun_host_next bs hstep).trans hrun, ?_, hfe'.trans hfe, hflash'.trans hflash⟩
    simpa using hu'

end

end Sys2Proof.Machine
end

section
/-! WRITEPAGE at byte level, after the last byte of its body: a mismatch, and the programming after a match
(44_command_dispatcher.md R202 to R206). -/

namespace Sys2Proof.Machine

/-- The commit of payload `d` is in flight, onto the page that the erase has left. -/
structure Committing (s t : State) (body d : List Byte) : Prop extends Writing s t body where
  position : t.seq = .wProg .waitCommit
  engine : t.fe = .writing (s.pageOf s.ar) d true
  flash : t.flash = s.erasedAtAr

/-- WRITEPAGE has ended in success. -/
structure Programmed (s t : State) (body d : List Byte) : Prop where
  flash : t.flash = flashWrite s.erasedAtAr s.ar.toNat d
  ar : t.ar = s.ar + BitVec.ofNat 16 s.cfg.pageSize
  got : t.hist.got = s.hist.got ++ 0x57 :: body
  out : t.hist.out = s.hist.out ++ [0x59]
  readEn : t.readEn = true
  engine : t.fe = .idle
  position : t.seq = .idle

/-- WRITEPAGE has ended in failure. -/
structure Rejected (s t : State) (body : List Byte) : Prop where
  cfg : t.cfg = s.cfg
  ar : t.ar = s.ar
  written : t.arWritten = s.arWritten
  got : t.hist.got = s.hist.got ++ 0x57 :: body
  out : t.hist.out = s.hist.out ++ [0x4E]
  readEn : t.readEn = false
  position : t.seq = .idle

/-- A page just erased is erased. -/
theorem Erased.pageErased {s t : State} (h : Erased s t) (hcfg : t.cfg = s.cfg) (ha : s.admission = none) :
    t.pageErased (s.pageOf s.ar) = true := by
  obtain ⟨hbase, -⟩ := admission_none ha
  have hbase : t.pageBase (s.pageOf s.ar) = s.ar.toNat := by simpa only [State.pageBase, hcfg] using hbase
  simp only [State.pageErased, List.all_eq_true, List.mem_range, beq_iff_eq, hbase, h.flash, hcfg]
  intro i hi
  rw [State.erasedAtAr, flashGet_flashWrite_inside _ _ _ _ (by simpa using hi), List.getElem?_replicate_of_lt hi]

theorem engineComplete_of_writing {s : State} {p : Nat} {d : List Byte} (h : s.fe = .writing p d true) :
    engineComplete s = { s with
      flash := flashWrite s.flash (s.pageBase p) d
      ftb := freeBytes s.draws s.cfg.pageSize, fe := .idle, draws := s.draws + 2 } := by
  simp only [engineComplete, h, if_true]

section
variable {s : State} (hv : s.cfg.valid = true)

/-! The last byte of the payload. -/

section
variable {t : State} {d : List Byte} {lo hi : Byte} (h : InBody s t (lo :: hi :: d)) (b : Byte)
  (hpb : s.pb.length = s.cfg.pageSize) (hd : d.length + 1 = s.cfg.pageSize)

include h hpb hd in
/-- With the last byte PB is the payload. -/
theorem InBody.pb_set_last : t.pb.set d.length b = d ++ [b] := by
  have hlen : (d ++ [b]).length = s.pb.length := by
    rw [List.length_append, List.length_singleton]
    omega
  rw [h.pb, pbReceived_set lo hi b (by omega), pbReceived_page lo hi hlen]

variable {a : Acc} (ha : checksum (d ++ [b]) = .next a)
include hv h hpb hd ha

/-- A matching checksum lets the command go on. -/
theorem InBody.last_match (hm : a.toNat % 65536 = (le16 lo hi).toNat) :
    ∃ u, byteStep (.host b) t = settle 3 u ∧ Validated s u (lo :: hi :: (d ++ [b])) (d ++ [b]) ∧ KeepsEngine t u := by
  have hset := h.pb_set_last b hpb hd
  have hx := (exec_writePage_wData (s := operandReceived b t) h.position).trans
    (writePageData_match (a := a) (by simpa [h.cfg] using hd) (by simpa [hset] using ha)
      (by simpa [h.ckRx, ckReceived] using hm))
  refine ⟨_, h.byteStep_eq hv hx, ?_, rfl, rfl⟩
  exact { h.toWriting.receives b with position := rfl, pb := by simpa using hset }

/-- Any other one is answered 'N', with the engine left as it is. -/
theorem InBody.last_mismatch (hm : a.toNat % 65536 ≠ (le16 lo hi).toNat) :
    ∃ u, byteStep (.host b) t = .next u ∧ Rejected s u (lo :: hi :: (d ++ [b])) ∧ KeepsEngine t u := by
  have hset := h.pb_set_last b hpb hd
  have hx := (exec_writePage_wData (s := operandReceived b t) h.position).trans
    (writePageData_mismatch (a := a) (by simpa [h.cfg] using hd) (by simpa [hset] using ha)
      (by simpa [h.ckRx, ckReceived] using hm))
  refine ⟨_, (h.byteStep_eq hv hx).trans (settle_ack 2 (by simp) (by simp [h.op, decodeOpcode])), ?_, ?_⟩
  · exact ⟨by simp [h.cfg], by simp [h.ar], by simp [h.written], by simp [h.got], by simp [h.out, ackByte],
      by simp [h.readEn], by simp⟩
  · exact ⟨by simp, by simp⟩

end

/-! Programming. -/

/-- A flash wait that is over goes on with WRITEPAGE. -/
theorem settle_writePage {t u : State} {p : ProgPhase} (n : Nat) (hs : t.seq = .wProg p) (hb : t.fe.busy = false)
    (hop : t.op = 0x57) (hx : writePageProgram p t = .next u) : settle (n + 1) t = settle n u := by
  have hexec : exec (decodeOpcode t.op) t = .next u := by
    rw [hop]
    exact (exec_writePage_wProg hs).trans hx
  rw [settle_program n hs hb, hexec, andThen_next]

/-- The end of the second flash wait, and the reply. -/
theorem settle_committed {t : State} (n : Nat) (hs : t.seq = .wProg .waitCommit) (hb : t.fe.busy = false)
    (hop : t.op = 0x57) : settle (n + 2) t = .next (finishCycle (byteSent (acknowledge true
      { t with readEn := true, ar := t.ar + BitVec.ofNat 16 t.cfg.pageSize }))) :=
  (settle_writePage (n + 1) hs hb hop (writePageProgram_committed hb)).trans
    (settle_ack n rfl (by simp [hop, decodeOpcode]))

variable {body d : List Byte} (hadm : s.admission = none)

include hv hadm in
/-- With the erase over the sequencer gets as far as the wait for the commit. -/
theorem Validated.settles {t : State} (h : Validated s t body d) (he : Erased s t)
    (hftb : s.ftb.length = s.cfg.pageSize) (hd : d.length = s.cfg.pageSize) (n : Nat) :
    ∃ u, settle (n + 1) t = .next u ∧ Committing s u body d := by
  obtain ⟨heven, -⟩ := cfg_facts hv
  have hbusy : t.fe.busy = false := busy_eq_false.2 he.engine
  have hpage : t.pageOf t.ar = s.pageOf s.ar := by simp only [State.pageOf, h.cfg, h.ar]
  have hx := writePageProgram_erased (s := t) (by rw [h.pb, h.cfg, hd]) (by rw [h.cfg]; exact heven)
    (by rw [h.cfg]; exact h.ftb hftb) hbusy
  rw [hpage, he.pageErased h.cfg hadm, h.pb] at hx
  refine ⟨_, (settle_writePage n h.position hbusy h.op hx).trans (settle_busy n (p := .waitCommit) rfl rfl), ?_⟩
  exact { h with ftb := fun _ => hd, readEn := rfl, position := rfl, engine := rfl, flash := he.flash }

include hv hadm in
/-- The commit's completion: the page is the payload, and the reply goes out. -/
theorem Committing.completes {t : State} (h : Committing s t body d) :
    ∃ u, byteStep .engine t = .next u ∧ Programmed s u body d := by
  obtain ⟨hbase, -⟩ := admission_none hadm
  have hbase : t.pageBase (s.pageOf s.ar) = s.ar.toNat := by simpa only [State.pageBase, h.cfg] using hbase
  have hstep := byteStep_engine (by rw [h.cfg]; exact hv) (by rw [h.engine]; rfl)
  rw [engineComplete_of_writing h.engine, hbase, h.flash] at hstep
  refine ⟨_, hstep.trans (settle_committed 1 ?_ ?_ ?_), ?_⟩
  · exact h.position
  · rfl
  · exact h.op
  · exact ⟨by simp, by simp [h.ar, h.cfg], by simp [h.got], by simp [h.out, ackByte], by simp, by simp, by simp⟩

end

end Sys2Proof.Machine
end

section
/-! The whole WRITEPAGE at byte level (44_command_dispatcher.md R206; 42_flash_programmer.md R142). -/

namespace Sys2Proof.Machine

theorem byteRun_append_next {e1 e2 : List ByteEvent} {s t : State} (h : byteRun e1 s = .next t) :
    byteRun (e1 ++ e2) s = byteRun e2 t := by
  rw [byteRun_append, h, andThen_next]

theorem byteRun_singleton (e : ByteEvent) (s : State) : byteRun [e] s = byteStep e s := by
  simp only [byteRun]
  cases byteStep e s <;> rfl

/-- The 16 result bits of the checksum (41_checksum.md R135). -/
theorem extractLsb'_eq_iff (a : Acc) (ck : Half) : a.extractLsb' 0 16 = ck ↔ a.toNat % 65536 = ck.toNat := by
  rw [← BitVec.toNat_inj, BitVec.extractLsb'_toNat, Nat.shiftRight_zero]

section
variable {s : State} (hv : s.cfg.valid = true)

include hv in
/-- Between body bytes the erase's completion is all that happens. -/
theorem InBody.byteStep_completes {t : State} {body : List Byte} (h : InBody s t body) (he : Erasing s t) :
    byteStep .engine t = .next (engineComplete t) := by
  obtain ⟨hl, -⟩ := bodyPosition_listening body
  rw [← (h.completes he).position] at hl
  rw [byteStep_engine (by rw [h.cfg]; exact hv) he.busy, settle_listening 3 hl]

variable (hs : s.seq = .idle) (hadm : s.admission = none) (hidle : s.fe = .idle) (hpb : s.pb.length = s.cfg.pageSize)
include hv hs hadm hidle hpb

/-- The opcode and part of the body. -/
theorem byteRun_writePage_body (body : List Byte) (hmore : body.length < s.cfg.pageSize + 2) :
    ∃ t, byteRun (hostBytes (0x57 :: body)) s = .next t ∧ InBody s t body ∧ Erasing s t := by
  obtain ⟨t0, hstep, h0, he0⟩ := byteStep_writePage hv hs hadm hidle
  obtain ⟨t, hrun, h, hk⟩ := h0.run hv hpb body (by simpa using hmore)
  exact ⟨t, (byteRun_host_next body hstep).trans hrun, h, he0.of_keeps hk⟩

variable {d : List Byte} {lo hi b : Byte} {a : Acc} (hd : d.length + 1 = s.cfg.pageSize)
  (ha : checksum (d ++ [b]) = .next a)
include hd ha

/-- A mismatch: the page is left erased, and nothing else has happened but the reply. -/
theorem byteRun_writePage_mismatch (hm : a.toNat % 65536 ≠ (le16 lo hi).toNat) :
    ∃ t, byteRun (hostBytes (0x57 :: lo :: hi :: (d ++ [b])) ++ [.engine]) s = .next t ∧
      Rejected s t (lo :: hi :: (d ++ [b])) ∧ Erased s t := by
  obtain ⟨t, hrun, h, he⟩ := byteRun_writePage_body hv hs hadm hidle hpb (lo :: hi :: d) (by simp; omega)
  obtain ⟨u, hstep, hrej, hk⟩ := h.last_mismatch hv b hpb hd ha hm
  have heu := he.of_keeps hk
  have hbytes : byteRun (hostBytes (0x57 :: lo :: hi :: (d ++ [b]))) s = .next u := by
    have hsplit : hostBytes (0x57 :: lo :: hi :: (d ++ [b])) = hostBytes (0x57 :: lo :: hi :: d) ++ [.host b] := by
      simp [hostBytes]
    rw [hsplit, byteRun_append_next hrun, byteRun_singleton, hstep]
  have hengine : byteStep .engine u = .next (engineComplete u) := by
    obtain ⟨hseq, -⟩ := engineComplete_keeps u
    rw [byteStep_engine (by rw [hrej.cfg]; exact hv) heu.busy, settle_listening 3 (by rw [hseq, hrej.position]; rfl)]
  refine ⟨_, by rw [byteRun_append_next hbytes, byteRun_singleton, hengine], ?_, heu.completes hrej.cfg hadm⟩
  rw [engineComplete_of_erasing heu.engine]
  exact { hrej with }

variable (hftb : s.ftb.length = s.cfg.pageSize) (hm : a.toNat % 65536 = (le16 lo hi).toNat)
include hftb hm

omit hs hidle in
/-- The last byte after the erase: programming gets to the wait for the commit. -/
theorem InBody.last_commits {t : State} (h : InBody s t (lo :: hi :: d)) (he : Erased s t) :
    ∃ u, byteStep (.host b) t = .next u ∧ Committing s u (lo :: hi :: (d ++ [b])) (d ++ [b]) := by
  obtain ⟨v, hstep, hval, hk⟩ := h.last_match hv b hpb hd ha hm
  obtain ⟨u, hsettle, hcom⟩ := hval.settles hv hadm (he.of_keeps hk) hftb (by simpa using hd) 2
  exact ⟨u, hstep.trans hsettle, hcom⟩

/-- The erase completes after the opcode and `bs` of the body, which `cs` and the last byte complete. -/
theorem byteRun_erase_within_body {bs cs : List Byte} (hbody : bs ++ cs = lo :: hi :: d) :
    ∃ t, byteRun (hostBytes (0x57 :: bs) ++ [.engine] ++ hostBytes (cs ++ [b])) s = .next t ∧
      Committing s t (lo :: hi :: (d ++ [b])) (d ++ [b]) := by
  have hlen := congrArg List.length hbody
  simp only [List.length_append, List.length_cons] at hlen
  obtain ⟨t, hrun, h, he⟩ := byteRun_writePage_body hv hs hadm hidle hpb bs (by omega)
  obtain ⟨u, hrun', hu, hk⟩ := (h.completes he).run hv hpb cs (by omega)
  rw [hbody] at hu
  obtain ⟨v, hstep, hcom⟩ := hu.last_commits hv hadm hpb hd ha hftb hm ((he.completes h.cfg hadm).of_keeps hk)
  refine ⟨v, ?_, hcom⟩
  have hsplit : hostBytes (cs ++ [b]) = hostBytes cs ++ [.host b] := by simp [hostBytes]
  have hengine : byteRun (hostBytes (0x57 :: bs) ++ [.engine]) s = .next (engineComplete t) := by
    rw [byteRun_append_next hrun, byteRun_singleton, h.byteStep_completes hv he]
  rw [byteRun_append_next hengine, hsplit, byteRun_append_next hrun', byteRun_singleton, hstep]

/-- The erase completes after the whole body. -/
theorem byteRun_erase_after_body :
    ∃ t, byteRun (hostBytes (0x57 :: lo :: hi :: (d ++ [b])) ++ [.engine]) s = .next t ∧
      Committing s t (lo :: hi :: (d ++ [b])) (d ++ [b]) := by
  obtain ⟨t, hrun, h, he⟩ := byteRun_writePage_body hv hs hadm hidle hpb (lo :: hi :: d) (by simp; omega)
  obtain ⟨u, hstep, hval, hk⟩ := h.last_match hv b hpb hd ha hm
  have heu := he.of_keeps hk
  rw [settle_busy 3 hval.position heu.busy] at hstep
  obtain ⟨v, hsettle, hcom⟩ :=
    (hval.completes heu).settles hv hadm (heu.completes hval.cfg hadm) hftb (by simpa using hd) 2
  refine ⟨v, ?_, hcom⟩
  have hsplit : hostBytes (0x57 :: lo :: hi :: (d ++ [b])) = hostBytes (0x57 :: lo :: hi :: d) ++ [.host b] := by
    simp [hostBytes]
  have hbytes : byteRun (hostBytes (0x57 :: lo :: hi :: (d ++ [b]))) s = .next u := by
    rw [hsplit, byteRun_append_next hrun, byteRun_singleton, hstep]
  rw [byteRun_append_next hbytes, byteRun_singleton, byteStep_engine (by rw [hval.cfg]; exact hv) heu.busy, hsettle]

/-- Wherever the erase completes after the opcode, the whole command gets to the wait for the commit. -/
theorem byteRun_erase_anywhere {k : Nat} (h1 : 1 ≤ k) (h2 : k ≤ s.cfg.pageSize + 3) :
    ∃ t, byteRun (hostBytes ((0x57 :: lo :: hi :: (d ++ [b])).take k) ++ [.engine] ++
        hostBytes ((0x57 :: lo :: hi :: (d ++ [b])).drop k)) s = .next t ∧
      Committing s t (lo :: hi :: (d ++ [b])) (d ++ [b]) := by
  obtain ⟨j, rfl⟩ := Nat.exists_eq_add_of_le' h1
  rw [List.take_succ_cons, List.drop_succ_cons, ← List.cons_append, ← List.cons_append]
  by_cases hj : j ≤ (lo :: hi :: d).length
  · rw [List.take_append_of_le_length hj, List.drop_append_of_le_length hj]
    exact byteRun_erase_within_body hv hs hadm hidle hpb hd ha hftb hm (List.take_append_drop j _)
  · have hall : (lo :: hi :: d ++ [b]).length ≤ j := by
      rw [List.length_append, List.length_singleton]
      omega
    rw [List.take_of_length_le hall, List.drop_of_length_le hall]
    simpa [hostBytes] using byteRun_erase_after_body hv hs hadm hidle hpb hd ha hftb hm

end

/-- A page's payload ends with a byte. -/
theorem payload_eq_append {c : Cfg} {d : List Byte} (hv : c.valid = true) (hd : d.length = c.pageSize) :
    ∃ l b, d = l ++ [b] ∧ l.length + 1 = c.pageSize := by
  obtain ⟨-, hpage, -⟩ := cfg_facts hv
  obtain rfl | ⟨l, b, rfl⟩ := d.eq_nil_or_concat
  · rw [List.length_nil] at hd
    omega
  · exact ⟨l, b, List.concat_eq_append, by simpa using hd⟩

/-- What the erase and the programming of `d` leave outside the page. -/
theorem flashGet_erasedAtAr_outside {s : State} {x : Nat} (hx : x < s.ar.toNat ∨ s.ar.toNat + s.cfg.pageSize ≤ x) :
    flashGet s.erasedAtAr x = flashGet s.flash x :=
  flashGet_flashWrite_outside _ _ _ _ (by rwa [List.length_replicate])

theorem flashGet_erasedAtAr_inside {s : State} {i : Nat} (hi : i < s.cfg.pageSize) :
    flashGet s.erasedAtAr (s.ar.toNat + i) = some s.cfg.erasedByte := by
  rw [State.erasedAtAr, flashGet_flashWrite_inside _ _ _ _ (by rwa [List.length_replicate]),
    List.getElem?_replicate_of_lt hi]

/-- Settles O26: the run gets to the wait for the commit wherever the erase completes, and the commit writes the payload
over the erased page. -/
theorem matchingWritePageProgramsThePage : Obligations.MatchingWritePageProgramsThePage := by
  intro s d a k hv hs hadm hidle hpb hftb hd ha h1 h2
  obtain ⟨l, b, rfl, hl⟩ := payload_eq_append hv hd
  have hm : a.toNat % 65536 = (le16 (lowByte (a.extractLsb' 0 16)) (highByte (a.extractLsb' 0 16))).toNat := by
    rw [le16_low_high, ← extractLsb'_eq_iff]
  obtain ⟨t, hrun, hcom⟩ := byteRun_erase_anywhere hv hs hadm hidle hpb hl ha hftb hm h1 h2
  obtain ⟨u, hstep, hdone⟩ := hcom.completes hv hadm
  refine ⟨u, ?_, fun i hi => ?_, fun x hx => ?_, ?_, hdone.out, hdone.got, hdone.readEn, hdone.engine, hdone.position⟩
  · exact (byteRun_append_next hrun).trans ((byteRun_singleton _ _).trans hstep)
  · rw [hdone.flash]
    exact flashGet_flashWrite_inside _ _ _ _ (hi.trans_eq hd.symm)
  · rw [hdone.flash, flashGet_flashWrite_outside _ _ _ _ (by rwa [hd]), flashGet_erasedAtAr_outside hx]
  · rw [hdone.ar, toNat_add_page]

/-- Settles O27: the mismatch is answered while the erase is in flight, and its completion leaves the page erased. -/
theorem mismatchingWritePageErasesThePage : Obligations.MismatchingWritePageErasesThePage := by
  intro s ck d a hv hs hadm hidle hpb hd ha hck
  obtain ⟨l, b, rfl, hl⟩ := payload_eq_append hv hd
  have hm : a.toNat % 65536 ≠ (le16 (lowByte ck) (highByte ck)).toNat := by
    rwa [le16_low_high, ne_eq, ← extractLsb'_eq_iff]
  obtain ⟨t, hrun, hrej, hengine, hflash⟩ := byteRun_writePage_mismatch hv hs hadm hidle hpb hl ha hm
  obtain ⟨-, hwritten⟩ := admission_none hadm
  refine ⟨t, hrun, fun i hi => ?_, fun x hx => ?_, hrej.ar, hrej.written.trans hwritten, hrej.out, hrej.got,
    hrej.readEn, hengine, hrej.position⟩
  · rw [hflash, flashGet_erasedAtAr_inside hi]
  · rw [hflash, flashGet_erasedAtAr_outside hx]

end Sys2Proof.Machine
end

section
/-! Frames back to back on the line (30_encoding.md R77; 40_serial_transceiver.md R112, R113). -/

namespace Sys2Proof.Machine

/-- The tick at which frame `j` begins, of frames sent back to back from tick `ts`. -/
def frameTick (c : Cfg) (ts j : Nat) : Nat := ts + 10 * j * c.bitTicks

theorem frameTick_succ (c : Cfg) (ts j : Nat) : frameTick c ts (j + 1) = frameTick c ts j + 10 * c.bitTicks := by
  simp only [frameTick]
  ring

/-- Counted from the second frame on, frame `j + 1` is frame `j`. -/
theorem frameTick_shift (c : Cfg) (ts j : Nat) : frameTick c (ts + 10 * c.bitTicks) j = frameTick c ts (j + 1) := by
  simp only [frameTick]
  ring

/-- A frame's changes come before its end. -/
theorem frameEdges_before_end {c : Cfg} {ts p : Nat} {b : Byte} {e : Nat × Bool} (h : e ∈ frameEdges c ts p b) :
    e.1 ≤ ts + 10 * p := by
  obtain ⟨k, hk, rfl⟩ := List.mem_map.1 h
  exact Nat.add_le_add_left (Nat.mul_le_mul_right p (List.mem_range.1 hk).le) ts

/-- Bit period `k` of frame `j`. -/
theorem levelAt_framesFrom {c : Cfg} (hp : 0 < c.bitTicks) {bytes : List Byte} {j k t : Nat} {v : Byte} (hk : k < 10) :
    ∀ {ts : Nat} {cur : Bool}, bytes[j]? = some v → frameTick c ts j + k * c.bitTicks ≤ t →
      t < frameTick c ts j + (k + 1) * c.bitTicks → levelAt cur (framesFrom c ts bytes) t = frameLevel c v k := by
  have hlast : (k + 1) * c.bitTicks ≤ 10 * c.bitTicks := Nat.mul_le_mul_right _ hk
  induction bytes generalizing j with
  | nil => intro ts cur hj; cases hj
  | cons b rest ih =>
    intro ts cur hj h1 h2
    cases j with
    | zero =>
      cases hj
      have hzero : frameTick c ts 0 = ts := by simp [frameTick]
      rw [hzero] at h1 h2
      exact frameEdges_at c ts c.bitTicks _ hp _ cur k t hk h1 (.inr h2) (framesFrom_before c _ rest t (by omega))
    | succ j =>
      rw [← frameTick_shift] at h1 h2
      have hframe : ts + 10 * c.bitTicks ≤ t := by
        have : ts + 10 * c.bitTicks ≤ frameTick c (ts + 10 * c.bitTicks) j := Nat.le_add_right _ _
        omega
      rw [framesFrom, levelAt_append fun e he => (frameEdges_before_end he).trans hframe]
      exact ih hj h1 h2

section
variable {w : State} {ts : Nat} {bytes : List Byte} (hv : w.cfg.valid = true)
  (hline : w.inp.rxd = framesFrom w.cfg ts bytes)
include hline

/-- Before the first frame the line is idle. -/
theorem idle_before_frames : w.IdleOnLine w.now ts := fun t _ ht => by
  rw [State.rxdAt, hline]
  exact levelAt_before (framesFrom_before w.cfg ts bytes t ht)

include hv

/-- Each byte's frame is on the line at its place. -/
theorem frameOnLine_of_frames {j : Nat} {v : Byte} (hj : bytes[j]? = some v) :
    w.FrameOnLine (frameTick w.cfg ts j) w.cfg.bitTicks v := fun k hk t h1 h2 => by
  have hpos : 0 < w.cfg.bitTicks := (halfBitTicks_lt hv).pos
  rw [State.rxdAt, hline]
  exact levelAt_framesFrom hpos hk hj h1 h2

/-- From the stop sample of one frame to the next frame the line is idle. -/
theorem idle_between_frames {j : Nat} {v : Byte} (hj : bytes[j]? = some v) :
    w.IdleOnLine (sampleTick w.cfg (frameTick w.cfg ts j) 9) (frameTick w.cfg ts (j + 1)) := fun t h1 h2 => by
  rw [frameTick_succ] at h2
  rw [sampleTick] at h1
  exact frameOnLine_of_frames hv hline hj 9 (by omega) t (by omega) h2

end

/-- At the block's own bit period every sample falls into its own bit (R113). -/
theorem samplingMeets_own {c : Cfg} (hv : c.valid = true) : samplingMeets c c.bitTicks := fun k _ => by
  have hhalf := halfBitTicks_lt hv
  rw [Nat.succ_mul]
  omega

/-- The stop sample of a frame comes before the next frame. -/
theorem sampleTick_le_next_frame {c : Cfg} (hv : c.valid = true) (ts j : Nat) :
    sampleTick c (frameTick c ts j) 9 ≤ frameTick c ts (j + 1) := by
  have hhalf := halfBitTicks_lt hv
  rw [frameTick_succ, sampleTick]
  omega

/-- Eleven steps sample a frame, and the twelfth is what the command makes of the byte (R112). -/
theorem run_frame {s : State} {ts T : Nat} {v : Byte} (hv : s.cfg.valid = true) (hideal : idealTiming s.cfg)
    (hl : s.seq.listening = true) (hrx : s.loc.rx = .hunt) (hts : s.now ≤ ts) (hidle : s.IdleOnLine s.now ts)
    (hf : s.FrameOnLine ts s.cfg.bitTicks v) (hT : sampleTick s.cfg ts 9 ≤ T) (hu : s.UndisturbedUntil T) :
    ∃ u, Along s u (sampleTick s.cfg ts 9) T ∧ u.rxsr = v ∧
      ∀ x, runTurn (received u) = .next x → Host.Core.run core 12 s = .next x := by
  have hm := samplingMeets_own hv
  obtain ⟨t3, hrun3, h3⟩ := run_to_first_bit hf hm hv hideal hl hT hrx hts hidle hu
  obtain ⟨t, hrun8, h, hbits⟩ := run_data_bits hf hm hv hideal hl hT h3 le_rfl
  have hrun : Host.Core.run core 11 s = .next t := by rw [run_add 3 8 s t3 hrun3, hrun8]
  have halong := h.at_due hT
  have hstop : (advanceTo (sampleTick s.cfg ts 9) t).rxdAt (sampleTick s.cfg ts 9) = t.cfg.stopLevel := by
    rw [halong.rxdAt_eq, rxdAt_sampleTick hf hm (by omega), h.along.cfg]
    rfl
  refine ⟨_, halong, hbits.trans (shiftIn_frame s.cfg v t3.rxsr), fun x hx => run_snoc hrun ?_⟩
  rw [h.step_at_due hv hl nofun hT, recvTurn_stop (s := advanceTo _ t) h.rx hstop]
  exact hx

end Sys2Proof.Machine
end

section
/-! LOADADDR on the wire (44_command_dispatcher.md R197; 40_serial_transceiver.md R105). -/

namespace Sys2Proof.Machine

/-- LOADADDR, begun in `s`, listens at position `p` in `w` since tick `n`, its opcode and `body` received. -/
structure AddrListening (s w : State) (p : Seq) (body : List Byte) (n T : Nat) : Prop where
  cfg : w.cfg = s.cfg
  op : w.op = 0x41
  position : w.seq = p
  rx : w.loc.rx = .hunt
  now : w.now = n
  rxd : w.inp.rxd = s.inp.rxd
  got : w.hist.got = s.hist.got ++ 0x41 :: body
  out : w.hist.out = s.hist.out
  free : w.UndisturbedUntil T

/-- In S_IDLE the byte 'A' is dispatched. -/
theorem received_loadAddr {s u : State} {n T : Nat} (h : Along s u n T) (hs : s.seq = .idle) (hb : u.rxsr = 0x41) :
    ∃ w, runTurn (received u) = .next w ∧ AddrListening s w (.addr 0) [] n T := by
  have hidle : u.seq = .idle := h.seq.trans hs
  have hx : runTurn (received u) = exec .loadAddr { recvDone u with op := 0x41 } := by
    rw [received, if_pos hidle, hb]
    rfl
  refine ⟨_, hx.trans (exec_loadAddr_idle hidle), h.cfg, rfl, rfl, rfl, h.now, h.rxd, ?_, ?_, ?_⟩
  · simp [hb, h.hist]
  · simp [h.hist]
  · exact undisturbed_of_position h.free rfl (by simp [hidle]) (by simp) rfl rfl rfl rfl rfl

section
variable {s w u : State} {n m T : Nat}

/-- A byte received in the body of LOADADDR. -/
theorem AddrListening.runTurn_received {p : Seq} {body : List Byte} (h : AddrListening s w p body n T)
    (hu : Along w u m T) (hp : p ≠ .idle) : runTurn (received u) = exec .loadAddr (recvDone u) := by
  have hne : u.seq ≠ .idle := by
    rw [hu.seq, h.position]
    exact hp
  rw [received, if_neg hne, runTurn, hu.op, h.op]
  rfl

/-- The frame after the last one received. -/
theorem AddrListening.next_frame {p : Seq} {body bytes : List Byte} {ts j : Nat} {b v : Byte}
    (h : AddrListening s w p body (sampleTick s.cfg (frameTick s.cfg ts j) 9) T) (hv : s.cfg.valid = true)
    (hideal : idealTiming s.cfg) (hp : p.listening = true) (hline : s.inp.rxd = framesFrom s.cfg ts bytes)
    (hb : bytes[j]? = some b) (hnext : bytes[j + 1]? = some v)
    (hT : sampleTick s.cfg (frameTick s.cfg ts (j + 1)) 9 ≤ T) :
    ∃ u, Along w u (sampleTick s.cfg (frameTick s.cfg ts (j + 1)) 9) T ∧ u.rxsr = v ∧
      ∀ x, runTurn (received u) = .next x → Host.Core.run core 12 w = .next x := by
  have hnow := h.now
  rw [← h.cfg] at hv hideal hline hT hnow ⊢
  rw [← h.rxd] at hline
  exact run_frame hv hideal (by rw [h.position]; exact hp) h.rx (hnow ▸ sampleTick_le_next_frame hv ts j)
    (hnow ▸ idle_between_frames hv hline hb) (frameOnLine_of_frames hv hline hnext) hT h.free

/-- The low byte is kept. -/
theorem AddrListening.low (h : AddrListening s w (.addr 0) [] n T) (hu : Along w u m T) :
    ∃ x, runTurn (received u) = .next x ∧ AddrListening s x (.addr 1) [u.rxsr] m T ∧ x.loc.aLo = u.rxsr := by
  have hseq : u.seq = .addr 0 := hu.seq.trans h.position
  refine ⟨_, (h.runTurn_received hu nofun).trans (exec_loadAddr_addr_zero (s := recvDone u) hseq),
    ⟨hu.cfg.trans h.cfg, hu.op.trans h.op, rfl, rfl, hu.now, hu.rxd.trans h.rxd, ?_, ?_, ?_⟩, rfl⟩
  · simp [hu.hist, h.got]
  · simp [hu.hist, h.out]
  · exact undisturbed_of_position hu.free rfl (by simp [hseq]) (by simp) rfl rfl rfl rfl rfl

/-- The high byte completes AR, and the reply begins. -/
theorem AddrListening.high {body : List Byte} (h : AddrListening s w (.addr 1) body n T) (hu : Along w u m T) :
    runTurn (received u) = .next (loadAddrDone (recvDone u)) ∧ (loadAddrDone (recvDone u)).UndisturbedUntil T := by
  have hseq : u.seq = .addr 1 := hu.seq.trans h.position
  refine ⟨(h.runTurn_received hu nofun).trans (exec_loadAddr_addr_one (s := recvDone u) hseq), ?_⟩
  exact undisturbed_of_position hu.free rfl (by simp [hseq]) (by simp [loadAddrDone]) rfl rfl rfl rfl rfl

end

/-- Nine steps send the reply frame's periods, and the tenth ends the cycle (R105, R193). -/
theorem run_reply {s : State} (hv : s.cfg.valid = true) (hideal : idealTiming s.cfg) (hs : s.seq = .ack)
    (hop : decodeOpcode s.op ≠ .reset) (h0 : s.loc.txBit = 0) (hd : s.now ≤ s.loc.due)
    (hline : s.txd = .drive (frameLevel s.cfg s.loc.txByte 0))
    (hu : s.UndisturbedUntil (s.loc.due + 9 * s.cfg.bitTicks)) :
    ∃ t, Host.Core.run core 10 s = .next t ∧ t.seq = .idle ∧ KeepsAddress s t ∧ t.hist.got = s.hist.got ∧
      t.hist.out = s.hist.out ++ [s.loc.txByte] ∧ t.now = s.loc.due + 9 * s.cfg.bitTicks ∧ t.wd.cnt = 0 ∧
      t.txd = .drive s.cfg.stopLevel := by
  obtain ⟨(t : State), hrun, h⟩ := run_to_period hv hideal hs h0 hd hline hu (k := 9) (by omega)
  have hstep := h.step_at_due hv hs hd h.due.le
  rw [sendTurn_last (s := advanceTo t.loc.due t) h.bit] at hstep
  have hexec : exec (decodeOpcode t.op) (sendDone (advanceTo t.loc.due t)) =
      .next (finishCycle (sendDone (advanceTo t.loc.due t))) :=
    exec_ack (by rw [h.along.op]; exact hop) (h.along.seq.trans hs)
  refine ⟨_, run_snoc hrun (hstep.trans hexec), rfl, { h.along.addr with }, ?_, ?_, h.due, rfl, h.line⟩
  · simp [h.along.hist]
  · simp [h.along.hist, h.byte]

/-- Settles O42: three frames of twelve steps each and a reply of ten. -/
theorem loadAddrOnTheWire : Obligations.LoadAddrOnTheWire := by
  intro s ts a hv hideal hs hrx hts hline hu
  have hhalf := halfBitTicks_lt hv
  have hfirst : frameTick s.cfg ts 0 = ts := by simp [frameTick]
  have hT {j : Nat} (hj : j ≤ 2) : sampleTick s.cfg (frameTick s.cfg ts j) 9 ≤ ts + 40 * s.cfg.bitTicks :=
    (sampleTick_le_next_frame hv ts j).trans (Nat.add_le_add_left (Nat.mul_le_mul_right _ (by omega)) ts)
  obtain ⟨u0, h0, hb0, hrun0⟩ := run_frame hv hideal (by rw [hs]; rfl) hrx (hts.trans_eq hfirst.symm)
    (by rw [hfirst]; exact idle_before_frames hline) (frameOnLine_of_frames hv hline (j := 0) rfl) (hT (by omega)) hu
  obtain ⟨w0, hturn0, hw0⟩ := received_loadAddr h0 hs hb0
  obtain ⟨u1, h1, hb1, hrun1⟩ := hw0.next_frame hv hideal rfl hline rfl (j := 0) rfl (hT (by omega))
  obtain ⟨w1, hturn1, hw1, hlow⟩ := hw0.low h1
  obtain ⟨u2, h2, hb2, hrun2⟩ := hw1.next_frame hv hideal rfl hline rfl (j := 1) rfl (hT (by omega))
  obtain ⟨hturn2, hfree⟩ := hw1.high h2
  have hcfg : u2.cfg = s.cfg := h2.cfg.trans hw1.cfg
  have hop : u2.op = 0x41 := h2.op.trans hw1.op
  rw [← hcfg] at hv hideal
  have hdue : (loadAddrDone (recvDone u2)).loc.due = u2.now + u2.cfg.bitTicks := delay_due_ideal hideal
  have hend : (loadAddrDone (recvDone u2)).loc.due + 9 * u2.cfg.bitTicks =
      ts + 39 * s.cfg.bitTicks + s.cfg.halfBitTicks := by
    rw [hdue, h2.now, hcfg, sampleTick, frameTick]
    omega
  obtain ⟨t, hrun3, hidle, haddr, hgot, hout, hnow, hcnt, htxd⟩ := run_reply (s := loadAddrDone (recvDone u2)) hv hideal
    rfl (by simp [loadAddrDone, hop, decodeOpcode]) rfl (by rw [hdue]; exact Nat.le_add_right _ _) rfl
    (undisturbed_mono hfree (hend.trans_le (by omega)))
  refine ⟨t, ?_, hidle, ?_, haddr.written, ?_, ?_, hnow.trans hend, hcnt, ?_⟩
  · rw [run_add 12 34 _ _ (hrun0 _ hturn0), run_add 12 22 _ _ (hrun1 _ hturn1),
      run_add 12 10 _ _ (hrun2 _ hturn2), hrun3]
  · have har : t.ar = le16 u2.loc.aLo u2.rxsr := haddr.ar
    rw [har, h2.aLo, hlow, hb1, hb2]
    exact le16_low_high a
  · rw [hout]
    simp [loadAddrDone, ackByte, h2.hist, hw1.out]
  · rw [hgot]
    simp [loadAddrDone, h2.hist, hw1.got, hb1, hb2]
    rfl
  · rw [htxd]
    simp [loadAddrDone, hcfg]

end Sys2Proof.Machine
end

section
/-! The hardware reset as an event (60_exceptions.md R220, R221, R229; 10_state.md R44, R45): what it leaves of the flags and
of flash, and its precedence when it comes from outside. -/

namespace Sys2Proof.Machine

/-- A power-on's clearing comes first, then every cause present sets its flag (R221(a), R229). -/
theorem latch_flags (rc causes : ResetFlags) :
    (rc.latch causes).ext = (causes.ext || (!causes.por && rc.ext)) ∧
    (rc.latch causes).wdt = (causes.wdt || (!causes.por && rc.wdt)) ∧
    (rc.latch causes).por = (causes.por || rc.por) ∧
    (rc.latch causes).bor = (causes.bor || (!causes.por && rc.bor)) := by
  unfold ResetFlags.latch
  cases hpor : causes.por
  · simp [ResetFlags.union, hpor, Bool.or_comm]
  · simp [ResetFlags.union, ResetFlags.none, hpor]

/-- With an operation in flight a reset writes its page and nothing else. -/
theorem flashAfterReset_inFlight {s : State} {p : Nat}
    (h : s.fe = .erasing p ∨ ∃ snapshot clean, s.fe = .writing p snapshot clean) :
    s.flashAfterReset = flashWrite s.flash (s.pageBase p) (freeBytes s.draws s.cfg.pageSize) := by
  obtain hfe | ⟨snapshot, clean, hfe⟩ := h
  · simp only [State.flashAfterReset, hfe]
  · simp only [State.flashAfterReset, hfe]

/-- Settles O52: the flags are `latch`'s, and flash is rewritten in the page in flight only. -/
theorem hardwareResetTakesControl : Obligations.HardwareResetTakesControl := by
  intro s causes
  obtain ⟨hext, hwdt, hpor, hbor⟩ := latch_flags s.rc causes
  refine ⟨rfl, rfl, rfl, rfl, rfl, rfl, rfl, hext, hwdt, hpor, hbor, flashAfterReset_idle, fun p a hfe hout => ?_⟩
  change flashGet s.flashAfterReset a = flashGet s.flash a
  rw [flashAfterReset_inFlight hfe]
  exact flashGet_flashWrite_outside _ _ _ _ (by rwa [freeBytes_length])

/-! A reset from outside (R220, R229). -/

/-- The instant of the environment's next reset is its own, if that is not past. -/
theorem envDue_of_resets {s : State} {e : EnvReset} {rest : List EnvReset} (h : s.inp.resets = e :: rest)
    (hnow : s.now ≤ e.time) : s.envDue = some e.time := by
  simp [State.envDue, h, hnow]

theorem earlier_eq_left {b : Option Nat} {q : Nat} (h : ∀ w, b = some w → q < w) : earlier (some q) b = some q := by
  cases b with
  | none => rfl
  | some w => exact congrArg some (Nat.min_eq_left (h w rfl).le)

theorem ResetFlags.union_none (a : ResetFlags) : a.union ResetFlags.none = a := by
  simp [ResetFlags.union, ResetFlags.none]

/-- The environment's reset before the watchdog's expiry has the environment's causes only. -/
theorem causesAt_envDue {s : State} {q : Nat} (he : s.envDue = some q) (hw : s.wdtDue ≠ some q) :
    s.causesAt q = s.envCauses := by
  rw [State.causesAt, if_pos he, if_neg hw, ResetFlags.union_none]

/-- A reset of the environment that happens is no longer to come. -/
theorem resetAt_resets {s : State} {q : Nat} (he : s.envDue = some q) :
    (resetAt q s).inp.resets = s.inp.resets.drop 1 := if_pos he

/-- Settles O53: no other reset is due, and at one instant a reset comes before the engine and the sequencer. -/
theorem outsideResetPreemptsEverything : Obligations.OutsideResetPreemptsEverything := by
  intro s e rest hv hres hnow hwdt heng hseq
  have henv := envDue_of_resets hres hnow
  have hnext : earlier s.envDue s.wdtDue = some e.time := by rw [henv, earlier_eq_left hwdt]
  have hcauses : s.causesAt e.time = e.flags := by
    rw [causesAt_envDue henv fun h => (hwdt _ h).false, State.envCauses, hres]
  refine ⟨_, step_of_reset hv hnext heng hseq, resetAt_seq _ s, rfl, ?_, ?_, fun hidle => flashAfterReset_idle hidle⟩
  · rw [resetAt_rc, hcauses]
  · rw [resetAt_resets henv, hres]
    rfl

end Sys2Proof.Machine
end

section
/-! Control in the application (60_exceptions.md R237; 70_reset_and_hazards.md R259): how it gets there and how it leaves. -/

namespace Sys2Proof.Machine

/-- The sequencer's turn is ResetGuard, or it does not go to S_APP. -/
theorem seqTurn_resetGuard_or_ne_app {s t : State} (hp : s.seq ≠ .app ∧ s.seq ≠ .spin)
    (h : runTurn (seqTurn s) = .next t) : (s.seq = .guard ∧ t = resetGuard s) ∨ t.seq ≠ .app := by
  obtain hguard | ⟨-, -, rfl⟩ | ⟨-, -, hx⟩ | ⟨p, -, hx⟩ | ⟨-, hr⟩ | ⟨-, hx⟩ | ⟨-, -, hx⟩ := seqTurn_next hp h
  · exact .inl hguard
  · exact .inr hp.1
  · exact .inr (exec_seq_ne hx).2
  · exact .inr (exec_seq_ne hx).2
  · right
    obtain rfl | rfl | rfl | ⟨i, rfl⟩ | rfl := hr
    · exact hp.1
    · obtain ⟨hseq, -⟩ := recvPoll_keeps_most s
      exact hseq ▸ hp.1
    · obtain ⟨hseq, -⟩ := recvStart_keeps_most s
      exact hseq ▸ hp.1
    · exact hp.1
    · exact hp.1
  · exact .inr (exec_seq_ne hx).2
  · exact .inr (exec_seq_ne hx).2

/-- ResetGuard hands control over only where RC.EXT is clear (43 R174). -/
theorem resetGuard_to_app {s : State} (h : (resetGuard s).seq = .app) : s.rc.ext = false := by
  by_contra hext
  rw [resetGuard, if_pos (Bool.not_eq_false _ ▸ hext)] at h
  cases h

theorem resets_of_envDue_none {s : State} (h : s.envDue = none) : s.inp.resets = [] := by
  simpa [State.envDue] using h

/-- In S_APP of a good state the engine has no event: nothing is in flight there. -/
theorem engineDue_app {s : State} (h : s.BootOk) (hs : s.seq = .app) : s.engineDue = none := by
  simp only [State.BootOk, hs] at h
  obtain ⟨hidle, -⟩ := h
  exact engineDue_idle hidle

/-- The step that enters S_APP is ResetGuard's, and it keeps flash and the histories. -/
theorem step_enters_app {s t : State} (hstep : step s = .next t) (ht : t.seq = .app) (hs : s.seq ≠ .app) :
    s.seq = .guard ∧ s.rc.ext = false ∧ t.flash = s.flash ∧ t.hist = s.hist := by
  obtain ⟨-, ⟨q, -, rfl⟩ | ⟨q, -, rfl⟩ | ⟨q, -, hp, hx⟩ | ⟨-, rfl⟩⟩ := step_next_cases hstep
  · cases (resetAt_seq q s).symm.trans ht
  · obtain ⟨hseq, -⟩ := engineComplete_keeps (advanceTo q s)
    exact absurd (hseq.symm.trans ht) hs
  · have hflash := seqTurn_flash (s := advanceTo q s) hp hx
    obtain ⟨hguard, rfl⟩ | hne := seqTurn_resetGuard_or_ne_app (s := advanceTo q s) hp hx
    · obtain ⟨hhist, -⟩ := resetGuard_keeps_received (advanceTo q s)
      exact ⟨hguard, resetGuard_to_app (s := advanceTo q s) ht, hflash, hhist⟩
    · exact absurd ht hne
  · exact absurd ht hs

/-- From S_APP with nothing in flight the step is a reset, or nothing is to come and the state stays. -/
theorem step_from_app {s t : State} (hboot : s.BootOk) (hstep : step s = .next t) (hs : s.seq = .app) :
    t.seq = .guard ∨ (t = s ∧ s.inp.resets = []) := by
  obtain ⟨-, ⟨q, -, rfl⟩ | ⟨q, hn, -⟩ | ⟨q, -, hp, -⟩ | ⟨hn, rfl⟩⟩ := step_next_cases hstep
  · exact .inl (resetAt_seq q s)
  · obtain ⟨ha, -⟩ | ⟨-, hd, -⟩ | ⟨ha, -⟩ := nextAgent_cases hn
    · cases ha
    · cases (engineDue_app hboot hs).symm.trans hd
    · cases ha
  · exact absurd hs hp.1
  · obtain ⟨henv, -⟩ := nextAgent_none hn
    exact .inr ⟨rfl, resets_of_envDue_none henv⟩

/-- Settles O57: entry and exit, each over every step. -/
theorem theApplicationIsEnteredOnlyByResetGuard : Obligations.TheApplicationIsEnteredOnlyByResetGuard :=
  fun _ _ hboot hstep => ⟨step_enters_app hstep, step_from_app hboot hstep⟩

end Sys2Proof.Machine
end

section
/-! Where a good state stops, and where it rests (60_exceptions.md R219; 00_scope.md R15; 43_reset_guard_watchdog.md R181). -/

namespace Sys2Proof.Machine

/-! An action at its command's own position stops at WRITEPAGE's dispatch only. -/

/-- The last payload byte's validation always comes to a result: a page has a checksum. -/
theorem writePageData_goes_on {s : State} (i : Nat) (hv : s.cfg.valid = true) (hpb : s.pb.length = s.cfg.pageSize) :
    ∃ t, writePageData i s = .next t := by
  obtain ⟨heven, -, hle, -⟩ := cfg_facts hv
  have hlen : (s.pb.set i s.rxsr).length = s.cfg.pageSize := by rw [List.length_set, hpb]
  unfold writePageData
  split
  · exact ⟨_, rfl⟩
  · rw [writePageValidate, checksum_even (by rw [hlen, heven]) (by rw [hlen]; omega)]
    dsimp only
    split
    · exact ⟨_, rfl⟩
    · exact ⟨_, rfl⟩

/-- Programming never faults: while the engine is busy it waits, and a page's words all fit. -/
theorem writePageProgram_goes_on {s : State} (p : ProgPhase) (hv : s.cfg.valid = true)
    (hpb : s.pb.length = s.cfg.pageSize) (hftb : s.ftb.length = s.cfg.pageSize) :
    ∃ t, writePageProgram p s = .next t := by
  obtain ⟨heven, -⟩ := cfg_facts hv
  cases hb : s.fe.busy with
  | true => exact ⟨s, writePageProgram_busy p hb⟩
  | false =>
    cases p with
    | waitErase => exact ⟨_, writePageProgram_erased hpb heven hftb hb⟩
    | waitCommit => exact ⟨_, writePageProgram_committed hb⟩

/-- An action at a position of its command goes on, unless it is WRITEPAGE's dispatch. -/
theorem exec_goes_on_or_dispatch {i : Instr} {s : State} (ha : actsAt i s.seq = true) (hv : s.cfg.valid = true)
    (hpb : s.pb.length = s.cfg.pageSize) (hftb : s.ftb.length = s.cfg.pageSize) :
    (∃ t, exec i s = .next t) ∨ (i = .writePage ∧ s.seq = .idle) := by
  generalize hs : s.seq = p at ha
  unfold actsAt at ha
  split at ha
  case h_1 => exact .inl ⟨_, exec_identify_idle hs⟩
  case h_2 => exact .inl ⟨_, exec_identify_ident hs⟩
  case h_3 => exact .inl ⟨_, exec_ack nofun hs⟩
  case h_4 => exact .inl ⟨_, exec_loadAddr_idle hs⟩
  case h_5 k =>
    obtain rfl | rfl : k = 0 ∨ k = 1 := by omega
    · exact .inl ⟨_, exec_loadAddr_addr_zero hs⟩
    · exact .inl ⟨_, exec_loadAddr_addr_one hs⟩
  case h_6 => exact .inl ⟨_, exec_ack nofun hs⟩
  case h_7 => exact .inr ⟨rfl, rfl⟩
  case h_8 => exact .inl ⟨_, exec_writePage_wCk hs⟩
  case h_9 i => exact .inl (exec_writePage_wData hs ▸ writePageData_goes_on i hv hpb)
  case h_10 p => exact .inl (exec_writePage_wProg hs ▸ writePageProgram_goes_on p hv hpb hftb)
  case h_11 => exact .inl ⟨_, exec_ack nofun hs⟩
  case h_12 => exact .inl ⟨_, exec_reset_idle hs⟩
  case h_13 b => exact .inl ⟨_, exec_unknown_idle b hs⟩
  case h_14 => exact .inl ⟨_, exec_ack nofun hs⟩
  case h_15 => cases ha

/-! What the sequencer's turn hands to a command. -/

/-- In a good state the opcode in hand is that of a command with an action at the position, outside S_GUARD, S_APP and
S_SPIN. -/
theorem State.OpcodeOk.acts {s : State} (h : s.OpcodeOk) (hg : s.seq ≠ .guard) (hp : s.seq ≠ .app ∧ s.seq ≠ .spin) :
    actsAt (decodeOpcode s.op) s.seq = true := by
  unfold State.OpcodeOk at h
  cases hs : s.seq <;> simp only [hs] at h
  case guard => exact absurd hs hg
  case app => exact absurd hs hp.1
  case spin => exact absurd hs hp.2
  case idle => cases decodeOpcode s.op <;> rfl
  case ack =>
    cases hi : decodeOpcode s.op with
    | reset => exact absurd hi h
    | _ => rfl
  all_goals rw [h]; rfl

/-- `u` is the state, prepared from `s`, at which the sequencer's turn calls the command in hand: that command has an action
there, and in S_IDLE it is the one of the byte received. -/
structure HandedOver (s u : State) : Prop where
  acts : actsAt (decodeOpcode u.op) u.seq = true
  opcode : s.seq = .idle → u.op = s.rxsr
  seq : u.seq = s.seq
  cfg : u.cfg = s.cfg
  pb : u.pb = s.pb
  ftb : u.ftb = s.ftb
  fe : u.fe = s.fe
  admission : u.admission = s.admission

theorem Seq.listening_position {p : Seq} (h : p.listening = true) : p ≠ .app ∧ p ≠ .spin := by
  constructor
  · rintro rfl
    cases h
  · rintro rfl
    cases h

/-- RecvByte's return hands the byte to the dispatcher, or to the command in hand. -/
theorem received_handedOver {s : State} (ho : s.OpcodeOk) (hl : s.seq.listening = true) :
    ∃ u, received s = .command (decodeOpcode u.op) u ∧ HandedOver s u := by
  have hg := Seq.listening_ne_guard hl
  have hp := Seq.listening_position hl
  unfold received
  split
  case isTrue hs =>
    have hop : ({ recvDone s with op := s.rxsr } : State).OpcodeOk := by simp [State.OpcodeOk, hs]
    exact ⟨{ recvDone s with op := s.rxsr }, rfl, hop.acts hg hp, fun _ => rfl, rfl, rfl, rfl, rfl, rfl, rfl⟩
  case isFalse hs =>
    exact ⟨recvDone s, rfl, ho.acts hg hp, fun h => absurd h hs, rfl, rfl, rfl, rfl, rfl, rfl⟩

/-- The sequencer's turn ends in a state, or it calls a command at a position where that command has an action. -/
theorem seqTurn_done_or_handedOver {s : State} (ho : s.OpcodeOk) :
    (∃ t, seqTurn s = .done t) ∨ ∃ u, seqTurn s = .command (decodeOpcode u.op) u ∧ HandedOver s u := by
  unfold seqTurn
  split
  case h_1 => exact .inl ⟨_, rfl⟩
  case h_2 hs =>
    unfold sendTurn
    split
    · exact .inl ⟨_, rfl⟩
    · refine .inr ⟨sendDone s, rfl, ho.acts (by simp [hs]) (by simp [hs]), fun h => ?_, rfl, rfl, rfl, rfl, rfl, rfl⟩
      cases hs.symm.trans h
  case h_3 p hs =>
    refine .inr ⟨s, rfl, ho.acts (by simp [hs]) (by simp [hs]), fun h => ?_, rfl, rfl, rfl, rfl, rfl, rfl⟩
    cases hs.symm.trans h
  case h_4 => exact .inl ⟨_, rfl⟩
  case h_5 => exact .inl ⟨_, rfl⟩
  case h_6 =>
    have hl : s.seq.listening = true := by cases hs : s.seq <;> simp_all [Seq.listening]
    unfold recvTurn
    split
    case h_5 =>
      split
      · exact .inl ⟨_, rfl⟩
      · exact .inr (received_handedOver ho hl)
    all_goals exact .inl ⟨_, rfl⟩

/-! The step. -/

/-- The one place where the sequencer's turn can stop: RecvByte of S_IDLE has returned 'W', and `u` is the state at which
WRITEPAGE's dispatch runs. -/
structure DispatchesWritePage (s u : State) : Prop where
  position : s.seq = .idle
  opcode : s.rxsr = 0x57
  fe : u.fe = s.fe
  admission : u.admission = s.admission

theorem seqTurn_goes_on_or_dispatch {s : State} (h : s.Inv) :
    (∃ t, runTurn (seqTurn s) = .next t) ∨ ∃ u, DispatchesWritePage s u ∧ runTurn (seqTurn s) = writePageStart u := by
  obtain ⟨t, ht⟩ | ⟨u, hcommand, hu⟩ := seqTurn_done_or_handedOver h.opcode
  · exact .inl ⟨t, by rw [ht]; rfl⟩
  · have hrun : runTurn (seqTurn s) = exec (decodeOpcode u.op) u := by rw [hcommand]; rfl
    rw [hrun]
    obtain hnext | ⟨hw, hidle⟩ := exec_goes_on_or_dispatch hu.acts (by rw [hu.cfg, h.shapes.config])
      (by rw [hu.pb, hu.cfg, h.shapes.pb]) (by rw [hu.ftb, hu.cfg, h.shapes.ftb])
    · exact .inl hnext
    · have hs := hu.seq.symm.trans hidle
      have hrx := (hu.opcode hs).symm.trans (decodeOpcode_eq_writePage.1 hw)
      exact .inr ⟨u, ⟨hs, hrx, hu.fe, hu.admission⟩, by rw [hw, exec_writePage_idle hidle]⟩

/-- From a good state the step answers a state, unless it is WRITEPAGE's dispatch. -/
theorem step_goes_on_or_dispatch {s : State} (h : s.Inv) :
    (∃ t, step s = .next t) ∨ ∃ u, DispatchesWritePage s u ∧ step s = writePageStart u := by
  have hv := h.shapes.config
  rcases hn : s.nextAgent with _ | ⟨_ | _ | _, q⟩
  · exact .inl ⟨s, step_at_rest hv hn⟩
  · exact .inl ⟨resetAt q s, by rw [step_eq, turn, if_pos hv, hn]; rfl⟩
  · exact .inl ⟨engineComplete (advanceTo q s), by rw [step_eq, turn, if_pos hv, hn]; rfl⟩
  · have hstep : step s = runTurn (seqTurn (advanceTo q s)) := by rw [step_eq, turn, if_pos hv, hn]
    rw [hstep]
    obtain hnext | ⟨u, hu, hstart⟩ := seqTurn_goes_on_or_dispatch (advance_to_event_inv h hn nofun)
    · exact .inl hnext
    · exact .inr ⟨u, ⟨hu.position, hu.opcode, hu.fe, hu.admission⟩, hstart⟩

/-- WRITEPAGE's dispatch faults only as R144 says: an erase issued while the engine is busy. -/
theorem writePageStart_fault {s : State} {f : Fault} (h : writePageStart s = .fault f) :
    f = .flashIssueWhileBusy ∧ s.fe.busy = true := by
  cases ha : s.admission with
  | some r => simp [writePageStart, ha] at h
  | none =>
    cases hb : s.fe.busy with
    | true =>
      rw [writePageStart_busy ha hb] at h
      cases h
      exact ⟨rfl, rfl⟩
    | false => simp [writePageStart_eq ha hb] at h

/-- WRITEPAGE's dispatch is refused only by the admission of 20_memory.md R53. -/
theorem writePageStart_refused {s : State} {r : Refusal} (h : writePageStart s = .refused r) :
    s.admission = some r := by
  cases ha : s.admission with
  | some r' =>
    rw [writePageStart, ha] at h
    cases h
    rfl
  | none =>
    cases hb : s.fe.busy with
    | true => simp [writePageStart_busy ha hb] at h
    | false => simp [writePageStart_eq ha hb] at h

/-! Rest. -/

/-- Inside the loop the watchdog of a good state is armed (70 R252; 44 R207). -/
theorem State.SupervisorOk.armed {s : State} (h : s.SupervisorOk) (hg : s.seq ≠ .guard) (ha : s.seq ≠ .app) :
    s.wd.en = true := by
  unfold State.SupervisorOk at h
  split at h
  case h_1 hs => exact absurd hs hg
  case h_2 hs => exact absurd hs ha
  case h_3 => exact h.1
  case h_4 => exact h.1

/-- Outside the application a good state has an event to come: ResetGuard's turn, or at the latest the watchdog's expiry. -/
theorem at_rest_in_app {s : State} (h : s.SupervisorOk) (hn : s.nextAgent = none) : s.seq = .app := by
  obtain ⟨-, hwdt, -, hseq⟩ := nextAgent_none hn
  by_contra ha
  by_cases hg : s.seq = .guard
  · cases (seqDue_guard hg).symm.trans hseq
  · cases (wdtDue_armed hg (h.armed hg ha)).symm.trans hwdt

/-- Settles O7: the step stops only as WRITEPAGE's dispatch, and rests only where the watchdog is disabled and ResetGuard
has run. -/
theorem goodStatesStopOnlyWhereTheSpecSays : Obligations.GoodStatesStopOnlyWhereTheSpecSays := by
  intro s h
  refine ⟨fun f hf => ?_, fun r hr => ?_, fun hn => ?_⟩
  · obtain ⟨t, ht⟩ | ⟨u, hu, hstart⟩ := step_goes_on_or_dispatch h
    · cases ht.symm.trans hf
    · obtain ⟨rfl, hbusy⟩ := writePageStart_fault (hstart.symm.trans hf)
      exact ⟨rfl, hu.position, hu.opcode, hu.fe ▸ hbusy⟩
  · obtain ⟨t, ht⟩ | ⟨u, hu, hstart⟩ := step_goes_on_or_dispatch h
    · cases ht.symm.trans hr
    · have hadm := writePageStart_refused (hstart.symm.trans hr)
      exact ⟨hu.position, hu.opcode, hu.admission ▸ hadm⟩
  · obtain ⟨henv, -⟩ := nextAgent_none hn
    exact ⟨at_rest_in_app h.supervisor hn, resets_of_envDue_none henv, step_at_rest h.shapes.config hn⟩

end Sys2Proof.Machine
end

section
/-! ResetGuard's decision as a step of the block (70_reset_and_hazards.md R250 to R253; 43_reset_guard_watchdog.md R174,
R180). -/

namespace Sys2Proof.Machine

/-- In S_GUARD, with no reset and no completion due, the step is ResetGuard at the current tick. -/
theorem step_guard {s : State} (hv : s.cfg.valid = true) (hs : s.seq = .guard) (hu : s.UndisturbedUntil s.now) :
    step s = .next (resetGuard (advanceTo s.now s)) := by
  have hturn : seqTurn (advanceTo s.now s) = .done (resetGuard (advanceTo s.now s)) := by simp [seqTurn, hs]
  rw [step_of_undisturbed hv (seqDue_guard hs) hu, hturn]
  rfl

theorem resetGuard_of_ext {s : State} (h : s.rc.ext = true) : resetGuard s = bootloaderPath s := if_pos h

theorem resetGuard_of_not_ext {s : State} (h : s.rc.ext = false) : resetGuard s = applicationPath s :=
  if_neg (Bool.eq_false_iff.1 h)

/-- Whichever way ResetGuard decides, AR, WRITEPAGE's state, flash and the histories are as before (R251, R252). -/
theorem resetGuard_advanceTo_keeps (q : Nat) (s : State) :
    KeepsAddress s (resetGuard (advanceTo q s)) ∧ KeepsPageState s (resetGuard (advanceTo q s)) ∧
    (resetGuard (advanceTo q s)).flash = s.flash ∧ (resetGuard (advanceTo q s)).hist = s.hist := by
  unfold resetGuard
  split <;> exact ⟨by constructor <;> simp, by constructor <;> simp, by simp⟩

/-- Settles O55: the step is ResetGuard; RC.EXT decides between its two paths, which differ in the fields named first and
share the rest. -/
theorem resetGuardDecidesOnTheExternalFlag : Obligations.ResetGuardDecidesOnTheExternalFlag := by
  intro s hv hs hu
  have hstep := step_guard hv hs hu
  have hkeeps := resetGuard_advanceTo_keeps s.now s
  refine ⟨fun hext => ?_, fun hext => ?_⟩
  · rw [resetGuard_of_ext (s := advanceTo s.now s) hext] at hstep hkeeps
    refine ⟨_, hstep, ?_, ?_, ?_, ?_, ?_, hkeeps⟩ <;> simp
  · rw [resetGuard_of_not_ext (s := advanceTo s.now s) hext] at hstep hkeeps
    refine ⟨_, hstep, ?_, ?_, ?_, ?_, ?_, hkeeps⟩ <;> simp [State.applicationEntry]

end Sys2Proof.Machine
end

section
/-! Why an action is refused: at a position of its own a command names a defect of AR, of the payload or of the page, never
the position itself (log 23). -/

namespace Sys2Proof.Machine

/-! The refusals of the operations that WRITEPAGE uses. -/

theorem andThen_eq_refused {r : Result} {f : State → Result} {e : Refusal} :
    andThen r f = .refused e ↔ r = .refused e ∨ ∃ u, r = .next u ∧ f u = .refused e := by
  cases r <;> simp [andThen]

theorem checksum_refused {buf : List Byte} {r : Refusal} (h : checksum buf = .refused r) :
    r = .checksumOddLength ∨ r = .checksumTooLong := by
  unfold checksum at h
  split at h
  · cases h; exact .inl rfl
  · split at h <;> cases h
    exact .inr rfl

theorem flashFill_refused {o : Nat} {w : Half} {s : State} {r : Refusal} (h : flashFill o w s = .refused r) :
    r = .fillOffset := by
  unfold flashFill at h
  split at h
  · cases h; rfl
  · split at h <;> cases h

theorem flashCommit_ne_refused (a : Half) (s : State) (r : Refusal) : flashCommit a s ≠ .refused r := by
  unfold flashCommit
  split <;> exact nofun

theorem flashReenableReads_ne_refused (s : State) (r : Refusal) : flashReenableReads s ≠ .refused r := by
  unfold flashReenableReads
  split <;> exact nofun

theorem fillWords_refused {ws : List Half} {r : Refusal} :
    ∀ {o : Nat} {s : State}, fillWords o ws s = .refused r → r = .fillOffset := by
  induction ws with
  | nil => exact nofun
  | cons w ws ih =>
    intro o s h
    obtain h | ⟨u, -, h⟩ := andThen_eq_refused.1 h
    · exact flashFill_refused h
    · exact ih h

theorem fillAndCommit_refused {a : Half} {buf : List Byte} {s : State} {r : Refusal}
    (h : fillAndCommit a buf s = .refused r) : r = .fillOffset := by
  obtain h | ⟨u, -, h⟩ := andThen_eq_refused.1 h
  · exact fillWords_refused h
  · exact absurd h (flashCommit_ne_refused a u r)

/-! The refusals of WRITEPAGE's actions. -/

/-- The admission gives only the three reasons of 20_memory.md R53. -/
theorem admission_some {s : State} {r : Refusal} (h : s.admission = some r) :
    r = .addressUnwritten ∨ r = .addressMisaligned ∨ r = .addressOutsideRegion := by
  unfold State.admission at h
  split at h
  · cases h; exact .inl rfl
  · split at h
    · cases h; exact .inr (.inl rfl)
    · split at h <;> cases h
      exact .inr (.inr rfl)

/-- A payload byte is refused only with the checksum of the payload it completes. -/
theorem writePageData_refused {i : Nat} {s : State} {r : Refusal} (h : writePageData i s = .refused r) :
    r = .checksumOddLength ∨ r = .checksumTooLong := by
  unfold writePageData at h
  split at h
  · cases h
  · unfold writePageValidate at h
    split at h
    · split at h <;> cases h
    · cases h
    · cases h; exact checksum_refused ‹_›

theorem writePageFinish_ne_refused (s : State) (r : Refusal) : writePageFinish s ≠ .refused r := by
  intro h
  obtain h | ⟨u, -, h⟩ := andThen_eq_refused.1 h
  · exact flashReenableReads_ne_refused s r h
  · cases h

theorem writePageProgram_refused {p : ProgPhase} {s : State} {r : Refusal} (h : writePageProgram p s = .refused r) :
    r = .fillOffset := by
  unfold writePageProgram at h
  split at h
  · cases h
  · split at h
    · obtain h | ⟨u, -, h⟩ := andThen_eq_refused.1 h
      · exact fillAndCommit_refused h
      · cases h
    · exact absurd h (writePageFinish_ne_refused s r)

theorem writePageStart_ne_foreign (s : State) : writePageStart s ≠ .refused .notThisCommandsPosition := fun h => by
  simpa using admission_some (writePageStart_refused h)

theorem writePageData_ne_foreign (i : Nat) (s : State) :
    writePageData i s ≠ .refused .notThisCommandsPosition := fun h => by
  simpa using writePageData_refused h

theorem writePageProgram_ne_foreign (p : ProgPhase) (s : State) :
    writePageProgram p s ≠ .refused .notThisCommandsPosition := fun h => by
  simpa using writePageProgram_refused h

/-! Position by position, each command calls a position foreign exactly where it has no action. -/

theorem exec_identify_foreign (s : State) :
    exec .identify s = .refused .notThisCommandsPosition ↔ actsAt .identify s.seq = false := by
  cases hs : s.seq <;> simp [exec, execIdentify, actsAt, hs]

theorem exec_loadAddr_foreign (s : State) :
    exec .loadAddr s = .refused .notThisCommandsPosition ↔ actsAt .loadAddr s.seq = false := by
  cases hs : s.seq
  case addr k =>
    obtain rfl | rfl : k = 0 ∨ k = 1 := by omega
    · simp [exec_loadAddr_addr_zero hs, actsAt]
    · simp [exec_loadAddr_addr_one hs, actsAt]
  all_goals simp [exec, execLoadAddr, actsAt, hs]

theorem exec_writePage_foreign (s : State) :
    exec .writePage s = .refused .notThisCommandsPosition ↔ actsAt .writePage s.seq = false := by
  cases hs : s.seq
  case idle => simp [exec_writePage_idle hs, writePageStart_ne_foreign, actsAt]
  case wData i => simp [exec_writePage_wData hs, writePageData_ne_foreign, actsAt]
  case wProg p => simp [exec_writePage_wProg hs, writePageProgram_ne_foreign, actsAt]
  all_goals simp [exec, execWritePage, actsAt, hs]

theorem exec_reset_foreign (s : State) :
    exec .reset s = .refused .notThisCommandsPosition ↔ actsAt .reset s.seq = false := by
  cases hs : s.seq <;> simp [exec, execReset, actsAt, hs]

theorem exec_unknown_foreign (b : Byte) (s : State) :
    exec (.unknown b) s = .refused .notThisCommandsPosition ↔ actsAt (.unknown b) s.seq = false := by
  cases hs : s.seq <;> simp [exec, execUnknown, actsAt, hs]

theorem exec_foreign (i : Instr) (s : State) :
    exec i s = .refused .notThisCommandsPosition ↔ actsAt i s.seq = false := by
  cases i with
  | identify => exact exec_identify_foreign s
  | loadAddr => exact exec_loadAddr_foreign s
  | writePage => exact exec_writePage_foreign s
  | reset => exact exec_reset_foreign s
  | unknown b => exact exec_unknown_foreign b s

/-- Settles O35: both directions of `exec_foreign`. -/
theorem foreignPositionsAreRefused : Obligations.ForeignPositionsAreRefused := fun i s =>
  ⟨(exec_foreign i s).2, fun hown h => by cases hown.symm.trans ((exec_foreign i s).1 h)⟩

end Sys2Proof.Machine
end
